-- ==== Sys2Proof/Word.lean ====
section
/-!
DEFINITION. The word types of the MPE engine: command words and limbs of 64 bits (spec/30_encoding.md R70,
spec/00_scope.md R7), bytes of the data buffer (spec/20_memory.md R50) and the names of the value registers
(spec/10_state.md R20).
-/

namespace Sys2Proof

/-- A 64-bit word: a command word, a literal word, or one limb of a value. -/
abbrev Word := BitVec 64

/-- One byte of the data buffer. -/
abbrev Byte := BitVec 8

/-- The name of a value register, `v0` to `v15` (R20, R71). -/
abbrev Reg := Fin 16

end Sys2Proof
end

