-- ==== Sys2Proof/Syntax.lean ====
section
/-!
DEFINITION. The commands of the engine (spec/30_encoding.md R77, spec/opcode_table.json): one constructor per row.
Register numbers, width codes and option bits are already decoded; immediates, addresses and lengths keep the width
of their field (R71).
-/

namespace Sys2Proof

/-- The target width of `NARROW`, its width code `FN` (R74). -/
inductive NarrowWidth where
  | w8 | w16 | w32 | w64 | w128
  deriving DecidableEq, Repr

/-- The options of `FMTHEX`, its `FN` bits (R74): `U` upper-case digits, `P` the `0x` prefix. -/
structure HexOptions where
  upper     : Bool
  zeroX     : Bool
  deriving DecidableEq, Repr

/-- The commands. Destinations come first, as in the assembler syntax of R81: `rd` is `vRD`, `rd2` is `vRD2`,
`rs1` and `rs2` the sources, `addr` and `len` the buffer operands. -/
inductive Instr where
  -- limb store, flags, comparator (41_limb_store.md)
  | nop
  | mov (rd rs1 : Reg)
  | ldi (rd : Reg) (imm : BitVec 32)
  | ldl (rd rs1 : Reg) (imm : BitVec 32) (lit : Word)
  | ldmax (rd : Reg)
  | getl (rd rs1 : Reg) (imm : BitVec 32)
  | narrow (rd rs1 : Reg) (w : NarrowWidth)
  | rdf (rd : Reg)
  | clrf
  | cmpEq (rd rs1 rs2 : Reg)
  | cmpNe (rd rs1 rs2 : Reg)
  | cmpLt (rd rs1 rs2 : Reg)
  | cmpLe (rd rs1 rs2 : Reg)
  | cmpGt (rd rs1 rs2 : Reg)
  | cmpGe (rd rs1 rs2 : Reg)
  | isz (rd rs1 : Reg)
  -- adder/subtractor (42_add_sub.md)
  | addW (rd rs1 rs2 : Reg)
  | addO (rd rs1 rs2 : Reg)
  | addC (rd rs1 rs2 : Reg)
  | addS (rd rs1 rs2 : Reg)
  | subW (rd rs1 rs2 : Reg)
  | subO (rd rs1 rs2 : Reg)
  | subC (rd rs1 rs2 : Reg)
  | subS (rd rs1 rs2 : Reg)
  -- multiplier and power (43_multiply.md)
  | mulW (rd rs1 rs2 : Reg)
  | mulO (rd rs1 rs2 : Reg)
  | mulC (rd rs1 rs2 : Reg)
  | mulS (rd rs1 rs2 : Reg)
  | mulWide (rd rd2 rs1 rs2 : Reg)
  | powW (rd rs1 rs2 : Reg)
  | powO (rd rs1 rs2 : Reg)
  -- division engine (44_divide.md)
  | divmod (rd rd2 rs1 rs2 : Reg)
  | div (rd rs1 rs2 : Reg)
  | rem (rd rs1 rs2 : Reg)
  -- shift/rotate and bit unit (45_shift_bit.md)
  | shl (rd rs1 rs2 : Reg)
  | shr (rd rs1 rs2 : Reg)
  | rol (rd rs1 rs2 : Reg)
  | ror (rd rs1 rs2 : Reg)
  | shli (rd rs1 : Reg) (imm : BitVec 32)
  | shri (rd rs1 : Reg) (imm : BitVec 32)
  | roli (rd rs1 : Reg) (imm : BitVec 32)
  | rori (rd rs1 : Reg) (imm : BitVec 32)
  | bitAnd (rd rs1 rs2 : Reg)
  | bitOr (rd rs1 rs2 : Reg)
  | bitXor (rd rs1 rs2 : Reg)
  | bitNot (rd rs1 : Reg)
  | clz (rd rs1 : Reg)
  | ctz (rd rs1 : Reg)
  | bits (rd rs1 : Reg)
  | bit (rd rs1 : Reg) (imm : BitVec 32)
  -- conversion unit (46_conversion.md)
  | ldbe (rd : Reg) (addr len : BitVec 16)
  | ldle (rd : Reg) (addr len : BitVec 16)
  | stbe (rs1 : Reg) (addr : BitVec 16)
  | stle (rs1 : Reg) (addr : BitVec 16)
  | parsedec (rd : Reg) (addr len : BitVec 16)
  | parsehex (rd : Reg) (addr len : BitVec 16)
  | parser (rd : Reg) (addr len : BitVec 16) (radix : Nat)
  | fmtdec (rd rs1 : Reg) (addr : BitVec 16)
  | fmthex (rd rs1 : Reg) (addr : BitVec 16) (opts : HexOptions)
  | fmtr (rd rs1 : Reg) (addr : BitVec 16) (radix : Nat)
  | f2u (rd rs1 : Reg)
  | u2f (rd rs1 : Reg)
  -- square-root unit (47_isqrt.md)
  | isqrt (rd rs1 : Reg)
  deriving DecidableEq, Repr

end Sys2Proof
end

