-- ==== Sys2Proof/WellFormed.lean ====
section
/-!
DEFINITION. Which terms of `Instr` stand for a command word. Every operand's range is carried by its type but the
radix of `PARSER` and `FMTR`, which R74 bounds by 2 and 36 (spec/90_conflicts.md C4).
-/

namespace Sys2Proof

/-- The radix values R74 allows. -/
def radixOk (b : Nat) : Bool := decide (2 ≤ b) && decide (b ≤ 36)

/-- The check: a command's operands are ones its encoding can hold (R74). -/
def Instr.wellFormed : Instr → Bool
  | .parser _ _ _ radix => radixOk radix
  | .fmtr _ _ _ radix => radixOk radix
  | .nop | .clrf | .mov .. | .ldi .. | .ldl .. | .ldmax .. | .getl .. | .narrow .. | .rdf .. | .isz ..
  | .cmpEq .. | .cmpNe .. | .cmpLt .. | .cmpLe .. | .cmpGt .. | .cmpGe ..
  | .addW .. | .addO .. | .addC .. | .addS .. | .subW .. | .subO .. | .subC .. | .subS ..
  | .mulW .. | .mulO .. | .mulC .. | .mulS .. | .mulWide .. | .powW .. | .powO ..
  | .divmod .. | .div .. | .rem .. | .shl .. | .shr .. | .rol .. | .ror ..
  | .shli .. | .shri .. | .roli .. | .rori .. | .bitAnd .. | .bitOr .. | .bitXor .. | .bitNot ..
  | .clz .. | .ctz .. | .bits .. | .bit .. | .ldbe .. | .ldle .. | .stbe .. | .stle ..
  | .parsedec .. | .parsehex .. | .fmtdec .. | .fmthex .. | .f2u .. | .u2f .. | .isqrt .. => true

end Sys2Proof
end

