-- ==== Sys2Proof/Decode.lean ====
section
/-!
DEFINITION. The decoder and the encoder of command words, written from spec/30_encoding.md R71 (fields), R72 (formats
and the fields they leave unused), R74 (values of FN), R75 (length), R77 (the opcode map) and R79 (illegal words)
alone, as R78 asks.
-/

namespace Sys2Proof

/-- `w[hi:lo]`, read as an unsigned number (spec/00_scope.md R9). -/
def slice (w : Word) (hi lo : Nat) : Nat := w.toNat / 2 ^ lo % 2 ^ (hi - lo + 1)

/-- The field `OPC` (R71). -/
def opcField (w : Word) : Nat := slice w 7 0

/-- The field `FN` (R71). -/
def fnField (w : Word) : Nat := slice w 31 24

/-- A 4-bit register field whose low bit is `lo`: the register it names (R71). -/
def regField (w : Word) (lo : Nat) : Reg := Fin.ofNat 16 (slice w (lo + 3) lo)

/-- The operand fields of a command word at their fixed positions, with its literal word (R71, R73). -/
structure Fields where
  rd   : Reg
  rs1  : Reg
  rs2  : Reg
  rd2  : Reg
  imm  : BitVec 32
  addr : BitVec 16
  len  : BitVec 16
  lit  : Word
  deriving DecidableEq, Repr

/-- The operand fields of `w` (R71); `lit` is the second word, 0 where there is none. -/
def fieldsOf (w lit : Word) : Fields where
  rd   := regField w 8
  rs1  := regField w 12
  rs2  := regField w 16
  rd2  := regField w 20
  imm  := BitVec.ofNat 32 (slice w 63 32)
  addr := BitVec.ofNat 16 (slice w 47 32)
  len  := BitVec.ofNat 16 (slice w 63 48)
  lit  := lit

/-- The formats of R72. -/
inductive Format where
  | n | d | r2 | r2f | r3 | r4 | ri | i | l | md | mdf | ms | mf | mff
  deriving DecidableEq, Repr

/-- Every field the format does not use is zero (R72, R79 case 3). -/
def Format.unusedZero (f : Format) (w : Word) : Bool :=
  match f with
  | .n   => slice w 63 8 == 0
  | .d   => slice w 63 12 == 0
  | .r2  => slice w 63 16 == 0
  | .r2f => slice w 23 16 == 0 && slice w 63 32 == 0
  | .r3  => slice w 23 20 == 0 && slice w 63 32 == 0
  | .r4  => slice w 63 24 == 0
  | .ri  => slice w 31 16 == 0
  | .i   => slice w 31 12 == 0
  | .l   => slice w 31 16 == 0
  | .md  => slice w 31 12 == 0
  | .mdf => slice w 23 12 == 0
  | .ms  => slice w 11 8 == 0 && slice w 31 16 == 0 && slice w 63 48 == 0
  | .mf  => slice w 31 16 == 0 && slice w 63 48 == 0
  | .mff => slice w 23 16 == 0 && slice w 63 48 == 0

/-- The width code of `NARROW` (R74). -/
def NarrowWidth.ofFn : Nat → Option NarrowWidth
  | 0 => some .w8
  | 1 => some .w16
  | 2 => some .w32
  | 3 => some .w64
  | 4 => some .w128
  | _ => none

/-- The inverse of `NarrowWidth.ofFn` (R74). -/
def NarrowWidth.fn : NarrowWidth → Nat
  | .w8 => 0
  | .w16 => 1
  | .w32 => 2
  | .w64 => 3
  | .w128 => 4

/-- The options of `FMTHEX`: bit 0 is `U`, bit 1 is `P` (R74). -/
def HexOptions.ofFn : Nat → Option HexOptions
  | 0 => some { upper := false, zeroX := false }
  | 1 => some { upper := true, zeroX := false }
  | 2 => some { upper := false, zeroX := true }
  | 3 => some { upper := true, zeroX := true }
  | _ => none

/-- The inverse of `HexOptions.ofFn` (R74). -/
def HexOptions.fn (o : HexOptions) : Nat := o.upper.toNat + 2 * o.zeroX.toNat

/-- A row whose only legal `FN` is 0 (R74 "none", R77). -/
def onlyFnZero (fn : Nat) (row : Format × Instr) : Option (Format × Instr) :=
  if fn = 0 then some row else none

/-- A row whose `FN` is a radix, 2 to 36 (R74). -/
def onlyRadix (fn : Nat) (row : Format × Instr) : Option (Format × Instr) :=
  if radixOk fn then some row else none

/-- The opcode map, R77, with the values of `FN` that R74 allows: the format and the command of every defined pair
`(OPC, FN)`, and `none` for every other pair. -/
def opcodeRow (opc fn : Nat) (f : Fields) : Option (Format × Instr) :=
  match opc with
  | 0x01 => onlyFnZero fn (.n, .nop)
  | 0x02 => onlyFnZero fn (.r2, .mov f.rd f.rs1)
  | 0x03 => onlyFnZero fn (.i, .ldi f.rd f.imm)
  | 0x04 => onlyFnZero fn (.l, .ldl f.rd f.rs1 f.imm f.lit)
  | 0x05 => onlyFnZero fn (.d, .ldmax f.rd)
  | 0x06 => onlyFnZero fn (.ri, .getl f.rd f.rs1 f.imm)
  | 0x07 => (NarrowWidth.ofFn fn).map fun c => (.r2f, .narrow f.rd f.rs1 c)
  | 0x08 => onlyFnZero fn (.d, .rdf f.rd)
  | 0x09 => onlyFnZero fn (.n, .clrf)
  | 0x0A =>
    match fn with
    | 0 => some (.r3, .cmpEq f.rd f.rs1 f.rs2)
    | 1 => some (.r3, .cmpNe f.rd f.rs1 f.rs2)
    | 2 => some (.r3, .cmpLt f.rd f.rs1 f.rs2)
    | 3 => some (.r3, .cmpLe f.rd f.rs1 f.rs2)
    | 4 => some (.r3, .cmpGt f.rd f.rs1 f.rs2)
    | 5 => some (.r3, .cmpGe f.rd f.rs1 f.rs2)
    | _ => none
  | 0x0B => onlyFnZero fn (.r2, .isz f.rd f.rs1)
  | 0x10 =>
    match fn with
    | 0 => some (.r3, .addW f.rd f.rs1 f.rs2)
    | 1 => some (.r3, .addO f.rd f.rs1 f.rs2)
    | 2 => some (.r3, .addC f.rd f.rs1 f.rs2)
    | 3 => some (.r3, .addS f.rd f.rs1 f.rs2)
    | _ => none
  | 0x11 =>
    match fn with
    | 0 => some (.r3, .subW f.rd f.rs1 f.rs2)
    | 1 => some (.r3, .subO f.rd f.rs1 f.rs2)
    | 2 => some (.r3, .subC f.rd f.rs1 f.rs2)
    | 3 => some (.r3, .subS f.rd f.rs1 f.rs2)
    | _ => none
  | 0x20 =>
    match fn with
    | 0 => some (.r3, .mulW f.rd f.rs1 f.rs2)
    | 1 => some (.r3, .mulO f.rd f.rs1 f.rs2)
    | 2 => some (.r3, .mulC f.rd f.rs1 f.rs2)
    | 3 => some (.r3, .mulS f.rd f.rs1 f.rs2)
    | _ => none
  | 0x21 => onlyFnZero fn (.r4, .mulWide f.rd f.rd2 f.rs1 f.rs2)
  | 0x22 =>
    match fn with
    | 0 => some (.r3, .powW f.rd f.rs1 f.rs2)
    | 1 => some (.r3, .powO f.rd f.rs1 f.rs2)
    | _ => none
  | 0x30 => onlyFnZero fn (.r4, .divmod f.rd f.rd2 f.rs1 f.rs2)
  | 0x31 => onlyFnZero fn (.r3, .div f.rd f.rs1 f.rs2)
  | 0x32 => onlyFnZero fn (.r3, .rem f.rd f.rs1 f.rs2)
  | 0x40 => onlyFnZero fn (.r3, .shl f.rd f.rs1 f.rs2)
  | 0x41 => onlyFnZero fn (.r3, .shr f.rd f.rs1 f.rs2)
  | 0x42 => onlyFnZero fn (.r3, .rol f.rd f.rs1 f.rs2)
  | 0x43 => onlyFnZero fn (.r3, .ror f.rd f.rs1 f.rs2)
  | 0x44 => onlyFnZero fn (.ri, .shli f.rd f.rs1 f.imm)
  | 0x45 => onlyFnZero fn (.ri, .shri f.rd f.rs1 f.imm)
  | 0x46 => onlyFnZero fn (.ri, .roli f.rd f.rs1 f.imm)
  | 0x47 => onlyFnZero fn (.ri, .rori f.rd f.rs1 f.imm)
  | 0x50 => onlyFnZero fn (.r3, .bitAnd f.rd f.rs1 f.rs2)
  | 0x51 => onlyFnZero fn (.r3, .bitOr f.rd f.rs1 f.rs2)
  | 0x52 => onlyFnZero fn (.r3, .bitXor f.rd f.rs1 f.rs2)
  | 0x53 => onlyFnZero fn (.r2, .bitNot f.rd f.rs1)
  | 0x54 => onlyFnZero fn (.r2, .clz f.rd f.rs1)
  | 0x55 => onlyFnZero fn (.r2, .ctz f.rd f.rs1)
  | 0x56 => onlyFnZero fn (.r2, .bits f.rd f.rs1)
  | 0x57 => onlyFnZero fn (.ri, .bit f.rd f.rs1 f.imm)
  | 0x60 => onlyFnZero fn (.md, .ldbe f.rd f.addr f.len)
  | 0x61 => onlyFnZero fn (.md, .ldle f.rd f.addr f.len)
  | 0x62 => onlyFnZero fn (.ms, .stbe f.rs1 f.addr)
  | 0x63 => onlyFnZero fn (.ms, .stle f.rs1 f.addr)
  | 0x64 => onlyFnZero fn (.md, .parsedec f.rd f.addr f.len)
  | 0x65 => onlyFnZero fn (.md, .parsehex f.rd f.addr f.len)
  | 0x66 => onlyRadix fn (.mdf, .parser f.rd f.addr f.len fn)
  | 0x67 => onlyFnZero fn (.mf, .fmtdec f.rd f.rs1 f.addr)
  | 0x68 => (HexOptions.ofFn fn).map fun o => (.mff, .fmthex f.rd f.rs1 f.addr o)
  | 0x69 => onlyRadix fn (.mff, .fmtr f.rd f.rs1 f.addr fn)
  | 0x6A => onlyFnZero fn (.r2, .f2u f.rd f.rs1)
  | 0x6B => onlyFnZero fn (.r2, .u2f f.rd f.rs1)
  | 0x70 => onlyFnZero fn (.r2, .isqrt f.rd f.rs1)
  | _ => none

/-- The ways a command is ILLEGAL, R79. All of them raise `ILLEGAL_COMMAND`. -/
inductive Illegal where
  /-- `(OPC, FN)` is no pair of the opcode map (R79 cases 1 and 2). -/
  | undefinedCode
  /-- A field the format does not use is not zero (R79 case 3). -/
  | unusedField
  /-- The number of words issued is not the command's length (R79 case 4). -/
  | wordCount
  deriving DecidableEq, Repr

/-- A command is two words long iff its `OPC` is that of `LDL` (R75). -/
def isTwoWords (w : Word) : Bool := opcField w == 0x04

/-- The decoder: total, and a function of the words issued alone (R78). -/
def decode (w : Word) (lit : Option Word) : Except Illegal Instr :=
  match opcodeRow (opcField w) (fnField w) (fieldsOf w (lit.getD 0)) with
  | none => .error .undefinedCode
  | some (f, i) =>
    if !f.unusedZero w then .error .unusedField
    else if lit.isSome != isTwoWords w then .error .wordCount
    else .ok i

/-- A command word from the values of its fields (R71). -/
def packWord (opc rd rs1 rs2 rd2 fn imm : Nat) : Word :=
  BitVec.ofNat 64
    (opc + 2 ^ 8 * rd + 2 ^ 12 * rs1 + 2 ^ 16 * rs2 + 2 ^ 20 * rd2 + 2 ^ 24 * fn + 2 ^ 32 * imm)

/-- `IMM` of a memory format: `ADDR` is its low half and `LEN` its high half (R71). -/
def packMem (addr len : BitVec 16) : Nat := addr.toNat + 2 ^ 16 * len.toNat

/-- A command of one word in which the fields a format does not use are zero (R72). -/
def oneWord (opc : Nat) (rd rs1 rs2 rd2 : Reg) (fn imm : Nat) : Word × Option Word :=
  (packWord opc rd rs1 rs2 rd2 fn imm, none)

/-- The words of a command (R71, R72, R74, R75, R77). -/
def encode : Instr → Word × Option Word
  | .nop => oneWord 0x01 0 0 0 0 0 0
  | .mov rd rs1 => oneWord 0x02 rd rs1 0 0 0 0
  | .ldi rd imm => oneWord 0x03 rd 0 0 0 0 imm.toNat
  | .ldl rd rs1 imm lit => (packWord 0x04 rd rs1 0 0 0 imm.toNat, some lit)
  | .ldmax rd => oneWord 0x05 rd 0 0 0 0 0
  | .getl rd rs1 imm => oneWord 0x06 rd rs1 0 0 0 imm.toNat
  | .narrow rd rs1 c => oneWord 0x07 rd rs1 0 0 c.fn 0
  | .rdf rd => oneWord 0x08 rd 0 0 0 0 0
  | .clrf => oneWord 0x09 0 0 0 0 0 0
  | .cmpEq rd rs1 rs2 => oneWord 0x0A rd rs1 rs2 0 0 0
  | .cmpNe rd rs1 rs2 => oneWord 0x0A rd rs1 rs2 0 1 0
  | .cmpLt rd rs1 rs2 => oneWord 0x0A rd rs1 rs2 0 2 0
  | .cmpLe rd rs1 rs2 => oneWord 0x0A rd rs1 rs2 0 3 0
  | .cmpGt rd rs1 rs2 => oneWord 0x0A rd rs1 rs2 0 4 0
  | .cmpGe rd rs1 rs2 => oneWord 0x0A rd rs1 rs2 0 5 0
  | .isz rd rs1 => oneWord 0x0B rd rs1 0 0 0 0
  | .addW rd rs1 rs2 => oneWord 0x10 rd rs1 rs2 0 0 0
  | .addO rd rs1 rs2 => oneWord 0x10 rd rs1 rs2 0 1 0
  | .addC rd rs1 rs2 => oneWord 0x10 rd rs1 rs2 0 2 0
  | .addS rd rs1 rs2 => oneWord 0x10 rd rs1 rs2 0 3 0
  | .subW rd rs1 rs2 => oneWord 0x11 rd rs1 rs2 0 0 0
  | .subO rd rs1 rs2 => oneWord 0x11 rd rs1 rs2 0 1 0
  | .subC rd rs1 rs2 => oneWord 0x11 rd rs1 rs2 0 2 0
  | .subS rd rs1 rs2 => oneWord 0x11 rd rs1 rs2 0 3 0
  | .mulW rd rs1 rs2 => oneWord 0x20 rd rs1 rs2 0 0 0
  | .mulO rd rs1 rs2 => oneWord 0x20 rd rs1 rs2 0 1 0
  | .mulC rd rs1 rs2 => oneWord 0x20 rd rs1 rs2 0 2 0
  | .mulS rd rs1 rs2 => oneWord 0x20 rd rs1 rs2 0 3 0
  | .mulWide rd rd2 rs1 rs2 => oneWord 0x21 rd rs1 rs2 rd2 0 0
  | .powW rd rs1 rs2 => oneWord 0x22 rd rs1 rs2 0 0 0
  | .powO rd rs1 rs2 => oneWord 0x22 rd rs1 rs2 0 1 0
  | .divmod rd rd2 rs1 rs2 => oneWord 0x30 rd rs1 rs2 rd2 0 0
  | .div rd rs1 rs2 => oneWord 0x31 rd rs1 rs2 0 0 0
  | .rem rd rs1 rs2 => oneWord 0x32 rd rs1 rs2 0 0 0
  | .shl rd rs1 rs2 => oneWord 0x40 rd rs1 rs2 0 0 0
  | .shr rd rs1 rs2 => oneWord 0x41 rd rs1 rs2 0 0 0
  | .rol rd rs1 rs2 => oneWord 0x42 rd rs1 rs2 0 0 0
  | .ror rd rs1 rs2 => oneWord 0x43 rd rs1 rs2 0 0 0
  | .shli rd rs1 imm => oneWord 0x44 rd rs1 0 0 0 imm.toNat
  | .shri rd rs1 imm => oneWord 0x45 rd rs1 0 0 0 imm.toNat
  | .roli rd rs1 imm => oneWord 0x46 rd rs1 0 0 0 imm.toNat
  | .rori rd rs1 imm => oneWord 0x47 rd rs1 0 0 0 imm.toNat
  | .bitAnd rd rs1 rs2 => oneWord 0x50 rd rs1 rs2 0 0 0
  | .bitOr rd rs1 rs2 => oneWord 0x51 rd rs1 rs2 0 0 0
  | .bitXor rd rs1 rs2 => oneWord 0x52 rd rs1 rs2 0 0 0
  | .bitNot rd rs1 => oneWord 0x53 rd rs1 0 0 0 0
  | .clz rd rs1 => oneWord 0x54 rd rs1 0 0 0 0
  | .ctz rd rs1 => oneWord 0x55 rd rs1 0 0 0 0
  | .bits rd rs1 => oneWord 0x56 rd rs1 0 0 0 0
  | .bit rd rs1 imm => oneWord 0x57 rd rs1 0 0 0 imm.toNat
  | .ldbe rd addr len => oneWord 0x60 rd 0 0 0 0 (packMem addr len)
  | .ldle rd addr len => oneWord 0x61 rd 0 0 0 0 (packMem addr len)
  | .stbe rs1 addr => oneWord 0x62 0 rs1 0 0 0 addr.toNat
  | .stle rs1 addr => oneWord 0x63 0 rs1 0 0 0 addr.toNat
  | .parsedec rd addr len => oneWord 0x64 rd 0 0 0 0 (packMem addr len)
  | .parsehex rd addr len => oneWord 0x65 rd 0 0 0 0 (packMem addr len)
  | .parser rd addr len radix => oneWord 0x66 rd 0 0 0 radix (packMem addr len)
  | .fmtdec rd rs1 addr => oneWord 0x67 rd rs1 0 0 0 addr.toNat
  | .fmthex rd rs1 addr opts => oneWord 0x68 rd rs1 0 0 opts.fn addr.toNat
  | .fmtr rd rs1 addr radix => oneWord 0x69 rd rs1 0 0 radix addr.toNat
  | .f2u rd rs1 => oneWord 0x6A rd rs1 0 0 0 0
  | .u2f rd rs1 => oneWord 0x6B rd rs1 0 0 0 0
  | .isqrt rd rs1 => oneWord 0x70 rd rs1 0 0 0 0

/-- The words the host issues for an instruction whose bits the opcode table numbers as `w`, `nbits` of them given:
the first word is bits 63..0, and there is a second word, bits 127..64, when the first word's `OPC` says so (R75) or
the table itself gives bits above 63. Log 19. -/
def tableWords (nbits w : Nat) : Word × Option Word :=
  let given := w % 2 ^ nbits
  let first : Word := BitVec.ofNat 64 given
  (first, if isTwoWords first || decide (64 < nbits) then some (BitVec.ofNat 64 (given / 2 ^ 64)) else none)

/-- What the decoder reads from an instruction whose bits are numbered as spec/opcode_table.json numbers them. -/
def decodeTableWord (nbits w : Nat) : Option Instr :=
  match decode (tableWords nbits w).1 (tableWords nbits w).2 with
  | .ok i => some i
  | .error _ => none

end Sys2Proof
end

