-- ==== Sys2Proof/Config.lean ====
section
/-!
DEFINITION. What an instance of the engine fixes (spec/00_scope.md R7, R8; spec/10_state.md R37): the limb count
`N`, the size of the data buffer, and the rounding of `U2F`, which the spec leaves open.
-/

namespace Sys2Proof

/-- The parameters of an instance that are plain numbers (R7): `limbs` is `N`, `bufBytes` is `BUF_BYTES`. -/
structure Config where
  limbs    : Nat
  bufBytes : Nat
  deriving DecidableEq, Repr

/-- `W = 64*N`, the width of a value in bits (R7). -/
abbrev Config.width (c : Config) : Nat := 64 * c.limbs

/-- The ranges R7 gives the parameters: `1 <= N <= 1024`, `1 <= BUF_BYTES <= 65536`. -/
abbrev Config.Legal (c : Config) : Prop :=
  1 ≤ c.limbs ∧ c.limbs ≤ 1024 ∧ 1 ≤ c.bufBytes ∧ c.bufBytes ≤ 65536

/-- The instance `State.reset` starts: MPE-4 (the source's U256) with the default buffer of 4096 bytes (R1, R7).
DESIGN CHOICE, log 3: safe, every meaning reads the parameters from the state it is given. -/
def Config.default : Config := { limbs := 4, bufBytes := 4096 }

/-- The open parameter `F64_ROUND` (R7, spec/46_conversion.md R313), reduced to the one choice R313 leaves: for an
instance and a value `x` that binary64 does not represent, whether `U2F` gives the upper of the two adjacent
patterns (`true`) or the lower (`false`). It has no body: no proof can see its value. Log 4: safe. -/
opaque Config.f64RoundUp : Config → Nat → Bool

end Sys2Proof
end

