-- ==== Sys2Proof/Machine/State.lean ====
section
/-!
DEFINITION. The state of the engine as plain data (spec/10_state.md, spec/20_memory.md), the host's operations and
what they return (spec/60_exceptions.md R401, R402), the reasons a step can stop, and the state after reset
(spec/70_reset_and_hazards.md R420).
-/

namespace Sys2Proof.Machine

/-- The causes of a hardware fault (R390). -/
inductive Cause where
  | illegalCommand
  | divideByZero
  | bufferRange
  | badLength
  | badIndex
  | operandConflict
  deriving DecidableEq, Repr

/-- The result kind of the last parse command, the values of `FLAGS.PERR` (R25). -/
inductive ParseStatus where
  | ok
  | invalidDigit
  | overflow
  | empty
  deriving DecidableEq, Repr

/-- FLAGS (R25): its two fields. Bits 7:4 are reserved and read as zero; the 8-bit view is `Flags.bits`. -/
structure Flags where
  ov   : Bool
  perr : ParseStatus
  deriving DecidableEq, Repr

/-- The host's operations (R401, R402). `issue` delivers one or two command words, the only word counts the host has.
`writeReg` gives its value as a number; a W-bit register takes it modulo `2^W` (R11, log 12). -/
inductive HostOp where
  | issue (word : Word) (second : Option Word)
  | readReg (r : Reg)
  | writeReg (r : Reg) (x : Nat)
  | readBuf (addr n : Nat)
  | writeBuf (addr : Nat) (bytes : List Byte)
  | readFlags
  | readFault
  | readFaultCmd
  | readFaultLit
  | readId
  | reset
  deriving DecidableEq, Repr

/-- What a host operation returns (R401 to R403). -/
inductive Reply where
  /-- An issued command completed without a fault. -/
  | ok
  /-- An issued command raised this cause. -/
  | faulted (c : Cause)
  /-- A command was issued while the engine was STOPPED. -/
  | discarded
  /-- The operation returns nothing. -/
  | nothing
  /-- A buffer access out of range, refused without effect; no engine fault (R402). -/
  | refusedAccess
  /-- A register's value. -/
  | value (x : Nat)
  /-- Bytes of the buffer, from the lowest address. -/
  | bytes (bs : List Byte)
  /-- FLAGS. -/
  | flags (b : BitVec 8)
  /-- FAULT. -/
  | fault (b : BitVec 16)
  /-- FAULTCMD, FAULTLIT or ID. -/
  | word (w : Word)
  deriving DecidableEq, Repr

/-- The reasons the model stops. -/
inductive Fault where
  /-- The spec's model outcome `UninitRead` for a byte of the data buffer (R51, R381): a command or a host read reads
  the byte at `addr`, which nothing has written since reset. Raised by `LDBE`, `LDLE`, `PARSEDEC`, `PARSEHEX`,
  `PARSER` and the host's `ReadBuf`. SAFE: the hardware would go on with some bits; the model claims nothing. -/
  | uninitRead (addr : Nat)
  deriving DecidableEq, Repr

/-- The reasons the model refuses an instruction. -/
inductive Refusal where
  /-- The instruction has no meaning in the model yet. Raised by `exec`'s arm of that instruction only. SAFE: the
  model claims nothing about it. No arm raises it: every row of the table has its meaning. -/
  | notModelled (mnemonic : String)
  deriving DecidableEq, Repr

/-- The state of the engine, of its instance's parameters, and of the host's list of operations. -/
structure State where
  /-- The instance (R7, R37): written by no step (log 3). -/
  cfg      : Config
  /-- The value registers `v0` to `v15`, each `W` bits (R20). -/
  regs     : Vector (BitVec cfg.width) 16
  /-- Which registers have been written since reset (R24): read by no meaning; Safety.lean names `UninitRead` with it
  (log 1). -/
  written  : Vector Bool 16
  /-- FLAGS (R25). -/
  flags    : Flags
  /-- FAULT (R29): `none` is FAULTED = 0, CAUSE = 0, the RUNNING mode; `some c` is FAULTED = 1 with CAUSE `c`. -/
  fault    : Option Cause
  /-- FAULTCMD (R30). -/
  faultCmd : Word
  /-- FAULTLIT (R30). -/
  faultLit : Word
  /-- The data buffer (R50): the bytes written since reset, by strictly rising address. -/
  mem      : List Host.Cell
  /-- The host's operations still to come, the next one first (R34, R401, R428; log 5). -/
  host     : List HostOp
  /-- What the last host operation returned (R401 to R403; log 6). -/
  reply    : Option Reply
  deriving DecidableEq, Repr

/-- The engine of instance `c` right after reset (R38, R420): FLAGS, FAULT, FAULTCMD and FAULTLIT are zero and the
buffer holds no value. The spec gives the registers no reset value: they hold 0 here (DESIGN CHOICE, log 1: unsafe). -/
def State.resetOf (c : Config) : State where
  cfg      := c
  regs     := Vector.replicate 16 (BitVec.ofNat c.width 0)
  written  := Vector.replicate 16 false
  flags    := { ov := false, perr := .ok }
  fault    := none
  faultCmd := 0
  faultLit := 0
  mem      := []
  host     := []
  reply    := none

/-- The machine right after reset, no host operation pending (R421), for the default instance (log 3). -/
def State.reset : State := State.resetOf Config.default

end Sys2Proof.Machine
end

