-- ==== Sys2Proof/Machine/Ops.lean ====
section
/-!
DEFINITION. The named operations over registers, flags, the data buffer and the fault registers
(spec/00_scope.md R11, spec/20_memory.md R52, spec/60_exceptions.md R396), fault entry as one shared operation, and
beside it the only way back from a fault, reset (spec/60_exceptions.md R397, spec/70_reset_and_hazards.md R420).
-/

namespace Sys2Proof.Machine

/-- What a meaning answers. -/
abbrev Result := Host.Outcome State Fault Refusal

/-! ### The value registers (R11, R20) -/

/-- `val(v[r])`, the natural number register `r` holds (R10, R11). -/
def State.val (s : State) (r : Reg) : Nat := (s.regs[r]).toNat

/-- `v[r] <- e`: writes `e mod 2^W` (R11). The register has then been written since reset (R24). -/
def State.setReg (s : State) (r : Reg) (e : Nat) : State :=
  { s with
    regs := s.regs.set r.val (BitVec.ofNat _ e) r.isLt
    written := s.written.set r.val true r.isLt }

/-- `MAX = 2^W - 1` (R10). -/
def State.maxVal (s : State) : Nat := 2 ^ s.cfg.width - 1

/-! ### FLAGS (R25) -/

/-- `FLAGS.OV <- b` (R11). -/
def State.setOv (s : State) (b : Bool) : State := { s with flags := { s.flags with ov := b } }

/-- `FLAGS.PERR <- c` (R11). -/
def State.setPerr (s : State) (c : ParseStatus) : State := { s with flags := { s.flags with perr := c } }

/-! ### The data buffer (R50 to R52) -/

/-- The byte at an address, `none` where nothing has been written since reset (R51). -/
def Memory.read : List Host.Cell → Nat → Option Byte
  | [], _ => none
  | (k, b) :: rest, a => if a = k then some b else Memory.read rest a

/-- The buffer with the byte at `a` set to `b`; the addresses stay strictly rising. -/
def Memory.write : List Host.Cell → Nat → Byte → List Host.Cell
  | [], a, b => [(a, b)]
  | (k, c) :: rest, a, b =>
    if a < k then (a, b) :: (k, c) :: rest
    else if a = k then (a, b) :: rest
    else (k, c) :: Memory.write rest a b

/-- The canonical form: addresses strictly rising. (An unlisted byte has no value, so no entry can equal it.) -/
abbrev Memory.wf (m : List Host.Cell) : Prop := m.Pairwise (fun x y => x.1 < y.1)

/-- `MemRead(a, n)` (R52): the `n` bytes from `a`, or the first of these addresses that holds no value. -/
def Memory.readList (m : List Host.Cell) : Nat → Nat → Except Nat (List Byte)
  | _, 0 => .ok []
  | a, n + 1 =>
    match Memory.read m a with
    | none => .error a
    | some b =>
      match Memory.readList m (a + 1) n with
      | .error e => .error e
      | .ok bs => .ok (b :: bs)

/-- `MemWrite(a, |bs|, bs)` (R52). -/
def Memory.writeList : List Host.Cell → Nat → List Byte → List Host.Cell
  | m, _, [] => m
  | m, a, b :: bs => Memory.writeList (Memory.write m a b) (a + 1) bs

/-- The byte at address `a` of the data buffer, `none` where it holds no value (R51). -/
def State.readByte (s : State) (a : Nat) : Option Byte := Memory.read s.mem a

/-- `MemWrite(a, |bs|, bs)` on the state (R52). -/
def State.writeBytes (s : State) (a : Nat) (bs : List Byte) : State :=
  { s with mem := Memory.writeList s.mem a bs }

/-- `InRange(a, n)`: `a + n <= BUF_BYTES` (R52). -/
def State.inRange (s : State) (a n : Nat) : Bool := decide (a + n ≤ s.cfg.bufBytes)

/-! ### Faults (R29, R390, R396, R397) -/

/-- The code of a cause in `FAULT.CAUSE` (R390). -/
def Cause.code : Cause → Nat
  | .illegalCommand => 1
  | .divideByZero => 2
  | .bufferRange => 3
  | .badLength => 4
  | .badIndex => 5
  | .operandConflict => 6

/-- The engine is STOPPED: `FAULT.FAULTED = 1` (R32). -/
def State.stopped (s : State) : Bool := s.fault.isSome

/-- FAULT as its 16 bits (R29): FAULTED in bit 0, CAUSE in bits 15:8, the rest zero. -/
def State.faultBits (s : State) : BitVec 16 :=
  match s.fault with
  | none => 0
  | some c => BitVec.ofNat 16 (1 + 2 ^ 8 * c.code)

/-- Fault entry (R396), for a command issued as `words` that raises `c`: FAULTED and CAUSE, the first word and the
second word or 0. Nothing else changes. -/
def State.takeFault (s : State) (c : Cause) (words : Word × Option Word) : State :=
  { s with
    fault := some c
    faultCmd := words.1
    faultLit := words.2.getD 0 }

/-- `raise c` in the meaning of command `i` (R11, R393, R396). The words the host issued are `encode i`, since a
command has exactly one encoding (R78, R79; log 8). -/
def raise (c : Cause) (i : Instr) (s : State) : Result := .next (s.takeFault c (encode i))

/-- `Reset()` (R420): every piece of the engine's state at its reset value. It is the only way out of STOPPED (R397).
The instance, the host's list and the last reply are not the engine's state and stay (log 14). -/
def State.restart (s : State) : State :=
  { State.resetOf s.cfg with host := s.host, reply := s.reply }

/-! ### Identification and replies (R33, R402) -/

/-- ID (R33): NLIMB in bits 15:0, NREG = 16 in 23:16, VERSION = 1 in 31:24, BUFSZ in 63:32. -/
def idBits (c : Config) : Word :=
  BitVec.ofNat 64 (c.limbs % 2 ^ 16 + 2 ^ 16 * 16 + 2 ^ 24 * 1 + 2 ^ 32 * (c.bufBytes % 2 ^ 32))

/-- The state after a host operation returned `r`. -/
def State.answer (s : State) (r : Reply) : State := { s with reply := some r }

/-- The state with the host's list set. -/
def State.setHost (s : State) (ops : List HostOp) : State := { s with host := ops }

end Sys2Proof.Machine
end

