-- ==== Sys2Proof/Machine/Operands.lean ====
section
/-!
DEFINITION. Operand forms: limbs and bytes of a value (spec/00_scope.md R9), the width code of NARROW
(spec/41_limb_store.md R106), and the buffer operands with the checks every command that touches the buffer makes
(spec/20_memory.md R52, spec/60_exceptions.md R393).
-/

namespace Sys2Proof.Machine

/-- `x.limb[i] = x[64*i+63 : 64*i]` (R9). -/
def limb (x i : Nat) : Nat := x / 2 ^ (64 * i) % 2 ^ 64

/-- `x` with limb `i` replaced by `l` (R103): the limbs below and above it stay. -/
def setLimb (x i l : Nat) : Nat :=
  x % 2 ^ (64 * i) + 2 ^ (64 * i) * l + 2 ^ (64 * (i + 1)) * (x / 2 ^ (64 * (i + 1)))

/-- Byte `j` of a value, `x[8*j+7 : 8*j]` (R9). -/
def byteOf (x j : Nat) : Byte := BitVec.ofNat 8 (x / 2 ^ (8 * j))

/-- The number of bytes of a value, `8N` (R54). -/
def State.valueBytes (s : State) : Nat := 8 * s.cfg.limbs

/-- The bit width a width code stands for (R74, R106). -/
def narrowBits : NarrowWidth → Nat
  | .w8 => 8
  | .w16 => 16
  | .w32 => 32
  | .w64 => 64
  | .w128 => 128

/-- The buffer read of command `i`, steps 4 and 5 of R393: out of range it raises `BUFFER_RANGE` and touches nothing
(R52); a byte that holds no value is the model outcome `UninitRead` (R51); else `k` goes on with the bytes. -/
def withBytes (addr len : Nat) (i : Instr) (s : State) (k : List Byte → Result) : Result :=
  if s.inRange addr len then
    match Memory.readList s.mem addr len with
    | .error a => .fault (.uninitRead a)
    | .ok bs => k bs
  else raise .bufferRange i s

/-- The buffer write of command `i`, steps 4 and 7 of R393: out of range it raises `BUFFER_RANGE` and writes nothing
(R52); else the bytes are written and `k` makes the command's other writes. -/
def storeBytes (addr : Nat) (bs : List Byte) (i : Instr) (s : State) (k : State → State) : Result :=
  if s.inRange addr bs.length then .next (k (s.writeBytes addr bs))
  else raise .bufferRange i s

/-- The write discipline of the format commands (R301): the text at `addr`, its length to `vRD`, no flag. -/
def storeText (rd : Reg) (addr : Nat) (text : List Byte) (i : Instr) (s : State) : Result :=
  storeBytes addr text i s (fun t => t.setReg rd text.length)

end Sys2Proof.Machine
end

