-- ==== Sys2Proof/Machine/Flags.lean ====
section
/-!
DEFINITION. FLAGS: its 8-bit view (spec/10_state.md R25), every overflow condition that OV reports, and the four
ways a result and its overflow condition are written: wrapping, overflowing, checked, saturating
(spec/42_add_sub.md, spec/43_multiply.md).
-/

namespace Sys2Proof.Machine

/-- The code of a parse result in `FLAGS.PERR` (R25). -/
def ParseStatus.code : ParseStatus → Nat
  | .ok => 0
  | .invalidDigit => 1
  | .overflow => 2
  | .empty => 3

/-- FLAGS as its 8 bits (R25): OV in bit 0, PERR in bits 3:1, bits 7:4 zero. -/
def Flags.bits (f : Flags) : BitVec 8 := BitVec.ofNat 8 (f.ov.toNat + 2 * f.perr.code)

/-- The carry out of limb `N-1` of `a + b` (R140, R143). -/
def ovfAdd (w a b : Nat) : Bool := decide (2 ^ w ≤ a + b)

/-- The borrow out of limb `N-1` of `a - b` (R141, R147). -/
def ovfSub (a b : Nat) : Bool := decide (a < b)

/-- `OVF_MUL`: the full product does not fit in `W` bits (R172). -/
def ovfMul (w a b : Nat) : Bool := decide (2 ^ w ≤ a * b)

/-- `OVF_POW`: the true power does not fit in `W` bits, decided with bounded work as R178 says: a base of 0 or 1 never
overflows, and a base of 2 or more overflows whenever the exponent is at least `W`. -/
def ovfPow (w x e : Nat) : Bool := decide (2 ≤ x) && (decide (w ≤ e) || decide (2 ^ w ≤ x ^ e))

/-- The value does not fit in the target width of `NARROW` (R106). -/
def ovfNarrow (bits x : Nat) : Bool := decide (2 ^ bits ≤ x)

/-- Mode `.W` (R14): the result modulo `2^W`, no flag. -/
def writeWrapping (rd : Reg) (e : Nat) (s : State) : Result := .next (s.setReg rd e)

/-- Mode `.O` (R14): the result modulo `2^W` and OV. -/
def writeOverflowing (rd : Reg) (e : Nat) (ov : Bool) (s : State) : Result := .next ((s.setReg rd e).setOv ov)

/-- Mode `.C` (R144): OV; on overflow the destination is not written. -/
def writeChecked (rd : Reg) (e : Nat) (ov : Bool) (s : State) : Result :=
  if ov then .next (s.setOv true) else .next ((s.setReg rd e).setOv false)

/-- Mode `.S` (R145): the bound `sat` on overflow, no flag. -/
def writeSaturating (rd : Reg) (e : Nat) (ov : Bool) (sat : Nat) (s : State) : Result :=
  .next (s.setReg rd (if ov then sat else e))

end Sys2Proof.Machine
end

