-- ==== Sys2Proof/Machine/AddSub.lean ====
section
/-!
DEFINITION. The multi-precision adder/subtractor (spec/42_add_sub.md R142 to R149). The ripple-carry chains of R140
and R141 stand in Machine/Datapath.lean; their result is what the commands write.
-/

namespace Sys2Proof.Machine

/-- The difference of two W-bit values modulo `2^W`, as a natural number (R146). -/
def wrapSub (w a b : Nat) : Nat := (a + 2 ^ w - b) % 2 ^ w

/-- R142 `ADD.W`. -/
def execAddW (rd rs1 rs2 : Reg) (s : State) : Result := writeWrapping rd (s.val rs1 + s.val rs2) s

/-- R143 `ADD.O`. -/
def execAddO (rd rs1 rs2 : Reg) (s : State) : Result :=
  writeOverflowing rd (s.val rs1 + s.val rs2) (ovfAdd s.cfg.width (s.val rs1) (s.val rs2)) s

/-- R144 `ADD.C`. -/
def execAddC (rd rs1 rs2 : Reg) (s : State) : Result :=
  writeChecked rd (s.val rs1 + s.val rs2) (ovfAdd s.cfg.width (s.val rs1) (s.val rs2)) s

/-- R145 `ADD.S`. -/
def execAddS (rd rs1 rs2 : Reg) (s : State) : Result :=
  writeSaturating rd (s.val rs1 + s.val rs2) (ovfAdd s.cfg.width (s.val rs1) (s.val rs2)) s.maxVal s

/-- R146 `SUB.W`. -/
def execSubW (rd rs1 rs2 : Reg) (s : State) : Result :=
  writeWrapping rd (wrapSub s.cfg.width (s.val rs1) (s.val rs2)) s

/-- R147 `SUB.O`. -/
def execSubO (rd rs1 rs2 : Reg) (s : State) : Result :=
  writeOverflowing rd (wrapSub s.cfg.width (s.val rs1) (s.val rs2)) (ovfSub (s.val rs1) (s.val rs2)) s

/-- R148 `SUB.C`. -/
def execSubC (rd rs1 rs2 : Reg) (s : State) : Result :=
  writeChecked rd (s.val rs1 - s.val rs2) (ovfSub (s.val rs1) (s.val rs2)) s

/-- R149 `SUB.S`. -/
def execSubS (rd rs1 rs2 : Reg) (s : State) : Result :=
  writeSaturating rd (s.val rs1 - s.val rs2) (ovfSub (s.val rs1) (s.val rs2)) 0 s

end Sys2Proof.Machine
end

