-- ==== Sys2Proof/Machine/ByteMove.lean ====
section
/-!
DEFINITION. Byte import and export (spec/46_conversion.md R280 to R283, spec/20_memory.md R54).
-/

namespace Sys2Proof.Machine

/-- The value of bytes whose first is the most significant (R280). -/
def fromBigEndian (bs : List Byte) : Nat := bs.foldl (fun acc b => 256 * acc + b.toNat) 0

/-- The value of bytes whose first is the least significant (R281). -/
def fromLittleEndian (bs : List Byte) : Nat := bs.foldr (fun b acc => b.toNat + 256 * acc) 0

/-- The `n` bytes of `x`, least significant first (R283). -/
def littleEndianBytes (n x : Nat) : List Byte := (List.range n).map (fun j => byteOf x j)

/-- The `n` bytes of `x`, most significant first (R282). -/
def bigEndianBytes (n x : Nat) : List Byte := (List.range n).map (fun j => byteOf x (n - 1 - j))

/-- R280 `LDBE`: `BAD_LENGTH`, then `BUFFER_RANGE`, then the bytes. -/
def execLdbe (rd : Reg) (addr len : BitVec 16) (s : State) : Result :=
  if s.valueBytes < len.toNat then raise .badLength (.ldbe rd addr len) s
  else withBytes addr.toNat len.toNat (.ldbe rd addr len) s fun bs => .next (s.setReg rd (fromBigEndian bs))

/-- R281 `LDLE`. -/
def execLdle (rd : Reg) (addr len : BitVec 16) (s : State) : Result :=
  if s.valueBytes < len.toNat then raise .badLength (.ldle rd addr len) s
  else withBytes addr.toNat len.toNat (.ldle rd addr len) s fun bs => .next (s.setReg rd (fromLittleEndian bs))

/-- R282 `STBE`: all `8N` bytes, most significant first. -/
def execStbe (rs1 : Reg) (addr : BitVec 16) (s : State) : Result :=
  storeBytes addr.toNat (bigEndianBytes s.valueBytes (s.val rs1)) (.stbe rs1 addr) s fun t => t

/-- R283 `STLE`: all `8N` bytes, least significant first. -/
def execStle (rs1 : Reg) (addr : BitVec 16) (s : State) : Result :=
  storeBytes addr.toNat (littleEndianBytes s.valueBytes (s.val rs1)) (.stle rs1 addr) s fun t => t

end Sys2Proof.Machine
end

