-- ==== Sys2Proof/Machine/Divide.lean ====
section
/-!
DEFINITION. The division engine (spec/44_divide.md R205 to R207). Its result is fixed by R200; the datapaths of R202
to R204 stand in Machine/Datapath.lean.
-/

namespace Sys2Proof.Machine

/-- R205 `DIVMOD`: `OPERAND_CONFLICT` before any read, then `DIVIDE_BY_ZERO`; quotient to `vRD`, remainder to `vRD2`. -/
def execDivmod (rd rd2 rs1 rs2 : Reg) (s : State) : Result :=
  if rd = rd2 then raise .operandConflict (.divmod rd rd2 rs1 rs2) s
  else if s.val rs2 = 0 then raise .divideByZero (.divmod rd rd2 rs1 rs2) s
  else .next ((s.setReg rd (s.val rs1 / s.val rs2)).setReg rd2 (s.val rs1 % s.val rs2))

/-- R206 `DIV`. -/
def execDiv (rd rs1 rs2 : Reg) (s : State) : Result :=
  if s.val rs2 = 0 then raise .divideByZero (.div rd rs1 rs2) s
  else .next (s.setReg rd (s.val rs1 / s.val rs2))

/-- R207 `REM`. -/
def execRem (rd rs1 rs2 : Reg) (s : State) : Result :=
  if s.val rs2 = 0 then raise .divideByZero (.rem rd rs1 rs2) s
  else .next (s.setReg rd (s.val rs1 % s.val rs2))

end Sys2Proof.Machine
end

