-- ==== Sys2Proof/Machine/ShiftBit.lean ====
section
/-!
DEFINITION. Shifts, rotations, bitwise logic, bit counting and bit access (spec/45_shift_bit.md R230 to R248). The
limb formulas of R230 stand in Machine/Datapath.lean.
-/

namespace Sys2Proof.Machine

/-- `SHL_W(x, k)` (R230): `x * 2^k mod 2^W`, and 0 for an amount of `W` or more. -/
def shlW (w x k : Nat) : Nat := if w ≤ k then 0 else x * 2 ^ k % 2 ^ w

/-- `SHR_W(x, k)` (R230): `x div 2^k`, and 0 for an amount of `W` or more. -/
def shrW (w x k : Nat) : Nat := if w ≤ k then 0 else x / 2 ^ k

/-- `ROL_W(x, k)` (R231). -/
def rolW (w x k : Nat) : Nat := if k % w = 0 then x else shlW w x (k % w) ||| shrW w x (w - k % w)

/-- `ROR_W(x, k)` (R231). -/
def rorW (w x k : Nat) : Nat := if k % w = 0 then x else shrW w x (k % w) ||| shlW w x (w - k % w)

/-- R232 `SHL`: the amount is the whole value of `vRS2`. -/
def execShl (rd rs1 rs2 : Reg) (s : State) : Result :=
  .next (s.setReg rd (shlW s.cfg.width (s.val rs1) (s.val rs2)))

/-- R233 `SHR`. -/
def execShr (rd rs1 rs2 : Reg) (s : State) : Result :=
  .next (s.setReg rd (shrW s.cfg.width (s.val rs1) (s.val rs2)))

/-- R234 `ROL`. -/
def execRol (rd rs1 rs2 : Reg) (s : State) : Result :=
  .next (s.setReg rd (rolW s.cfg.width (s.val rs1) (s.val rs2)))

/-- R235 `ROR`. -/
def execRor (rd rs1 rs2 : Reg) (s : State) : Result :=
  .next (s.setReg rd (rorW s.cfg.width (s.val rs1) (s.val rs2)))

/-- R236 `SHLI`: the amount is `IMM`. -/
def execShli (rd rs1 : Reg) (imm : BitVec 32) (s : State) : Result :=
  .next (s.setReg rd (shlW s.cfg.width (s.val rs1) imm.toNat))

/-- R237 `SHRI`. -/
def execShri (rd rs1 : Reg) (imm : BitVec 32) (s : State) : Result :=
  .next (s.setReg rd (shrW s.cfg.width (s.val rs1) imm.toNat))

/-- R238 `ROLI`. -/
def execRoli (rd rs1 : Reg) (imm : BitVec 32) (s : State) : Result :=
  .next (s.setReg rd (rolW s.cfg.width (s.val rs1) imm.toNat))

/-- R239 `RORI`. -/
def execRori (rd rs1 : Reg) (imm : BitVec 32) (s : State) : Result :=
  .next (s.setReg rd (rorW s.cfg.width (s.val rs1) imm.toNat))

/-- R240 `AND`. -/
def execAnd (rd rs1 rs2 : Reg) (s : State) : Result := .next (s.setReg rd (s.val rs1 &&& s.val rs2))

/-- R241 `OR`. -/
def execOr (rd rs1 rs2 : Reg) (s : State) : Result := .next (s.setReg rd (s.val rs1 ||| s.val rs2))

/-- R242 `XOR`. -/
def execXor (rd rs1 rs2 : Reg) (s : State) : Result := .next (s.setReg rd (s.val rs1 ^^^ s.val rs2))

/-- R243 `NOT`: `MAX - val`. -/
def execNot (rd rs1 : Reg) (s : State) : Result := .next (s.setReg rd (s.maxVal - s.val rs1))

/-- `bl(x)`, the least `b` with `x < 2^b` (R244). -/
def bitLen (x : Nat) : Nat := if x = 0 then 0 else x.log2 + 1

/-- `CLZ_W(x)` (R244). -/
def clzW (w x : Nat) : Nat := w - bitLen x

/-- The trailing zero bits of `x`, at most `k` of them counted. -/
def countTrailing : Nat → Nat → Nat
  | 0, _ => 0
  | k + 1, x => if x % 2 = 1 then 0 else countTrailing k (x / 2) + 1

/-- `CTZ_W(x)` (R244): `W` for zero, else the greatest `t` with `2^t` dividing `x`. -/
def ctzW (w x : Nat) : Nat := countTrailing w x

/-- R245 `CLZ`. -/
def execClz (rd rs1 : Reg) (s : State) : Result := .next (s.setReg rd (clzW s.cfg.width (s.val rs1)))

/-- R246 `CTZ`. -/
def execCtz (rd rs1 : Reg) (s : State) : Result := .next (s.setReg rd (ctzW s.cfg.width (s.val rs1)))

/-- R247 `BITS`. -/
def execBits (rd rs1 : Reg) (s : State) : Result := .next (s.setReg rd (bitLen (s.val rs1)))

/-- R248 `BIT`: one bit, zero-extended; `BAD_INDEX` when there is no such bit. -/
def execBit (rd rs1 : Reg) (imm : BitVec 32) (s : State) : Result :=
  if s.cfg.width ≤ imm.toNat then raise .badIndex (.bit rd rs1 imm) s
  else .next (s.setReg rd (s.val rs1 / 2 ^ imm.toNat % 2))

end Sys2Proof.Machine
end

