-- ==== Sys2Proof/Machine/Float.lean ====
section
/-!
DEFINITION. The two lossy binary64 conversions (spec/46_conversion.md R310 to R313). Patterns are natural numbers
below `2^64`, held in limb 0 of a register (R310; the spec marks the layout as general knowledge, log 17).
-/

namespace Sys2Proof.Machine

/-- `F2U` of the pattern `b` on an instance of width `w` (R311). -/
def f64ToUint (w b : Nat) : Nat :=
  let sign := b / 2 ^ 63 % 2
  let e := b / 2 ^ 52 % 2 ^ 11
  let f := b % 2 ^ 52
  if e = 0x7FF ∧ f ≠ 0 then 0
  else if sign = 1 then 0
  else if e = 0x7FF then 2 ^ w - 1
  else if e = 0 then 0
  else
    let m := 2 ^ 52 + f
    let t := if 1075 ≤ e then m * 2 ^ (e - 1075) else m / 2 ^ (1075 - e)
    if 2 ^ w - 1 < t then 2 ^ w - 1 else t

/-- R311 `F2U`: the higher limbs of the source are ignored. -/
def execF2u (rd rs1 : Reg) (s : State) : Result :=
  .next (s.setReg rd (f64ToUint s.cfg.width (limb (s.val rs1) 0)))

/-- The pattern of the greatest finite binary64 value (R313). -/
def f64MaxFinite : Nat := 0x7FEFFFFFFFFFFFFF

/-- The 53 most significant bits of a non-zero `x`, the first of them bit 52 (R310). -/
def f64Significand (x : Nat) : Nat :=
  if bitLen x ≤ 53 then x * 2 ^ (53 - bitLen x) else x / 2 ^ (bitLen x - 53)

/-- The pattern of the greatest finite binary64 value `<= x` (R310, R313): biased exponent `bl(x) - 1 + 1023`, and the
significand without its leading bit. -/
def f64Below (x : Nat) : Nat :=
  if x = 0 then 0
  else if 1024 < bitLen x then f64MaxFinite
  else (bitLen x + 1022) * 2 ^ 52 + (f64Significand x - 2 ^ 52)

/-- Binary64 represents `x` exactly: no bit is below the 53 most significant, and `x` is below `2^1024` (R310). -/
def f64Exact (x : Nat) : Bool := decide (bitLen x ≤ 1024) && x % 2 ^ (bitLen x - 53) == 0

/-- `F64_ROUND(x)` (R313): the exact pattern where there is one, else one of the two adjacent patterns, the choice
left open. The pattern after a finite one is the next greater value, and after the greatest finite one +inf. -/
def f64Round (c : Config) (x : Nat) : Nat :=
  if f64Exact x then f64Below x
  else if c.f64RoundUp x then f64Below x + 1
  else f64Below x

/-- R312 `U2F`. -/
def execU2f (rd rs1 : Reg) (s : State) : Result :=
  .next (s.setReg rd (if s.val rs1 < 2 ^ 53 then f64Below (s.val rs1) else f64Round s.cfg (s.val rs1)))

end Sys2Proof.Machine
end

