-- ==== Sys2Proof/Machine/Isqrt.lean ====
section
/-!
DEFINITION. The integer square-root unit (spec/47_isqrt.md R350, R352).
-/

namespace Sys2Proof.Machine

/-- The loop of `IsqrtRec` (R350), `k` steps of it: `bit` is divided by 4 at each step. -/
def isqrtLoop : Nat → Nat → Nat → Nat → Nat
  | 0, _, _, res => res
  | k + 1, bit, rem, res =>
    if res + bit ≤ rem then isqrtLoop k (bit / 4) (rem - (res + bit)) (res / 2 + bit)
    else isqrtLoop k (bit / 4) rem (res / 2)

/-- `IsqrtRec(x)` (R350): `bit` starts at the largest power of four not above `x`, and the loop runs
`(BITS(x) - 1) div 2 + 1` times, until `bit` is zero. -/
def isqrtRec (x : Nat) : Nat :=
  if x ≤ 1 then x
  else isqrtLoop ((bitLen x - 1) / 2 + 1) (2 ^ (2 * ((bitLen x - 1) / 2))) x 0

/-- R352 `ISQRT`. -/
def execIsqrt (rd rs1 : Reg) (s : State) : Result := .next (s.setReg rd (isqrtRec (s.val rs1)))

end Sys2Proof.Machine
end

