-- ==== Sys2Proof/Machine/LimbStore.lean ====
section
/-!
DEFINITION. The limb store: moves, construction, native conversion, flag access and the comparator
(spec/41_limb_store.md R100 to R116).
-/

namespace Sys2Proof.Machine

/-- R100 `NOP`: nothing. -/
def execNop (s : State) : Result := .next s

/-- R101 `MOV`. -/
def execMov (rd rs1 : Reg) (s : State) : Result := .next (s.setReg rd (s.val rs1))

/-- R102 `LDI`: the immediate, zero-extended. -/
def execLdi (rd : Reg) (imm : BitVec 32) (s : State) : Result := .next (s.setReg rd imm.toNat)

/-- R103 `LDL`: limb `IMM` replaced by the literal word; `BAD_INDEX` when there is no such limb. -/
def execLdl (rd rs1 : Reg) (imm : BitVec 32) (lit : Word) (s : State) : Result :=
  if s.cfg.limbs ≤ imm.toNat then raise .badIndex (.ldl rd rs1 imm lit) s
  else .next (s.setReg rd (setLimb (s.val rs1) imm.toNat lit.toNat))

/-- R104 `LDMAX`. -/
def execLdmax (rd : Reg) (s : State) : Result := .next (s.setReg rd s.maxVal)

/-- R105 `GETL`: one limb, zero-extended; `BAD_INDEX` when there is no such limb. -/
def execGetl (rd rs1 : Reg) (imm : BitVec 32) (s : State) : Result :=
  if s.cfg.limbs ≤ imm.toNat then raise .badIndex (.getl rd rs1 imm) s
  else .next (s.setReg rd (limb (s.val rs1) imm.toNat))

/-- R106 `NARROW`: the low bits, and OV iff bits are lost. -/
def execNarrow (rd rs1 : Reg) (w : NarrowWidth) (s : State) : Result :=
  writeOverflowing rd (s.val rs1 % 2 ^ narrowBits w) (ovfNarrow (narrowBits w) (s.val rs1)) s

/-- R107 `RDF`: FLAGS, zero-extended. -/
def execRdf (rd : Reg) (s : State) : Result := .next (s.setReg rd s.flags.bits.toNat)

/-- R108 `CLRF`: OV and PERR to 0. -/
def execClrf (s : State) : Result := .next ((s.setOv false).setPerr .ok)

/-- A comparison's result, 1 or 0, written to `vRD` (R110). -/
def writeTruth (rd : Reg) (b : Bool) (s : State) : Result := .next (s.setReg rd b.toNat)

/-- R110 `CMP.EQ`. -/
def execCmpEq (rd rs1 rs2 : Reg) (s : State) : Result := writeTruth rd (s.val rs1 == s.val rs2) s

/-- R111 `CMP.NE`. -/
def execCmpNe (rd rs1 rs2 : Reg) (s : State) : Result := writeTruth rd (s.val rs1 != s.val rs2) s

/-- R112 `CMP.LT`. -/
def execCmpLt (rd rs1 rs2 : Reg) (s : State) : Result := writeTruth rd (decide (s.val rs1 < s.val rs2)) s

/-- R113 `CMP.LE`. -/
def execCmpLe (rd rs1 rs2 : Reg) (s : State) : Result := writeTruth rd (decide (s.val rs1 ≤ s.val rs2)) s

/-- R114 `CMP.GT`. -/
def execCmpGt (rd rs1 rs2 : Reg) (s : State) : Result := writeTruth rd (decide (s.val rs2 < s.val rs1)) s

/-- R115 `CMP.GE`. -/
def execCmpGe (rd rs1 rs2 : Reg) (s : State) : Result := writeTruth rd (decide (s.val rs2 ≤ s.val rs1)) s

/-- R116 `ISZ`: every limb is zero, so the value is. -/
def execIsz (rd rs1 : Reg) (s : State) : Result := writeTruth rd (s.val rs1 == 0) s

end Sys2Proof.Machine
end

