-- ==== Sys2Proof/Machine/Multiply.lean ====
section
/-!
DEFINITION. The multiplier and the power unit (spec/43_multiply.md R173 to R180). The schoolbook datapaths of R170
and R171 stand in Machine/Datapath.lean.
-/

namespace Sys2Proof.Machine

/-- R173 `MUL.W`. -/
def execMulW (rd rs1 rs2 : Reg) (s : State) : Result := writeWrapping rd (s.val rs1 * s.val rs2) s

/-- R174 `MUL.O`. -/
def execMulO (rd rs1 rs2 : Reg) (s : State) : Result :=
  writeOverflowing rd (s.val rs1 * s.val rs2) (ovfMul s.cfg.width (s.val rs1) (s.val rs2)) s

/-- R175 `MUL.C`. -/
def execMulC (rd rs1 rs2 : Reg) (s : State) : Result :=
  writeChecked rd (s.val rs1 * s.val rs2) (ovfMul s.cfg.width (s.val rs1) (s.val rs2)) s

/-- R176 `MUL.S`. -/
def execMulS (rd rs1 rs2 : Reg) (s : State) : Result :=
  writeSaturating rd (s.val rs1 * s.val rs2) (ovfMul s.cfg.width (s.val rs1) (s.val rs2)) s.maxVal s

/-- R177 `MULW`: the low half of the full product to `vRD`, the high half to `vRD2`; `OPERAND_CONFLICT` when they are
one register. -/
def execMulWide (rd rd2 rs1 rs2 : Reg) (s : State) : Result :=
  if rd = rd2 then raise .operandConflict (.mulWide rd rd2 rs1 rs2) s
  else
    .next ((s.setReg rd (s.val rs1 * s.val rs2)).setReg rd2 (s.val rs1 * s.val rs2 / 2 ^ s.cfg.width))

/-- `x^e mod m` for an exponent below `2^k`, by repeated squaring (R178 leaves the datapath free). -/
def powMod (m : Nat) : Nat → Nat → Nat → Nat
  | 0, _, _ => 1 % m
  | k + 1, x, e =>
    if e % 2 = 1 then x * powMod m k (x * x % m) (e / 2) % m else powMod m k (x * x % m) (e / 2)

/-- R179 `POW.W`. -/
def execPowW (rd rs1 rs2 : Reg) (s : State) : Result :=
  writeWrapping rd (powMod (2 ^ s.cfg.width) s.cfg.width (s.val rs1) (s.val rs2)) s

/-- R180 `POW.O`. -/
def execPowO (rd rs1 rs2 : Reg) (s : State) : Result :=
  writeOverflowing rd (powMod (2 ^ s.cfg.width) s.cfg.width (s.val rs1) (s.val rs2))
    (ovfPow s.cfg.width (s.val rs1) (s.val rs2)) s

end Sys2Proof.Machine
end

