-- ==== Sys2Proof/Machine/Text.lean ====
section
/-!
DEFINITION. The text parser and formatter (spec/46_conversion.md R290 to R304). Characters are ASCII bytes
(spec/20_memory.md R56; the spec marks the codes as general knowledge, log 17).
-/

namespace Sys2Proof.Machine

/-- The digit a byte stands for in some radix: `0`-`9`, `a`-`z`, `A`-`Z` (R290). -/
def digitOfByte (c : Byte) : Option Nat :=
  if 0x30 ≤ c.toNat ∧ c.toNat ≤ 0x39 then some (c.toNat - 0x30)
  else if 0x61 ≤ c.toNat ∧ c.toNat ≤ 0x7A then some (c.toNat - 0x61 + 10)
  else if 0x41 ≤ c.toNat ∧ c.toNat ≤ 0x5A then some (c.toNat - 0x41 + 10)
  else none

/-- `DigitVal(c, b)` (R290): `none` is INVALID. -/
def digitVal (c : Byte) (b : Nat) : Option Nat :=
  match digitOfByte c with
  | none => none
  | some d => if d < b then some d else none

/-- The loop of `Parse` (R291), from the value so far; errors are taken in reading order. -/
def parseFrom (w b : Nat) : Nat → List Byte → Except ParseStatus Nat
  | value, [] => .ok value
  | value, c :: cs =>
    match digitVal c b with
    | none => .error .invalidDigit
    | some d => if 2 ^ w ≤ value * b + d then .error .overflow else parseFrom w b (value * b + d) cs

/-- `Parse(ds, b)` (R291). -/
def parseText (w b : Nat) : List Byte → Except ParseStatus Nat
  | [] => .error .empty
  | c :: cs => parseFrom w b 0 (c :: cs)

/-- The optional `0x` prefix of `PARSEHEX` taken off (R293). -/
def stripHexPrefix : List Byte → List Byte
  | c0 :: c1 :: rest => if c0 = 0x30 ∧ c1 = 0x78 then rest else c0 :: c1 :: rest
  | ds => ds

/-- The end of a parse command (R292): value and PERR = 0, or the error code alone. -/
def writeParse (rd : Reg) (k : Except ParseStatus Nat) (s : State) : Result :=
  match k with
  | .ok x => .next ((s.setReg rd x).setPerr .ok)
  | .error e => .next (s.setPerr e)

/-- R292 `PARSEDEC`. -/
def execParsedec (rd : Reg) (addr len : BitVec 16) (s : State) : Result :=
  withBytes addr.toNat len.toNat (.parsedec rd addr len) s fun ds =>
    writeParse rd (parseText s.cfg.width 10 ds) s

/-- R293 `PARSEHEX`. -/
def execParsehex (rd : Reg) (addr len : BitVec 16) (s : State) : Result :=
  withBytes addr.toNat len.toNat (.parsehex rd addr len) s fun ds =>
    writeParse rd (parseText s.cfg.width 16 (stripHexPrefix ds)) s

/-- R294 `PARSER`. -/
def execParser (rd : Reg) (addr len : BitVec 16) (radix : Nat) (s : State) : Result :=
  withBytes addr.toNat len.toNat (.parser rd addr len radix) s fun ds =>
    writeParse rd (parseText s.cfg.width radix ds) s

/-- `DigitChar(d, upper)` (R300). -/
def digitChar (upper : Bool) (d : Nat) : Byte :=
  BitVec.ofNat 8 (if d < 10 then 0x30 + d else (if upper then 0x41 else 0x61) + d - 10)

/-- The loop of `Digits` (R300), at most `k` digits, put before the text so far. -/
def digitsLoop (b : Nat) (upper : Bool) : Nat → Nat → List Byte → List Byte
  | 0, _, text => text
  | k + 1, x, text =>
    if x = 0 then text else digitsLoop b upper k (x / b) (digitChar upper (x % b) :: text)

/-- `Digits(x, b, upper)` of a value below `2^w` (R300): it has at most `w` digits in any radix. -/
def digits (w x b : Nat) (upper : Bool) : List Byte :=
  if x = 0 then [0x30] else digitsLoop b upper w x []

/-- R302 `FMTDEC`. -/
def execFmtdec (rd rs1 : Reg) (addr : BitVec 16) (s : State) : Result :=
  storeText rd addr.toNat (digits s.cfg.width (s.val rs1) 10 false) (.fmtdec rd rs1 addr) s

/-- The text of `FMTHEX` (R303): the prefix `x` is lower-case in every form. -/
def hexText (w x : Nat) (o : HexOptions) : List Byte :=
  if o.zeroX then 0x30 :: 0x78 :: digits w x 16 o.upper else digits w x 16 o.upper

/-- R303 `FMTHEX`. -/
def execFmthex (rd rs1 : Reg) (addr : BitVec 16) (opts : HexOptions) (s : State) : Result :=
  storeText rd addr.toNat (hexText s.cfg.width (s.val rs1) opts) (.fmthex rd rs1 addr opts) s

/-- R304 `FMTR`. -/
def execFmtr (rd rs1 : Reg) (addr : BitVec 16) (radix : Nat) (s : State) : Result :=
  storeText rd addr.toNat (digits s.cfg.width (s.val rs1) radix false) (.fmtr rd rs1 addr radix) s

end Sys2Proof.Machine
end

