-- ==== Sys2Proof/Machine/Dispatch.lean ====
section
/-!
DEFINITION. The meaning of every command (spec/30_encoding.md R77): one arm per constructor of Instr.
-/

namespace Sys2Proof.Machine

def exec (i : Instr) (s : State) : Host.Outcome State Fault Refusal :=
  match i with
  | .nop => Sys2Proof.Machine.execNop s
  | .mov rd rs1 => Sys2Proof.Machine.execMov rd rs1 s
  | .ldi rd imm => Sys2Proof.Machine.execLdi rd imm s
  | .ldl rd rs1 imm lit => Sys2Proof.Machine.execLdl rd rs1 imm lit s
  | .ldmax rd => Sys2Proof.Machine.execLdmax rd s
  | .getl rd rs1 imm => Sys2Proof.Machine.execGetl rd rs1 imm s
  | .narrow rd rs1 w => Sys2Proof.Machine.execNarrow rd rs1 w s
  | .rdf rd => Sys2Proof.Machine.execRdf rd s
  | .clrf => Sys2Proof.Machine.execClrf s
  | .cmpEq rd rs1 rs2 => Sys2Proof.Machine.execCmpEq rd rs1 rs2 s
  | .cmpNe rd rs1 rs2 => Sys2Proof.Machine.execCmpNe rd rs1 rs2 s
  | .cmpLt rd rs1 rs2 => Sys2Proof.Machine.execCmpLt rd rs1 rs2 s
  | .cmpLe rd rs1 rs2 => Sys2Proof.Machine.execCmpLe rd rs1 rs2 s
  | .cmpGt rd rs1 rs2 => Sys2Proof.Machine.execCmpGt rd rs1 rs2 s
  | .cmpGe rd rs1 rs2 => Sys2Proof.Machine.execCmpGe rd rs1 rs2 s
  | .isz rd rs1 => Sys2Proof.Machine.execIsz rd rs1 s
  | .addW rd rs1 rs2 => Sys2Proof.Machine.execAddW rd rs1 rs2 s
  | .addO rd rs1 rs2 => Sys2Proof.Machine.execAddO rd rs1 rs2 s
  | .addC rd rs1 rs2 => Sys2Proof.Machine.execAddC rd rs1 rs2 s
  | .addS rd rs1 rs2 => Sys2Proof.Machine.execAddS rd rs1 rs2 s
  | .subW rd rs1 rs2 => Sys2Proof.Machine.execSubW rd rs1 rs2 s
  | .subO rd rs1 rs2 => Sys2Proof.Machine.execSubO rd rs1 rs2 s
  | .subC rd rs1 rs2 => Sys2Proof.Machine.execSubC rd rs1 rs2 s
  | .subS rd rs1 rs2 => Sys2Proof.Machine.execSubS rd rs1 rs2 s
  | .mulW rd rs1 rs2 => Sys2Proof.Machine.execMulW rd rs1 rs2 s
  | .mulO rd rs1 rs2 => Sys2Proof.Machine.execMulO rd rs1 rs2 s
  | .mulC rd rs1 rs2 => Sys2Proof.Machine.execMulC rd rs1 rs2 s
  | .mulS rd rs1 rs2 => Sys2Proof.Machine.execMulS rd rs1 rs2 s
  | .mulWide rd rd2 rs1 rs2 => Sys2Proof.Machine.execMulWide rd rd2 rs1 rs2 s
  | .powW rd rs1 rs2 => Sys2Proof.Machine.execPowW rd rs1 rs2 s
  | .powO rd rs1 rs2 => Sys2Proof.Machine.execPowO rd rs1 rs2 s
  | .divmod rd rd2 rs1 rs2 => Sys2Proof.Machine.execDivmod rd rd2 rs1 rs2 s
  | .div rd rs1 rs2 => Sys2Proof.Machine.execDiv rd rs1 rs2 s
  | .rem rd rs1 rs2 => Sys2Proof.Machine.execRem rd rs1 rs2 s
  | .shl rd rs1 rs2 => Sys2Proof.Machine.execShl rd rs1 rs2 s
  | .shr rd rs1 rs2 => Sys2Proof.Machine.execShr rd rs1 rs2 s
  | .rol rd rs1 rs2 => Sys2Proof.Machine.execRol rd rs1 rs2 s
  | .ror rd rs1 rs2 => Sys2Proof.Machine.execRor rd rs1 rs2 s
  | .shli rd rs1 imm => Sys2Proof.Machine.execShli rd rs1 imm s
  | .shri rd rs1 imm => Sys2Proof.Machine.execShri rd rs1 imm s
  | .roli rd rs1 imm => Sys2Proof.Machine.execRoli rd rs1 imm s
  | .rori rd rs1 imm => Sys2Proof.Machine.execRori rd rs1 imm s
  | .bitAnd rd rs1 rs2 => Sys2Proof.Machine.execAnd rd rs1 rs2 s
  | .bitOr rd rs1 rs2 => Sys2Proof.Machine.execOr rd rs1 rs2 s
  | .bitXor rd rs1 rs2 => Sys2Proof.Machine.execXor rd rs1 rs2 s
  | .bitNot rd rs1 => Sys2Proof.Machine.execNot rd rs1 s
  | .clz rd rs1 => Sys2Proof.Machine.execClz rd rs1 s
  | .ctz rd rs1 => Sys2Proof.Machine.execCtz rd rs1 s
  | .bits rd rs1 => Sys2Proof.Machine.execBits rd rs1 s
  | .bit rd rs1 imm => Sys2Proof.Machine.execBit rd rs1 imm s
  | .ldbe rd addr len => Sys2Proof.Machine.execLdbe rd addr len s
  | .ldle rd addr len => Sys2Proof.Machine.execLdle rd addr len s
  | .stbe rs1 addr => Sys2Proof.Machine.execStbe rs1 addr s
  | .stle rs1 addr => Sys2Proof.Machine.execStle rs1 addr s
  | .parsedec rd addr len => Sys2Proof.Machine.execParsedec rd addr len s
  | .parsehex rd addr len => Sys2Proof.Machine.execParsehex rd addr len s
  | .parser rd addr len radix => Sys2Proof.Machine.execParser rd addr len radix s
  | .fmtdec rd rs1 addr => Sys2Proof.Machine.execFmtdec rd rs1 addr s
  | .fmthex rd rs1 addr opts => Sys2Proof.Machine.execFmthex rd rs1 addr opts s
  | .fmtr rd rs1 addr radix => Sys2Proof.Machine.execFmtr rd rs1 addr radix s
  | .f2u rd rs1 => Sys2Proof.Machine.execF2u rd rs1 s
  | .u2f rd rs1 => Sys2Proof.Machine.execU2f rd rs1 s
  | .isqrt rd rs1 => Sys2Proof.Machine.execIsqrt rd rs1 s

end Sys2Proof.Machine
end

