-- ==== Sys2Proof/Machine/Issue.lean ====
section
/-!
DEFINITION. The host's operations (spec/60_exceptions.md R401, R402): issuing a command, and reading and writing the
engine's state between commands. Each returns a reply, kept in `State.reply` (log 6).
-/

namespace Sys2Proof.Machine

/-- What the issue operation returns once its command has run: OK, or FAULT(c) when the command raised `c` (R401). A
command runs only in RUNNING, so the fault register tells. -/
def issueReply (s : State) : Reply :=
  match s.fault with
  | none => .ok
  | some c => .faulted c

/-- `Execute(words)` (R393): an ILLEGAL command raises `ILLEGAL_COMMAND`, which records the words as issued (R390);
any other command has its meaning. -/
def execute (w : Word) (lit : Option Word) (s : State) : Result :=
  match decode w lit with
  | .error _ => .next (s.takeFault .illegalCommand (w, lit))
  | .ok i => exec i s

/-- A result with the reply of the issue operation. -/
def withIssueReply : Result → Result
  | .next t => .next (t.answer (issueReply t))
  | .fault f => .fault f
  | .refused r => .refused r

/-- `Issue(words)` (R401): in STOPPED the command is discarded before it is decoded (R31). -/
def issue (w : Word) (lit : Option Word) (s : State) : Result :=
  if s.stopped then .next (s.answer .discarded)
  else withIssueReply (execute w lit s)

/-- `ReadBuf(a, n)` (R402). -/
def hostReadBuf (a n : Nat) (s : State) : Result :=
  if s.inRange a n then
    match Memory.readList s.mem a n with
    | .error e => .fault (.uninitRead e)
    | .ok bs => .next (s.answer (.bytes bs))
  else .next (s.answer .refusedAccess)

/-- `WriteBuf(a, n, bytes)` (R402). -/
def hostWriteBuf (a : Nat) (bs : List Byte) (s : State) : Result :=
  if s.inRange a bs.length then .next ((s.writeBytes a bs).answer .nothing)
  else .next (s.answer .refusedAccess)

/-- One host operation (R401, R402); all but `issue` work alike in RUNNING and in STOPPED. -/
def hostStep (op : HostOp) (s : State) : Result :=
  match op with
  | .issue w lit => issue w lit s
  | .readReg r => .next (s.answer (.value (s.val r)))
  | .writeReg r x => .next ((s.setReg r x).answer .nothing)
  | .readBuf a n => hostReadBuf a n s
  | .writeBuf a bs => hostWriteBuf a bs s
  | .readFlags => .next (s.answer (.flags s.flags.bits))
  | .readFault => .next (s.answer (.fault s.faultBits))
  | .readFaultCmd => .next (s.answer (.word s.faultCmd))
  | .readFaultLit => .next (s.answer (.word s.faultLit))
  | .readId => .next (s.answer (.word (idBits s.cfg)))
  | .reset => .next (s.restart.answer .nothing)

end Sys2Proof.Machine
end

