-- ==== Sys2Proof/Machine/Step.lean ====
section
/-!
DEFINITION. One step: the host's next operation, performed whole (spec/60_exceptions.md R400, R401). The engine has
no program counter (spec/10_state.md R34): what comes next is the front of the host's list (log 5).
-/

namespace Sys2Proof.Machine

/-- One step. With no host operation to come the engine holds its state and does nothing (R410, R421; log 7). -/
def step (s : State) : Host.Outcome State Fault Refusal :=
  match s.host with
  | [] => .next s
  | op :: rest => hostStep op (s.setHost rest)

/-- `s` with the instruction whose bits the opcode table numbers as `w` as the host's next operation, one issue of its
words (R401, log 5). -/
def State.withFetchWord (s : State) (nbits w : Nat) : State :=
  s.setHost (.issue (tableWords nbits w).1 (tableWords nbits w).2 :: s.host)

end Sys2Proof.Machine
end

