-- ==== Sys2Proof/Machine/Datapath.lean ====
section
/-!
DEFINITION. The datapaths whose pseudocode the spec gives, limb by limb: the comparator (spec/41_limb_store.md R109),
the ripple-carry adder and subtractor (spec/42_add_sub.md R140, R141), the schoolbook multipliers
(spec/43_multiply.md R170, R171), word, single-limb and multi-limb division (spec/44_divide.md R202 to R204) and the
limb shifts (spec/45_shift_bit.md R230). Their working storage exists only during one command (spec/10_state.md R36),
so no meaning holds them: the meanings write the results the spec fixes, and the statements relate the two (log 15).
-/

namespace Sys2Proof.Machine

/-- The `n` limbs of a value, least significant first (R9, R20). -/
def limbsOf (n x : Nat) : List Word := (List.range n).map fun i => BitVec.ofNat 64 (limb x i)

/-- The value of limbs, least significant first (R10). -/
def ofLimbs (ls : List Word) : Nat := ls.foldr (fun l acc => l.toNat + 2 ^ 64 * acc) 0

/-! ### Comparator (R109) -/

/-- Limbs compared from the most significant, the first that differ deciding. -/
def compareMostFirst : List Word → List Word → Ordering
  | a :: as, b :: bs => if a.toNat < b.toNat then .lt else if b.toNat < a.toNat then .gt else compareMostFirst as bs
  | _, _ => .eq

/-- The comparator on limbs given least significant first. -/
def compareLimbs (a b : List Word) : Ordering := compareMostFirst a.reverse b.reverse

/-! ### Adder and subtractor (R140, R141) -/

/-- The ripple-carry chain from carry `c`: the sum's limbs and the carry out. -/
def rippleAdd : Nat → List Word → List Word → List Word × Nat
  | c, a :: as, b :: bs =>
    let t := a.toNat + b.toNat + c
    let rest := rippleAdd (t / 2 ^ 64) as bs
    (BitVec.ofNat 64 t :: rest.1, rest.2)
  | c, _, _ => ([], c)

/-- The chain with borrows, from borrow `c`: the difference's limbs and the borrow out. -/
def rippleSub : Nat → List Word → List Word → List Word × Nat
  | c, a :: as, b :: bs =>
    let rest := rippleSub (if a.toNat < b.toNat + c then 1 else 0) as bs
    (BitVec.ofNat 64 (a.toNat + 2 ^ 64 - b.toNat - c) :: rest.1, rest.2)
  | c, _, _ => ([], c)

/-! ### Multipliers (R170, R171) -/

/-- One row of the narrow multiplier: `ai` times the limbs `bs`, added into the result limbs from carry `c`, as far as
there are result limbs; the carry out of the last one is discarded. -/
def mulRowNarrow (ai : Nat) : Nat → List Word → List Word → List Word
  | c, b :: bs, r :: rs =>
    let t := r.toNat + ai * b.toNat + c
    BitVec.ofNat 64 t :: mulRowNarrow ai (t / 2 ^ 64) bs rs
  | _, _, rs => rs

/-- The narrow multiplier: a row for each limb of `a`, each one limb further up. -/
def mulNarrowFrom (bs : List Word) : List Word → List Word → List Word
  | a :: as, rs =>
    match mulRowNarrow a.toNat 0 bs rs with
    | [] => []
    | r :: rest => r :: mulNarrowFrom bs as rest
  | [], rs => rs

/-- R170: the low `n` limbs of the product. -/
def mulNarrow (n : Nat) (as bs : List Word) : List Word := mulNarrowFrom bs as (List.replicate n 0)

/-- One row of the widening multiplier: as the narrow one, and the carry out of the row is the next result limb. -/
def mulRowWide (ai : Nat) : Nat → List Word → List Word → List Word
  | c, b :: bs, r :: rs =>
    let t := r.toNat + ai * b.toNat + c
    BitVec.ofNat 64 t :: mulRowWide ai (t / 2 ^ 64) bs rs
  | c, [], _ :: rs => BitVec.ofNat 64 c :: rs
  | _, _, [] => []

/-- The widening multiplier's rows. -/
def mulWideFrom (bs : List Word) : List Word → List Word → List Word
  | a :: as, rs =>
    match mulRowWide a.toNat 0 bs rs with
    | [] => []
    | r :: rest => r :: mulWideFrom bs as rest
  | [], rs => rs

/-- R171: all `2n` limbs of the product of two `n`-limb values. -/
def mulWideLimbs (n : Nat) (as bs : List Word) : List Word := mulWideFrom bs as (List.replicate (2 * n) 0)

/-! ### Division (R202 to R204) -/

/-- `DivWord(hi, lo, d)` (R202). -/
def divWord (hi lo d : Nat) : Nat × Nat := ((hi * 2 ^ 64 + lo) / d, (hi * 2 ^ 64 + lo) % d)

/-- The single-limb path (R203), over the dividend's limbs from the most significant: the quotient's limbs in the same
order, and the remainder. -/
def divSingle (d : Nat) : Nat → List Word → List Word × Nat
  | r, [] => ([], r)
  | r, x :: xs =>
    let qr := divWord r x.toNat d
    let rest := divSingle d qr.2 xs
    (BitVec.ofNat 64 qr.1 :: rest.1, rest.2)

/-- The correction loop of R204: at most `k` times, while `rhat < 2^64` and the estimate is seen to be too large. -/
def correctDigit (v1 v2 u2 : Nat) : Nat → Nat → Nat → Nat
  | 0, qhat, _ => qhat
  | k + 1, qhat, rhat =>
    if rhat < 2 ^ 64 ∧ rhat * 2 ^ 64 + u2 < qhat * v2 then correctDigit v1 v2 u2 k (qhat - 1) (rhat + v1)
    else qhat

/-- One quotient digit of R204 at position `j`, for a normalized divisor `v` of `n` limbs: the digit, and the dividend
with limbs `j .. j+n` reduced. -/
def divStep (n v j u : Nat) : Nat × Nat :=
  let num := limb u (j + n) * 2 ^ 64 + limb u (j + n - 1)
  let v1 := limb v (n - 1)
  let qhat0 := min (num / v1) (2 ^ 64 - 1)
  let qhat := correctDigit v1 (limb v (n - 2)) (limb u (j + n - 2)) 2 qhat0 (num - qhat0 * v1)
  let part := u / 2 ^ (64 * j) % 2 ^ (64 * (n + 1))
  let kept := u - 2 ^ (64 * j) * part
  if part < qhat * v then (qhat - 1, kept + 2 ^ (64 * j) * (part + v - qhat * v))
  else (qhat, kept + 2 ^ (64 * j) * (part - qhat * v))

/-- The digits at positions `j-1` down to 0: the quotient they make, and the dividend left. -/
def divLoop (n v : Nat) : Nat → Nat → Nat × Nat
  | 0, u => (0, u)
  | j + 1, u =>
    let d := divStep n v j u
    let rest := divLoop n v j d.2
    (d.1 * 2 ^ (64 * j) + rest.1, rest.2)

/-- The multi-limb path (R204) for values of `nl` limbs: normalize by the leading zeros of the divisor's top limb,
take the digits, undo the normalization of the remainder. `n` is the divisor's number of significant limbs. -/
def divMulti (nl n x y : Nat) : Nat × Nat :=
  if x < y then (0, x)
  else
    let sh := clzW 64 (limb y (n - 1))
    let qu := divLoop n (y * 2 ^ sh) (nl - n + 1) (x * 2 ^ sh)
    (qu.1, qu.2 / 2 ^ sh)

/-! ### Shifts (R230) -/

/-- Limb `i - k` of `x`, 0 where `i < k`. -/
def limbBelow (x i k : Nat) : Nat := if k ≤ i then limb x (i - k) else 0

/-- Limb `i` of `SHL_W(x, k)` by the limb formula. -/
def shlLimb (x k i : Nat) : Nat :=
  (limbBelow x i (k / 64) * 2 ^ (k % 64)
    + (if 0 < k % 64 then limbBelow x i (k / 64 + 1) / 2 ^ (64 - k % 64) else 0)) % 2 ^ 64

/-- Limb `i` of `SHR_W(x, k)` by the limb formula. -/
def shrLimb (x k i : Nat) : Nat :=
  limb x (i + k / 64) / 2 ^ (k % 64)
    + (if 0 < k % 64 then limb x (i + k / 64 + 1) * 2 ^ (64 - k % 64) % 2 ^ 64 else 0)

end Sys2Proof.Machine
end

