-- ==== Sys2Proof/Machine/Instance.lean ====
section
/-!
DEFINITION. The engine of one instance, with the instance's parameters as arguments of its step and no field of its
state (spec/10_state.md R37). `Engine c` holds exactly the state spec/10_state.md and spec/20_memory.md name; the
host's list and its replies are outside it. The machine's `step`, whose form has no room for an argument, carries the
parameters beside this state in `State.cfg` (log 3).
-/

namespace Sys2Proof.Machine

/-- The state of an engine of instance `c` (R20, R24, R25, R29, R30, R50); ID is computed from `c` (R33). -/
structure Engine (c : Config) where
  regs     : Vector (BitVec c.width) 16
  written  : Vector Bool 16
  flags    : Flags
  fault    : Option Cause
  faultCmd : Word
  faultLit : Word
  mem      : List Host.Cell
  deriving DecidableEq, Repr

/-- The machine's state made of an engine, the host's operations to come and the last reply. -/
def Engine.toState {c : Config} (e : Engine c) (ops : List HostOp) (reply : Option Reply) : State where
  cfg      := c
  regs     := e.regs
  written  := e.written
  flags    := e.flags
  fault    := e.fault
  faultCmd := e.faultCmd
  faultLit := e.faultLit
  mem      := e.mem
  host     := ops
  reply    := reply

/-- The engine in a state, its register values read as values of instance `c`. -/
def Engine.ofState (c : Config) (s : State) : Engine c where
  regs     := Vector.ofFn fun r : Reg => BitVec.ofNat c.width (s.val r)
  written  := s.written
  flags    := s.flags
  fault    := s.fault
  faultCmd := s.faultCmd
  faultLit := s.faultLit
  mem      := s.mem

/-- One host operation on an engine of instance `c`: the engine after it and what it returns (R37, R401, R402). -/
def stepOf (c : Config) (op : HostOp) (e : Engine c) : Host.Outcome (Engine c × Option Reply) Fault Refusal :=
  match hostStep op (e.toState [] none) with
  | .next t => .next (Engine.ofState c t, t.reply)
  | .fault f => .fault f
  | .refused r => .refused r

end Sys2Proof.Machine
end

