-- ==== Sys2Proof/Safety.lean ====
section
/-!
DEFINITION. The terms claims use: what a command may change and what it leaves, which conditions fault
(spec/60_exceptions.md R390 to R395), which commands read a register that holds no value in the spec's sense
(R381), the launch premises and the end of a run (spec/70_reset_and_hazards.md R424, R428), the invariant of the
machine, and the meaning of texts and float patterns apart from the machine's own way of computing them.
-/

namespace Sys2Proof.Machine

/-! ### What a command leaves unchanged, and what it changes -/

/-- Everything but the registers, FLAGS and the buffer is as before. -/
def SameControl (s t : State) : Prop :=
  t.cfg = s.cfg ∧ t.fault = s.fault ∧ t.faultCmd = s.faultCmd ∧ t.faultLit = s.faultLit ∧ t.host = s.host ∧
    t.reply = s.reply

/-- Every byte of the buffer reads as before. -/
def SameBuffer (s t : State) : Prop := ∀ a, t.readByte a = s.readByte a

/-- Every register holds what it held, and counts as written as it did. -/
def SameRegs (s t : State) : Prop := ∀ r : Reg, t.val r = s.val r ∧ t.written[r] = s.written[r]

/-- Register `rd` holds `x` and counts as written; every other register is as before. -/
def OnlyReg (s t : State) (rd : Reg) (x : Nat) : Prop :=
  t.val rd = x ∧ t.written[rd] = true ∧
    ∀ r : Reg, r ≠ rd → t.val r = s.val r ∧ t.written[r] = s.written[r]

/-- The whole effect is that `rd` holds `x`. -/
def WritesReg (s t : State) (rd : Reg) (x : Nat) : Prop :=
  OnlyReg s t rd x ∧ t.flags = s.flags ∧ SameBuffer s t ∧ SameControl s t

/-- The whole effect is that `rd` holds `x` and FLAGS.OV is `ov`. -/
def WritesRegAndOv (s t : State) (rd : Reg) (x : Nat) (ov : Bool) : Prop :=
  OnlyReg s t rd x ∧ t.flags.ov = ov ∧ t.flags.perr = s.flags.perr ∧ SameBuffer s t ∧ SameControl s t

/-- The whole effect is that FLAGS.OV is `ov`. -/
def WritesOv (s t : State) (ov : Bool) : Prop :=
  SameRegs s t ∧ t.flags.ov = ov ∧ t.flags.perr = s.flags.perr ∧ SameBuffer s t ∧ SameControl s t

/-- The whole effect is that `rd` holds `x` and `rd2` holds `y`. -/
def WritesTwoRegs (s t : State) (rd rd2 : Reg) (x y : Nat) : Prop :=
  t.val rd = x ∧ t.val rd2 = y ∧ t.written[rd] = true ∧ t.written[rd2] = true ∧
    (∀ r : Reg, r ≠ rd → r ≠ rd2 → t.val r = s.val r ∧ t.written[r] = s.written[r]) ∧
    t.flags = s.flags ∧ SameBuffer s t ∧ SameControl s t

/-- The buffer holds `bs` at `addr`, and every other byte is as before. -/
def BufferHolds (s t : State) (addr : Nat) (bs : List Byte) : Prop :=
  (∀ i (h : i < bs.length), t.readByte (addr + i) = some bs[i]) ∧
    ∀ a, (a < addr ∨ addr + bs.length ≤ a) → t.readByte a = s.readByte a

/-- Fault entry (R395, R396): the fault registers record cause `c`, the first word and the second word or 0, and no
value register, buffer byte or FLAGS field differs from before. -/
def FaultEntered (s t : State) (c : Cause) (word lit : Word) : Prop :=
  t.fault = some c ∧ t.faultCmd = word ∧ t.faultLit = lit ∧ SameRegs s t ∧ t.flags = s.flags ∧ SameBuffer s t ∧
    t.cfg = s.cfg ∧ t.host = s.host ∧ t.reply = s.reply

/-- The words `w` and `lit` are the encoding of command `i`: the decoder reads `i` from them, and the encoder gives
them back. -/
def CommandWords (i : Instr) (w : Word) (lit : Option Word) : Prop := decode w lit = .ok i ∧ encode i = (w, lit)

/-- The buffer holds the bytes `bs` at `addr`, each with a value. -/
def HasBytes (s : State) (addr : Nat) (bs : List Byte) : Prop :=
  ∀ i (h : i < bs.length), s.readByte (addr + i) = some bs[i]

/-! ### Which commands touch what (R26, R27, R50) -/

/-- The commands that write FLAGS.OV (R26). -/
def writesOv : Instr → Bool
  | .addO .. | .addC .. | .subO .. | .subC .. | .mulO .. | .mulC .. | .powO .. | .narrow .. | .clrf => true
  | _ => false

/-- The commands that write FLAGS.PERR (R27). -/
def writesPerr : Instr → Bool
  | .parsedec .. | .parsehex .. | .parser .. | .clrf => true
  | _ => false

/-- The commands that write the buffer (R50). -/
def writesBuffer : Instr → Bool
  | .stbe .. | .stle .. | .fmtdec .. | .fmthex .. | .fmtr .. => true
  | _ => false

/-- The registers a command writes: its destinations (R72, R77). -/
def destinations : Instr → List Reg
  | .nop | .clrf | .stbe .. | .stle .. => []
  | .mulWide rd rd2 _ _ | .divmod rd rd2 _ _ => [rd, rd2]
  | .mov rd _ | .ldi rd _ | .ldl rd _ _ _ | .ldmax rd | .getl rd _ _ | .narrow rd _ _ | .rdf rd | .isz rd _ => [rd]
  | .cmpEq rd _ _ | .cmpNe rd _ _ | .cmpLt rd _ _ | .cmpLe rd _ _ | .cmpGt rd _ _ | .cmpGe rd _ _ => [rd]
  | .addW rd _ _ | .addO rd _ _ | .addC rd _ _ | .addS rd _ _ => [rd]
  | .subW rd _ _ | .subO rd _ _ | .subC rd _ _ | .subS rd _ _ => [rd]
  | .mulW rd _ _ | .mulO rd _ _ | .mulC rd _ _ | .mulS rd _ _ | .powW rd _ _ | .powO rd _ _ => [rd]
  | .div rd _ _ | .rem rd _ _ | .shl rd _ _ | .shr rd _ _ | .rol rd _ _ | .ror rd _ _ => [rd]
  | .shli rd _ _ | .shri rd _ _ | .roli rd _ _ | .rori rd _ _ | .bit rd _ _ => [rd]
  | .bitAnd rd _ _ | .bitOr rd _ _ | .bitXor rd _ _ | .bitNot rd _ | .clz rd _ | .ctz rd _ | .bits rd _ => [rd]
  | .ldbe rd _ _ | .ldle rd _ _ | .parsedec rd _ _ | .parsehex rd _ _ | .parser rd _ _ _ => [rd]
  | .fmtdec rd _ _ | .fmthex rd _ _ _ | .fmtr rd _ _ _ | .f2u rd _ | .u2f rd _ | .isqrt rd _ => [rd]

/-- The registers a command reads: the sources its word names (R72, R393 step 3). -/
def sources : Instr → List Reg
  | .nop | .clrf | .ldi .. | .ldmax .. | .rdf .. => []
  | .ldbe .. | .ldle .. | .parsedec .. | .parsehex .. | .parser .. => []
  | .mov _ a | .ldl _ a _ _ | .getl _ a _ | .narrow _ a _ | .isz _ a => [a]
  | .shli _ a _ | .shri _ a _ | .roli _ a _ | .rori _ a _ | .bit _ a _ => [a]
  | .bitNot _ a | .clz _ a | .ctz _ a | .bits _ a | .f2u _ a | .u2f _ a | .isqrt _ a => [a]
  | .stbe a _ | .stle a _ | .fmtdec _ a _ | .fmthex _ a _ _ | .fmtr _ a _ _ => [a]
  | .cmpEq _ a b | .cmpNe _ a b | .cmpLt _ a b | .cmpLe _ a b | .cmpGt _ a b | .cmpGe _ a b => [a, b]
  | .addW _ a b | .addO _ a b | .addC _ a b | .addS _ a b => [a, b]
  | .subW _ a b | .subO _ a b | .subC _ a b | .subS _ a b => [a, b]
  | .mulW _ a b | .mulO _ a b | .mulC _ a b | .mulS _ a b | .powW _ a b | .powO _ a b => [a, b]
  | .mulWide _ _ a b | .divmod _ _ a b | .div _ a b | .rem _ a b => [a, b]
  | .shl _ a b | .shr _ a b | .rol _ a b | .ror _ a b | .bitAnd _ a b | .bitOr _ a b | .bitXor _ a b => [a, b]

/-! ### Texts and float patterns, apart from the machine's own loops -/

/-- The number of digits of `x` in radix `b`, at least 1 (R300). -/
def digitCount (b x : Nat) : Nat := if x = 0 then 1 else (Nat.digits b x).length

/-- The ASCII character of digit `d`: `0` to `9` are 0x30 to 0x39, `A` to `Z` 0x41 to 0x5A, `a` to `z` 0x61 to 0x7A
(R290, R300). -/
def asciiDigit (d : Nat) (upper : Bool) : Byte :=
  if d < 10 then BitVec.ofNat 8 (0x30 + d)
  else if upper then BitVec.ofNat 8 (0x41 + (d - 10))
  else BitVec.ofNat 8 (0x61 + (d - 10))

/-- The digit string of `x` in radix `b`, from the standard library's list of its digits, each as its character; the
most significant digit first (R300). -/
def digitText (b x : Nat) (upper : Bool) : List Byte :=
  if x = 0 then [0x30] else ((Nat.digits b x).map fun d => asciiDigit d upper).reverse

/-- Every byte of a text is a digit in radix `b` (R290). -/
def AllDigits (b : Nat) (ds : List Byte) : Prop := ∀ c ∈ ds, digitVal c b ≠ none

/-- The value of a text of digits, the first the most significant (R291). -/
def textValue (b : Nat) (ds : List Byte) : Nat := ds.foldl (fun v c => v * b + (digitVal c b).getD 0) 0

/-- What `Parse(ds, b)` gives on values of `w` bits, as R291 says it in reading order: the value of a non-empty text
of digits that fits, or the first thing that is wrong with the text. -/
def ParseOutcome (w b : Nat) (ds : List Byte) : Except ParseStatus Nat → Prop
  | .ok x => ds ≠ [] ∧ AllDigits b ds ∧ x = textValue b ds ∧ x < 2 ^ w
  | .error .empty => ds = []
  | .error .invalidDigit =>
    ∃ n, ∃ h : n < ds.length, AllDigits b (ds.take n) ∧ textValue b (ds.take n) < 2 ^ w ∧ digitVal ds[n] b = none
  | .error .overflow =>
    ∃ n, n < ds.length ∧ AllDigits b (ds.take (n + 1)) ∧ textValue b (ds.take n) < 2 ^ w ∧
      2 ^ w ≤ textValue b (ds.take (n + 1))
  | .error .ok => False

/-- The effect of a parse command whose parse gave `k` (R292): the value and PERR = 0, or the code and no value. OV
stays. -/
def ParseEffect (s t : State) (rd : Reg) : Except ParseStatus Nat → Prop
  | .ok x => OnlyReg s t rd x ∧ t.flags = { s.flags with perr := .ok } ∧ SameBuffer s t ∧ SameControl s t
  | .error e => SameRegs s t ∧ t.flags = { s.flags with perr := e } ∧ SameBuffer s t ∧ SameControl s t

/-- The effect of a format command that writes `text` at `addr` (R301). -/
def FormatEffect (s t : State) (rd : Reg) (addr : Nat) (text : List Byte) : Prop :=
  OnlyReg s t rd text.length ∧ BufferHolds s t addr text ∧ t.flags = s.flags ∧ SameControl s t

/-- The value of a normal binary64 pattern with sign 0 (R310): `(2^52 + fraction) * 2^(exponent - 1075)`. -/
def f64Value (p : Nat) : ℚ := ((2 ^ 52 + p % 2 ^ 52 : ℕ) : ℚ) * (2 : ℚ) ^ (((p / 2 ^ 52 : ℕ) : ℤ) - 1075)

/-- A normal finite pattern with sign 0 (R310). -/
def F64Finite (p : Nat) : Prop := 2 ^ 52 ≤ p ∧ p < 0x7FF0000000000000

/-- `p` is the pattern of one of the two binary64 values adjacent to `x` (R313): the greatest finite one `<= x`, or
the least one `>= x`, which is +inf above the greatest finite one. -/
def F64Adjacent (x p : Nat) : Prop :=
  (F64Finite p ∧ f64Value p ≤ x ∧ (F64Finite (p + 1) → (x : ℚ) < f64Value (p + 1))) ∨
    (F64Finite (p - 1) ∧ f64Value (p - 1) < x ∧ (F64Finite p → (x : ℚ) ≤ f64Value p))

/-! ### Faults (R390 to R393) -/

/-- The checks made from the command word alone, step 2 of R393. -/
def operandCheck (i : Instr) (s : State) : Option Cause :=
  match i with
  | .mulWide rd rd2 _ _ | .divmod rd rd2 _ _ => if rd = rd2 then some .operandConflict else none
  | .ldbe _ _ len | .ldle _ _ len => if 8 * s.cfg.limbs < len.toNat then some .badLength else none
  | .ldl _ _ imm _ | .getl _ _ imm => if s.cfg.limbs ≤ imm.toNat then some .badIndex else none
  | .bit _ _ imm => if s.cfg.width ≤ imm.toNat then some .badIndex else none
  | _ => none

/-- The number of buffer bytes a command reads or writes from its `ADDR`, if it touches the buffer (R58, R390). -/
def bufferAccess (i : Instr) (s : State) : Option (Nat × Nat) :=
  match i with
  | .ldbe _ a len | .ldle _ a len | .parsedec _ a len | .parsehex _ a len | .parser _ a len _ =>
    some (a.toNat, len.toNat)
  | .stbe _ a | .stle _ a => some (a.toNat, 8 * s.cfg.limbs)
  | .fmtdec _ r a => some (a.toNat, digitCount 10 (s.val r))
  | .fmthex _ r a o => some (a.toNat, digitCount 16 (s.val r) + 2 * o.zeroX.toNat)
  | .fmtr _ r a b => some (a.toNat, digitCount b (s.val r))
  | _ => none

/-- The divisor of a division command (R201). -/
def divisorOf : Instr → Option Reg
  | .divmod _ _ _ r | .div _ _ r | .rem _ _ r => some r
  | _ => none

/-- The cause a decoded command raises, the first in the order of R392; `none` when it raises none (R391). -/
def raisedCause (i : Instr) (s : State) : Option Cause :=
  match operandCheck i s with
  | some c => some c
  | none =>
    match bufferAccess i s with
    | some (a, n) => if s.cfg.bufBytes < a + n then some .bufferRange else none
    | none =>
      match divisorOf i with
      | some r => if s.val r = 0 then some .divideByZero else none
      | none => none

/-! ### Unwritten registers (R24, R381) -/

/-- The command reads a register that nothing has written since reset: the spec's `UninitRead` for registers (R381,
R393 step 3). The model goes on with the register's value at reset (log 1); a claim that must not rest on that value
takes the negation of this as a premise. -/
def readsUnwritten (i : Instr) (s : State) : Prop :=
  operandCheck i s = none ∧ ∃ r ∈ sources i, s.written[r] = false

/-- Two states agree but for what registers not written since reset hold. -/
def AgreeOnWritten (s s' : State) : Prop :=
  s'.cfg = s.cfg ∧ s'.written = s.written ∧ (∀ r : Reg, s.written[r] = true → s'.val r = s.val r) ∧
    s'.flags = s.flags ∧ s'.fault = s.fault ∧ s'.faultCmd = s.faultCmd ∧ s'.faultLit = s.faultLit ∧
    s'.mem = s.mem ∧ s'.host = s.host ∧ s'.reply = s.reply

/-! ### Launch and end of a run (R424, R428) -/

/-- The launch premise `NoFault`. -/
def NoFault (s : State) : Prop := s.fault = none

/-- The launch premise `FlagsClear`. -/
def FlagsClear (s : State) : Prop := s.flags = { ov := false, perr := .ok }

/-- The launch premise `Init(R, B)`: the registers in `rs` have been written and the bytes in `bytes` hold a value. -/
def Init (rs : List Reg) (bytes : List Nat) (s : State) : Prop :=
  (∀ r ∈ rs, s.written[r] = true) ∧ ∀ a ∈ bytes, s.readByte a ≠ none

/-- The run has ended normally: the host's list is at its end and FAULTED = 0. -/
def EndedNormally (s : State) : Prop := s.host = [] ∧ s.fault = none

/-- The run has ended STOPPED. -/
def EndedStopped (s : State) : Prop := ∃ c, s.fault = some c

/-! ### The invariant -/

/-- What every step keeps: the instance is a legal one (R7), the buffer is in canonical form and lists no address
outside it (R50), and FAULTCMD and FAULTLIT are zero while no fault has been entered (R30). -/
structure Inv (s : State) : Prop where
  legal     : s.cfg.Legal
  canonical : Memory.wf s.mem
  inBuffer  : ∀ c ∈ s.mem, c.1 < s.cfg.bufBytes
  fresh     : s.fault = none → s.faultCmd = 0 ∧ s.faultLit = 0

end Sys2Proof.Machine
end

