-- ==== Sys2Proof/Certificates/Slice0/Obligations.lean ====
section
/-!
DEFINITION. The statements for the provers. Each formalises numbered rules of spec/, named in its docstring. A
statement about a command says three things at once: which words encode it, that `exec` answers a next state, and the
whole of what differs in that state (Safety.lean), so that it is the command's result, completion and frame.
-/

open Sys2Proof Sys2Proof.Machine

/-! ### Issue, decoding and encoding -/

/-- R401, R393: when the engine is RUNNING and the words the host issues decode to `i`, the step takes the issue off
the host's list, performs `exec i`, and adds the reply to the state that gives: OK, or FAULT(c) when the command
raised `c`; where `exec i` stops the model, the step stops it with the same reason. The list and the reply are the
model's own fields (log 5, log 6). -/
def Obligations.StepRunsTheDecodedCommand : Prop :=
  ∀ (s : State) (w : Word) (lit : Option Word) (rest : List HostOp) (i : Instr),
    s.host = .issue w lit :: rest → s.fault = none → decode w lit = .ok i →
      step s =
        match exec i (s.setHost rest) with
        | .next t =>
          .next (t.answer (match t.fault with
            | none => .ok
            | some c => .faulted c))
        | .fault f => .fault f
        | .refused r => .refused r

/-- R31: while FAULTED = 1 a command issued by the host is discarded without effect on any state of the engine. -/
def Obligations.StoppedEngineDiscardsCommands : Prop :=
  ∀ (s : State) (c : Cause) (w : Word) (lit : Option Word) (rest : List HostOp),
    s.host = .issue w lit :: rest → s.fault = some c →
      ∃ t, step s = .next t ∧ SameRegs s t ∧ t.flags = s.flags ∧ SameBuffer s t ∧ t.fault = s.fault ∧
        t.faultCmd = s.faultCmd ∧ t.faultLit = s.faultLit ∧ t.cfg = s.cfg ∧ t.host = rest ∧
        t.reply = some .discarded

/-- R79, R390, R396: words that decode to ILLEGAL raise `ILLEGAL_COMMAND` and do nothing else: FAULTCMD is the first
word issued, FAULTLIT the second or 0. -/
def Obligations.IllegalWordsRaiseIllegalCommand : Prop :=
  ∀ (s : State) (w : Word) (lit : Option Word) (rest : List HostOp) (e : Illegal),
    s.host = .issue w lit :: rest → s.fault = none → decode w lit = .error e →
      ∃ t, step s = .next t ∧ t.fault = some .illegalCommand ∧ t.faultCmd = w ∧ t.faultLit = lit.getD 0 ∧
        SameRegs s t ∧ t.flags = s.flags ∧ SameBuffer s t ∧ t.cfg = s.cfg ∧ t.host = rest ∧
        t.reply = some (.faulted .illegalCommand)

/-- R83: the four worked encodings of the spec. -/
def Obligations.WorkedEncodingsDecode : Prop :=
  CommandWords (.addO 3 1 2) 0x0000000001021310 none ∧
  CommandWords (.ldl 1 1 2 0x0123456789abcdef) 0x0000000200001104 (some 0x0123456789abcdef) ∧
  CommandWords (.ldbe 5 0x100 32) 0x0020010000000560 none ∧
  CommandWords (.parser 2 0x10 5 36) 0x0005001024000266 none

/-- R71 to R77: the decoder gives back every well-formed command from its words. -/
def Obligations.DecodeUndoesEncode : Prop :=
  ∀ i : Instr, i.wellFormed = true → decode (encode i).1 (encode i).2 = .ok i

/-- R78, R79: the words the decoder accepts are the encoding of the command it reads, so each command has exactly one
encoding and no bit of a word is ignored; and what it reads is well formed. -/
def Obligations.EncodeUndoesDecode : Prop :=
  ∀ (w : Word) (lit : Option Word) (i : Instr),
    decode w lit = .ok i → encode i = (w, lit) ∧ i.wellFormed = true

/-- R75, R79 case 4: an accepted command has a second word exactly when its `OPC` is that of `LDL`. -/
def Obligations.OnlyLdlHasTwoWords : Prop :=
  ∀ (w : Word) (lit : Option Word) (i : Instr),
    decode w lit = .ok i → (lit.isSome = true ↔ w.toNat % 256 = 0x04)

/-! ### Limb store (41_limb_store.md) -/

/-- R100, R101, R102, R104: NOP changes nothing, MOV copies, LDI zero-extends its immediate, LDMAX gives the maximum. -/
def Obligations.MovesAndConstantsWriteTheirValue : Prop :=
  ∀ (s : State) (rd rs1 : Reg) (imm : BitVec 32), s.cfg.Legal →
    (CommandWords .nop (packWord 0x01 0 0 0 0 0 0) none ∧
      ∃ t, exec .nop s = .next t ∧ SameRegs s t ∧ t.flags = s.flags ∧ SameBuffer s t ∧ SameControl s t) ∧
    (CommandWords (.mov rd rs1) (packWord 0x02 rd rs1 0 0 0 0) none ∧
      ∃ t, exec (.mov rd rs1) s = .next t ∧ WritesReg s t rd (s.val rs1)) ∧
    (CommandWords (.ldi rd imm) (packWord 0x03 rd 0 0 0 0 imm.toNat) none ∧
      ∃ t, exec (.ldi rd imm) s = .next t ∧ WritesReg s t rd imm.toNat) ∧
    (CommandWords (.ldmax rd) (packWord 0x05 rd 0 0 0 0 0) none ∧
      ∃ t, exec (.ldmax rd) s = .next t ∧ WritesReg s t rd (2 ^ s.cfg.width - 1))

/-- R103, R105: for a limb index below `N`, LDL gives the source with that limb replaced by the literal and every
other limb kept, and GETL gives that limb, zero-extended; an index of `N` or more raises `BAD_INDEX`, whatever the
registers hold. -/
def Obligations.LimbCommandsReplaceAndReadOneLimb : Prop :=
  ∀ (s : State) (rd rs1 : Reg) (imm : BitVec 32) (lit : Word),
    CommandWords (.ldl rd rs1 imm lit) (packWord 0x04 rd rs1 0 0 0 imm.toNat) (some lit) ∧
    CommandWords (.getl rd rs1 imm) (packWord 0x06 rd rs1 0 0 0 imm.toNat) none ∧
    (imm.toNat < s.cfg.limbs →
      (∃ t x, exec (.ldl rd rs1 imm lit) s = .next t ∧ WritesReg s t rd x ∧
        ∀ k, k < s.cfg.limbs →
          x / 2 ^ (64 * k) % 2 ^ 64 = if k = imm.toNat then lit.toNat else s.val rs1 / 2 ^ (64 * k) % 2 ^ 64) ∧
      ∃ t, exec (.getl rd rs1 imm) s = .next t ∧
        WritesReg s t rd (s.val rs1 / 2 ^ (64 * imm.toNat) % 2 ^ 64)) ∧
    (s.cfg.limbs ≤ imm.toNat →
      (∃ t, exec (.ldl rd rs1 imm lit) s = .next t ∧
        FaultEntered s t .badIndex (packWord 0x04 rd rs1 0 0 0 imm.toNat) lit) ∧
      ∃ t, exec (.getl rd rs1 imm) s = .next t ∧
        FaultEntered s t .badIndex (packWord 0x06 rd rs1 0 0 0 imm.toNat) 0)

/-- R74, R106: NARROW with width code 0, 1, 2, 3 or 4 keeps the low 8, 16, 32, 64 or 128 bits and sets OV to whether
bits are lost; on an instance no wider than the target the value is unchanged and OV is 0. -/
def Obligations.NarrowKeepsLowBitsAndReportsLoss : Prop :=
  ∀ (s : State) (rd rs1 : Reg) (c : NarrowWidth) (fn n : Nat),
    (c, fn, n) ∈ [(NarrowWidth.w8, 0, 8), (.w16, 1, 16), (.w32, 2, 32), (.w64, 3, 64), (.w128, 4, 128)] →
    CommandWords (.narrow rd rs1 c) (packWord 0x07 rd rs1 0 0 fn 0) none ∧
    ∃ t, exec (.narrow rd rs1 c) s = .next t ∧
      WritesRegAndOv s t rd (s.val rs1 % 2 ^ n) (decide (2 ^ n ≤ s.val rs1)) ∧
      (s.cfg.width ≤ n → t.val rd = s.val rs1 ∧ t.flags.ov = false)

/-- R107, R108, R25: RDF writes `OV + 2*PERR`, PERR 0 OK, 1 INVALID_DIGIT, 2 OVERFLOW, 3 EMPTY; CLRF
clears both fields and nothing else. -/
def Obligations.FlagCommandsReadAndClearFlags : Prop :=
  ∀ (s : State) (rd : Reg), s.cfg.Legal →
    (CommandWords (.rdf rd) (packWord 0x08 rd 0 0 0 0 0) none ∧
      ∃ t, exec (.rdf rd) s = .next t ∧ WritesReg s t rd
          ((if s.flags.ov then 1 else 0) +
            2 * match s.flags.perr with
              | .ok => 0
              | .invalidDigit => 1
              | .overflow => 2
              | .empty => 3)) ∧
    (CommandWords .clrf (packWord 0x09 0 0 0 0 0 0) none ∧
      ∃ t, exec .clrf s = .next t ∧ SameRegs s t ∧ t.flags = { ov := false, perr := .ok } ∧ SameBuffer s t ∧
        SameControl s t)

/-- R110 to R116: the six comparisons and ISZ write 1 when their relation holds of the values, else 0. -/
def Obligations.ComparisonsWriteTheTruthOfTheirRelation : Prop :=
  ∀ (s : State) (rd rs1 rs2 : Reg), s.cfg.Legal →
    (CommandWords (.cmpEq rd rs1 rs2) (packWord 0x0A rd rs1 rs2 0 0 0) none ∧
      ∃ t, exec (.cmpEq rd rs1 rs2) s = .next t ∧ WritesReg s t rd (if s.val rs1 = s.val rs2 then 1 else 0)) ∧
    (CommandWords (.cmpNe rd rs1 rs2) (packWord 0x0A rd rs1 rs2 0 1 0) none ∧
      ∃ t, exec (.cmpNe rd rs1 rs2) s = .next t ∧ WritesReg s t rd (if s.val rs1 = s.val rs2 then 0 else 1)) ∧
    (CommandWords (.cmpLt rd rs1 rs2) (packWord 0x0A rd rs1 rs2 0 2 0) none ∧
      ∃ t, exec (.cmpLt rd rs1 rs2) s = .next t ∧ WritesReg s t rd (if s.val rs1 < s.val rs2 then 1 else 0)) ∧
    (CommandWords (.cmpLe rd rs1 rs2) (packWord 0x0A rd rs1 rs2 0 3 0) none ∧
      ∃ t, exec (.cmpLe rd rs1 rs2) s = .next t ∧ WritesReg s t rd (if s.val rs1 ≤ s.val rs2 then 1 else 0)) ∧
    (CommandWords (.cmpGt rd rs1 rs2) (packWord 0x0A rd rs1 rs2 0 4 0) none ∧
      ∃ t, exec (.cmpGt rd rs1 rs2) s = .next t ∧ WritesReg s t rd (if s.val rs1 > s.val rs2 then 1 else 0)) ∧
    (CommandWords (.cmpGe rd rs1 rs2) (packWord 0x0A rd rs1 rs2 0 5 0) none ∧
      ∃ t, exec (.cmpGe rd rs1 rs2) s = .next t ∧ WritesReg s t rd (if s.val rs1 ≥ s.val rs2 then 1 else 0)) ∧
    (CommandWords (.isz rd rs1) (packWord 0x0B rd rs1 0 0 0 0) none ∧
      ∃ t, exec (.isz rd rs1) s = .next t ∧
        WritesReg s t rd (if ∀ k, k < s.cfg.limbs → s.val rs1 / 2 ^ (64 * k) % 2 ^ 64 = 0 then 1 else 0))

/-! ### Adder and multiplier (42_add_sub.md, 43_multiply.md) -/

/-- R142 to R145: the four additions. The checked one keeps its destination on overflow. -/
def Obligations.AdditionsInTheirFourModes : Prop :=
  ∀ (s : State) (rd rs1 rs2 : Reg) (a b : Nat), s.val rs1 = a → s.val rs2 = b →
    (CommandWords (.addW rd rs1 rs2) (packWord 0x10 rd rs1 rs2 0 0 0) none ∧
      ∃ t, exec (.addW rd rs1 rs2) s = .next t ∧ WritesReg s t rd ((a + b) % 2 ^ s.cfg.width)) ∧
    (CommandWords (.addO rd rs1 rs2) (packWord 0x10 rd rs1 rs2 0 1 0) none ∧
      ∃ t, exec (.addO rd rs1 rs2) s = .next t ∧
        WritesRegAndOv s t rd ((a + b) % 2 ^ s.cfg.width) (decide (a + b ≥ 2 ^ s.cfg.width))) ∧
    (CommandWords (.addC rd rs1 rs2) (packWord 0x10 rd rs1 rs2 0 2 0) none ∧
      ∃ t, exec (.addC rd rs1 rs2) s = .next t ∧
        if a + b ≥ 2 ^ s.cfg.width then WritesOv s t true else WritesRegAndOv s t rd (a + b) false) ∧
    (CommandWords (.addS rd rs1 rs2) (packWord 0x10 rd rs1 rs2 0 3 0) none ∧
      ∃ t, exec (.addS rd rs1 rs2) s = .next t ∧
        WritesReg s t rd (if a + b ≥ 2 ^ s.cfg.width then 2 ^ s.cfg.width - 1 else a + b))

/-- R146 to R149: the four subtractions. -/
def Obligations.SubtractionsInTheirFourModes : Prop :=
  ∀ (s : State) (rd rs1 rs2 : Reg) (a b : Nat), s.val rs1 = a → s.val rs2 = b →
    (CommandWords (.subW rd rs1 rs2) (packWord 0x11 rd rs1 rs2 0 0 0) none ∧
      ∃ t, exec (.subW rd rs1 rs2) s = .next t ∧
        WritesReg s t rd (((a : Int) - b) % 2 ^ s.cfg.width).toNat) ∧
    (CommandWords (.subO rd rs1 rs2) (packWord 0x11 rd rs1 rs2 0 1 0) none ∧
      ∃ t, exec (.subO rd rs1 rs2) s = .next t ∧
        WritesRegAndOv s t rd (((a : Int) - b) % 2 ^ s.cfg.width).toNat (decide (a < b))) ∧
    (CommandWords (.subC rd rs1 rs2) (packWord 0x11 rd rs1 rs2 0 2 0) none ∧
      ∃ t, exec (.subC rd rs1 rs2) s = .next t ∧
        if a < b then WritesOv s t true else WritesRegAndOv s t rd (a - b) false) ∧
    (CommandWords (.subS rd rs1 rs2) (packWord 0x11 rd rs1 rs2 0 3 0) none ∧
      ∃ t, exec (.subS rd rs1 rs2) s = .next t ∧ WritesReg s t rd (if a < b then 0 else a - b))

/-- R172 to R176: the four narrow multiplications; overflow is that of the full product. -/
def Obligations.MultiplicationsInTheirFourModes : Prop :=
  ∀ (s : State) (rd rs1 rs2 : Reg) (a b : Nat), s.val rs1 = a → s.val rs2 = b →
    (CommandWords (.mulW rd rs1 rs2) (packWord 0x20 rd rs1 rs2 0 0 0) none ∧
      ∃ t, exec (.mulW rd rs1 rs2) s = .next t ∧ WritesReg s t rd (a * b % 2 ^ s.cfg.width)) ∧
    (CommandWords (.mulO rd rs1 rs2) (packWord 0x20 rd rs1 rs2 0 1 0) none ∧
      ∃ t, exec (.mulO rd rs1 rs2) s = .next t ∧
        WritesRegAndOv s t rd (a * b % 2 ^ s.cfg.width) (decide (a * b ≥ 2 ^ s.cfg.width))) ∧
    (CommandWords (.mulC rd rs1 rs2) (packWord 0x20 rd rs1 rs2 0 2 0) none ∧
      ∃ t, exec (.mulC rd rs1 rs2) s = .next t ∧
        if a * b ≥ 2 ^ s.cfg.width then WritesOv s t true else WritesRegAndOv s t rd (a * b) false) ∧
    (CommandWords (.mulS rd rs1 rs2) (packWord 0x20 rd rs1 rs2 0 3 0) none ∧
      ∃ t, exec (.mulS rd rs1 rs2) s = .next t ∧
        WritesReg s t rd (if a * b ≥ 2 ^ s.cfg.width then 2 ^ s.cfg.width - 1 else a * b))

/-- R177: MULW with two destinations gives the low and the high half of the full product; with one register as both
it raises `OPERAND_CONFLICT`. -/
def Obligations.MulwGivesBothHalvesOfTheProduct : Prop :=
  ∀ (s : State) (rd rd2 rs1 rs2 : Reg),
    CommandWords (.mulWide rd rd2 rs1 rs2) (packWord 0x21 rd rs1 rs2 rd2 0 0) none ∧
    (rd ≠ rd2 →
      ∃ t lo hi, exec (.mulWide rd rd2 rs1 rs2) s = .next t ∧ WritesTwoRegs s t rd rd2 lo hi ∧
        lo < 2 ^ s.cfg.width ∧ lo + 2 ^ s.cfg.width * hi = s.val rs1 * s.val rs2) ∧
    (rd = rd2 →
      ∃ t, exec (.mulWide rd rd2 rs1 rs2) s = .next t ∧
        FaultEntered s t .operandConflict (packWord 0x21 rd rs1 rs2 rd2 0 0) 0)

/-- R178 to R180: POW gives the true power modulo `2^W`, with `x^0 = 1`; POW.O reports whether the true power fits. -/
def Obligations.PowerIsTheTruePower : Prop :=
  ∀ (s : State) (rd rs1 rs2 : Reg), s.cfg.Legal →
    (CommandWords (.powW rd rs1 rs2) (packWord 0x22 rd rs1 rs2 0 0 0) none ∧
      ∃ t, exec (.powW rd rs1 rs2) s = .next t ∧
        WritesReg s t rd (s.val rs1 ^ s.val rs2 % 2 ^ s.cfg.width)) ∧
    (CommandWords (.powO rd rs1 rs2) (packWord 0x22 rd rs1 rs2 0 1 0) none ∧
      ∃ t, exec (.powO rd rs1 rs2) s = .next t ∧
        WritesRegAndOv s t rd (s.val rs1 ^ s.val rs2 % 2 ^ s.cfg.width)
          (decide (s.val rs1 ^ s.val rs2 ≥ 2 ^ s.cfg.width)))

/-! ### Division (44_divide.md) -/

/-- R200, R201, R205 to R207: for a non-zero divisor the quotient `q` and remainder `r` satisfy `x = q*y + r` and
`r < y`; DIVMOD gives both, DIV and REM one each. A divisor of 0 raises `DIVIDE_BY_ZERO` in all three. DIVMOD with one
register as both destinations raises `OPERAND_CONFLICT` before the divisor is looked at. -/
def Obligations.DivisionGivesQuotientAndRemainder : Prop :=
  ∀ (s : State) (rd rd2 rs1 rs2 : Reg),
    CommandWords (.divmod rd rd2 rs1 rs2) (packWord 0x30 rd rs1 rs2 rd2 0 0) none ∧
    CommandWords (.div rd rs1 rs2) (packWord 0x31 rd rs1 rs2 0 0 0) none ∧
    CommandWords (.rem rd rs1 rs2) (packWord 0x32 rd rs1 rs2 0 0 0) none ∧
    (s.val rs2 ≠ 0 →
      ∃ q r, s.val rs1 = q * s.val rs2 + r ∧ r < s.val rs2 ∧
        (rd ≠ rd2 → ∃ t, exec (.divmod rd rd2 rs1 rs2) s = .next t ∧ WritesTwoRegs s t rd rd2 q r) ∧
        (∃ t, exec (.div rd rs1 rs2) s = .next t ∧ WritesReg s t rd q) ∧
        ∃ t, exec (.rem rd rs1 rs2) s = .next t ∧ WritesReg s t rd r) ∧
    (s.val rs2 = 0 →
      (rd ≠ rd2 → ∃ t, exec (.divmod rd rd2 rs1 rs2) s = .next t ∧
        FaultEntered s t .divideByZero (packWord 0x30 rd rs1 rs2 rd2 0 0) 0) ∧
      (∃ t, exec (.div rd rs1 rs2) s = .next t ∧
        FaultEntered s t .divideByZero (packWord 0x31 rd rs1 rs2 0 0 0) 0) ∧
      ∃ t, exec (.rem rd rs1 rs2) s = .next t ∧
        FaultEntered s t .divideByZero (packWord 0x32 rd rs1 rs2 0 0 0) 0) ∧
    (rd = rd2 →
      ∃ t, exec (.divmod rd rd2 rs1 rs2) s = .next t ∧
        FaultEntered s t .operandConflict (packWord 0x30 rd rs1 rs2 rd2 0 0) 0)

/-! ### Shifts and bits (45_shift_bit.md) -/

/-- R230, R232, R233, R236, R237: for every amount, however large, a left shift gives `x * 2^k mod 2^W` and a right
shift `x div 2^k`; the amount is the whole register or the immediate. -/
def Obligations.ShiftsMultiplyAndDivideByPowersOfTwo : Prop :=
  ∀ (s : State) (rd rs1 rs2 : Reg) (imm : BitVec 32),
    (CommandWords (.shl rd rs1 rs2) (packWord 0x40 rd rs1 rs2 0 0 0) none ∧
      ∃ t, exec (.shl rd rs1 rs2) s = .next t ∧
        WritesReg s t rd (s.val rs1 * 2 ^ s.val rs2 % 2 ^ s.cfg.width)) ∧
    (CommandWords (.shr rd rs1 rs2) (packWord 0x41 rd rs1 rs2 0 0 0) none ∧
      ∃ t, exec (.shr rd rs1 rs2) s = .next t ∧ WritesReg s t rd (s.val rs1 / 2 ^ s.val rs2)) ∧
    (CommandWords (.shli rd rs1 imm) (packWord 0x44 rd rs1 0 0 0 imm.toNat) none ∧
      ∃ t, exec (.shli rd rs1 imm) s = .next t ∧
        WritesReg s t rd (s.val rs1 * 2 ^ imm.toNat % 2 ^ s.cfg.width)) ∧
    (CommandWords (.shri rd rs1 imm) (packWord 0x45 rd rs1 0 0 0 imm.toNat) none ∧
      ∃ t, exec (.shri rd rs1 imm) s = .next t ∧ WritesReg s t rd (s.val rs1 / 2 ^ imm.toNat))

/-- R231, R234, R235, R238, R239: a rotation left by `k` moves bit `j` to bit `(j + k) mod W`, a rotation right moves
bit `(j + k) mod W` to bit `j`; every amount is legal and no bit is lost. -/
def Obligations.RotationsMoveEveryBitRoundTheValue : Prop :=
  ∀ (s : State) (rd rs1 rs2 : Reg) (imm : BitVec 32), s.cfg.Legal →
    (CommandWords (.rol rd rs1 rs2) (packWord 0x42 rd rs1 rs2 0 0 0) none ∧
      ∃ t x, exec (.rol rd rs1 rs2) s = .next t ∧ WritesReg s t rd x ∧
        ∀ j, j < s.cfg.width → x.testBit ((j + s.val rs2) % s.cfg.width) = (s.val rs1).testBit j) ∧
    (CommandWords (.ror rd rs1 rs2) (packWord 0x43 rd rs1 rs2 0 0 0) none ∧
      ∃ t x, exec (.ror rd rs1 rs2) s = .next t ∧ WritesReg s t rd x ∧
        ∀ j, j < s.cfg.width → x.testBit j = (s.val rs1).testBit ((j + s.val rs2) % s.cfg.width)) ∧
    (CommandWords (.roli rd rs1 imm) (packWord 0x46 rd rs1 0 0 0 imm.toNat) none ∧
      ∃ t x, exec (.roli rd rs1 imm) s = .next t ∧ WritesReg s t rd x ∧
        ∀ j, j < s.cfg.width → x.testBit ((j + imm.toNat) % s.cfg.width) = (s.val rs1).testBit j) ∧
    (CommandWords (.rori rd rs1 imm) (packWord 0x47 rd rs1 0 0 0 imm.toNat) none ∧
      ∃ t x, exec (.rori rd rs1 imm) s = .next t ∧ WritesReg s t rd x ∧
        ∀ j, j < s.cfg.width → x.testBit j = (s.val rs1).testBit ((j + imm.toNat) % s.cfg.width))

/-- R240 to R243: AND, OR, XOR and NOT work on every bit of the value, leading zero limbs included. -/
def Obligations.BitwiseCommandsWorkOnEveryBit : Prop :=
  ∀ (s : State) (rd rs1 rs2 : Reg),
    (CommandWords (.bitAnd rd rs1 rs2) (packWord 0x50 rd rs1 rs2 0 0 0) none ∧
      ∃ t x, exec (.bitAnd rd rs1 rs2) s = .next t ∧ WritesReg s t rd x ∧
        ∀ j, j < s.cfg.width → x.testBit j = ((s.val rs1).testBit j && (s.val rs2).testBit j)) ∧
    (CommandWords (.bitOr rd rs1 rs2) (packWord 0x51 rd rs1 rs2 0 0 0) none ∧
      ∃ t x, exec (.bitOr rd rs1 rs2) s = .next t ∧ WritesReg s t rd x ∧
        ∀ j, j < s.cfg.width → x.testBit j = ((s.val rs1).testBit j || (s.val rs2).testBit j)) ∧
    (CommandWords (.bitXor rd rs1 rs2) (packWord 0x52 rd rs1 rs2 0 0 0) none ∧
      ∃ t x, exec (.bitXor rd rs1 rs2) s = .next t ∧ WritesReg s t rd x ∧
        ∀ j, j < s.cfg.width → x.testBit j = ((s.val rs1).testBit j != (s.val rs2).testBit j)) ∧
    (CommandWords (.bitNot rd rs1) (packWord 0x53 rd rs1 0 0 0 0) none ∧
      ∃ t x, exec (.bitNot rd rs1) s = .next t ∧ WritesReg s t rd x ∧ x = 2 ^ s.cfg.width - 1 - s.val rs1 ∧
        ∀ j, j < s.cfg.width → x.testBit j = !(s.val rs1).testBit j)

/-- R244 to R247: BITS gives the least `b` with `x < 2^b`, CLZ gives `W - b`, and CTZ gives `W` for zero, else the
greatest `c` with `2^c` dividing `x`. -/
def Obligations.BitCountersCountBits : Prop :=
  ∀ (s : State) (rd rs1 : Reg),
    (CommandWords (.bits rd rs1) (packWord 0x56 rd rs1 0 0 0 0) none ∧
      ∃ t b, exec (.bits rd rs1) s = .next t ∧ WritesReg s t rd b ∧
        ∀ k, b ≤ k ↔ s.val rs1 < 2 ^ k) ∧
    (CommandWords (.clz rd rs1) (packWord 0x54 rd rs1 0 0 0 0) none ∧
      ∃ t b, exec (.clz rd rs1) s = .next t ∧ b ≤ s.cfg.width ∧ WritesReg s t rd (s.cfg.width - b) ∧
        ∀ k, b ≤ k ↔ s.val rs1 < 2 ^ k) ∧
    (CommandWords (.ctz rd rs1) (packWord 0x55 rd rs1 0 0 0 0) none ∧
      ∃ t c, exec (.ctz rd rs1) s = .next t ∧ WritesReg s t rd c ∧
        (s.val rs1 = 0 → c = s.cfg.width) ∧ (s.val rs1 ≠ 0 → ∀ k, 2 ^ k ∣ s.val rs1 ↔ k ≤ c))

/-- R248: for an index below `W`, BIT reads that bit, zero-extended; an index of `W` or more raises `BAD_INDEX`,
whatever the registers hold. -/
def Obligations.BitReadsOneBit : Prop :=
  ∀ (s : State) (rd rs1 : Reg) (imm : BitVec 32),
    CommandWords (.bit rd rs1 imm) (packWord 0x57 rd rs1 0 0 0 imm.toNat) none ∧
    (imm.toNat < s.cfg.width →
      ∃ t, exec (.bit rd rs1 imm) s = .next t ∧ WritesReg s t rd ((s.val rs1).testBit imm.toNat).toNat) ∧
    (s.cfg.width ≤ imm.toNat →
      ∃ t, exec (.bit rd rs1 imm) s = .next t ∧
        FaultEntered s t .badIndex (packWord 0x57 rd rs1 0 0 0 imm.toNat) 0)

/-! ### Bytes and the buffer (46_conversion.md section 1, 20_memory.md) -/

/-- R280, R281, R54: with the bytes in the buffer, LDBE gives the sum with the first byte the most significant, LDLE
with the first byte the least significant, zero-extended. More than `8N` bytes raise `BAD_LENGTH`, also when they are
not all in the buffer; bytes that are not all in the buffer raise `BUFFER_RANGE`. -/
def Obligations.ImportsSumTheBytesInTheirOrder : Prop :=
  ∀ (s : State) (rd : Reg) (addr len : BitVec 16) (be le : Word),
    be = packWord 0x60 rd 0 0 0 0 (addr.toNat + 2 ^ 16 * len.toNat) →
    le = packWord 0x61 rd 0 0 0 0 (addr.toNat + 2 ^ 16 * len.toNat) →
    CommandWords (.ldbe rd addr len) be none ∧ CommandWords (.ldle rd addr len) le none ∧
    (8 * s.cfg.limbs < len.toNat →
      (∃ t, exec (.ldbe rd addr len) s = .next t ∧ FaultEntered s t .badLength be 0) ∧
      ∃ t, exec (.ldle rd addr len) s = .next t ∧ FaultEntered s t .badLength le 0) ∧
    (len.toNat ≤ 8 * s.cfg.limbs → s.cfg.bufBytes < addr.toNat + len.toNat →
      (∃ t, exec (.ldbe rd addr len) s = .next t ∧ FaultEntered s t .bufferRange be 0) ∧
      ∃ t, exec (.ldle rd addr len) s = .next t ∧ FaultEntered s t .bufferRange le 0) ∧
    ∀ bs : List Byte, len.toNat ≤ 8 * s.cfg.limbs → addr.toNat + len.toNat ≤ s.cfg.bufBytes →
      bs.length = len.toNat → HasBytes s addr.toNat bs →
      (∃ t, exec (.ldbe rd addr len) s = .next t ∧
        WritesReg s t rd (∑ j : Fin bs.length, bs[j].toNat * 2 ^ (8 * (bs.length - 1 - j)))) ∧
      ∃ t, exec (.ldle rd addr len) s = .next t ∧
        WritesReg s t rd (∑ j : Fin bs.length, bs[j].toNat * 2 ^ (8 * (j : Nat)))

/-- R282, R283, R54: with the view inside the buffer, STBE and STLE write all `8N` bytes at `ADDR`, the most and the
least significant first, and no register, no flag and no other byte; a view that is not inside the buffer raises
`BUFFER_RANGE`. -/
def Obligations.ExportsWriteAllBytesInTheirOrder : Prop :=
  ∀ (s : State) (rs1 : Reg) (addr : BitVec 16),
    CommandWords (.stbe rs1 addr) (packWord 0x62 0 rs1 0 0 0 addr.toNat) none ∧
    CommandWords (.stle rs1 addr) (packWord 0x63 0 rs1 0 0 0 addr.toNat) none ∧
    (addr.toNat + 8 * s.cfg.limbs ≤ s.cfg.bufBytes →
      (∃ t, exec (.stbe rs1 addr) s = .next t ∧ SameRegs s t ∧ t.flags = s.flags ∧ SameControl s t ∧
        (∀ j, j < 8 * s.cfg.limbs →
          t.readByte (addr.toNat + j) = some (BitVec.ofNat 8 (s.val rs1 / 2 ^ (8 * (8 * s.cfg.limbs - 1 - j))))) ∧
        ∀ a, (a < addr.toNat ∨ addr.toNat + 8 * s.cfg.limbs ≤ a) → t.readByte a = s.readByte a) ∧
      ∃ t, exec (.stle rs1 addr) s = .next t ∧ SameRegs s t ∧ t.flags = s.flags ∧ SameControl s t ∧
        (∀ j, j < 8 * s.cfg.limbs →
          t.readByte (addr.toNat + j) = some (BitVec.ofNat 8 (s.val rs1 / 2 ^ (8 * j)))) ∧
        ∀ a, (a < addr.toNat ∨ addr.toNat + 8 * s.cfg.limbs ≤ a) → t.readByte a = s.readByte a) ∧
    (s.cfg.bufBytes < addr.toNat + 8 * s.cfg.limbs →
      (∃ t, exec (.stbe rs1 addr) s = .next t ∧
        FaultEntered s t .bufferRange (packWord 0x62 0 rs1 0 0 0 addr.toNat) 0) ∧
      ∃ t, exec (.stle rs1 addr) s = .next t ∧
        FaultEntered s t .bufferRange (packWord 0x63 0 rs1 0 0 0 addr.toNat) 0)

/-- R284: an import of `8N` bytes gives back what an export in the same order wrote, for every width. -/
def Obligations.ImportUndoesExport : Prop :=
  ∀ (s : State) (rs1 rd : Reg) (addr len : BitVec 16),
    len.toNat = 8 * s.cfg.limbs → addr.toNat + 8 * s.cfg.limbs ≤ s.cfg.bufBytes →
    (∃ t u, exec (.stbe rs1 addr) s = .next t ∧ exec (.ldbe rd addr len) t = .next u ∧ u.val rd = s.val rs1) ∧
    ∃ t u, exec (.stle rs1 addr) s = .next t ∧ exec (.ldle rd addr len) t = .next u ∧ u.val rd = s.val rs1

/-- R51, R381, R393: a command that reads a buffer byte not written since reset has the model outcome UninitRead. That
the outcome names a byte, and the first such byte of the access, is the model's choice (log 2). -/
def Obligations.UnwrittenByteStopsTheReader : Prop :=
  ∀ (s : State) (rd : Reg) (addr len : BitVec 16) (radix e : Nat),
    addr.toNat + len.toNat ≤ s.cfg.bufBytes → addr.toNat ≤ e → e < addr.toNat + len.toNat →
    s.readByte e = none → (∀ a, addr.toNat ≤ a → a < e → s.readByte a ≠ none) →
    (len.toNat ≤ 8 * s.cfg.limbs →
      exec (.ldbe rd addr len) s = .fault (.uninitRead e) ∧ exec (.ldle rd addr len) s = .fault (.uninitRead e)) ∧
    exec (.parsedec rd addr len) s = .fault (.uninitRead e) ∧
    exec (.parsehex rd addr len) s = .fault (.uninitRead e) ∧
    exec (.parser rd addr len radix) s = .fault (.uninitRead e)

/-! ### Text (46_conversion.md sections 2 and 3) -/

/-- R290: the digit value of every byte: `0`-`9`, then `a`-`z` and `A`-`Z` alike, each a digit only below the radix;
every other byte is INVALID. -/
def Obligations.DigitValuesAreThoseOfTheThirtySixCharacters : Prop :=
  ∀ (c : Byte) (b d : Nat),
    digitVal c b = some d ↔
      d < b ∧ ((d < 10 ∧ c.toNat = 0x30 + d) ∨
        (10 ≤ d ∧ d < 36 ∧ (c.toNat = 0x61 + (d - 10) ∨ c.toNat = 0x41 + (d - 10))))

/-- R291 to R294: with its text in the buffer, a parse command writes the value and PERR = 0, or the code of the
first error in reading order and no register; a parse error is no fault. PARSEHEX drops a leading `0x`. A text that is
not all in the buffer raises `BUFFER_RANGE`. -/
def Obligations.ParseCommandsWriteTheValueOrTheFirstError : Prop :=
  ∀ (s : State) (rd : Reg) (addr len : BitVec 16) (radix : Nat) (dec hex any : Word), radixOk radix = true →
    dec = packWord 0x64 rd 0 0 0 0 (addr.toNat + 2 ^ 16 * len.toNat) →
    hex = packWord 0x65 rd 0 0 0 0 (addr.toNat + 2 ^ 16 * len.toNat) →
    any = packWord 0x66 rd 0 0 0 radix (addr.toNat + 2 ^ 16 * len.toNat) →
    CommandWords (.parsedec rd addr len) dec none ∧ CommandWords (.parsehex rd addr len) hex none ∧
    CommandWords (.parser rd addr len radix) any none ∧
    (s.cfg.bufBytes < addr.toNat + len.toNat →
      (∃ t, exec (.parsedec rd addr len) s = .next t ∧ FaultEntered s t .bufferRange dec 0) ∧
      (∃ t, exec (.parsehex rd addr len) s = .next t ∧ FaultEntered s t .bufferRange hex 0) ∧
      ∃ t, exec (.parser rd addr len radix) s = .next t ∧ FaultEntered s t .bufferRange any 0) ∧
    ∀ ds body : List Byte, addr.toNat + len.toNat ≤ s.cfg.bufBytes → ds.length = len.toNat →
      HasBytes s addr.toNat ds → (ds = 0x30 :: 0x78 :: body ∨ (ds = body ∧ ∀ rest, ds ≠ 0x30 :: 0x78 :: rest)) →
      (∃ k t, ParseOutcome s.cfg.width 10 ds k ∧ exec (.parsedec rd addr len) s = .next t ∧ ParseEffect s t rd k) ∧
      (∃ k t, ParseOutcome s.cfg.width 16 body k ∧ exec (.parsehex rd addr len) s = .next t ∧
        ParseEffect s t rd k) ∧
      ∃ k t, ParseOutcome s.cfg.width radix ds k ∧ exec (.parser rd addr len radix) s = .next t ∧
        ParseEffect s t rd k

/-- R300 to R304: with the text inside the buffer, a format command writes the digits of the value, most significant
first and without leading zeros, at `ADDR`, and the text's length to `vRD`; nothing else changes. Where the text would
not be inside the buffer it raises `BUFFER_RANGE`. -/
def Obligations.FormatCommandsWriteTheDigitsAndTheirCount : Prop :=
  ∀ (s : State) (rd rs1 : Reg) (addr : BitVec 16) (radix fn : Nat) (o : HexOptions),
    s.cfg.Legal → radixOk radix = true → fn = o.upper.toNat + 2 * o.zeroX.toNat →
    (CommandWords (.fmtdec rd rs1 addr) (packWord 0x67 rd rs1 0 0 0 addr.toNat) none ∧
      ∃ t, exec (.fmtdec rd rs1 addr) s = .next t ∧
        if addr.toNat + digitCount 10 (s.val rs1) ≤ s.cfg.bufBytes then
          FormatEffect s t rd addr.toNat (digitText 10 (s.val rs1) false)
        else FaultEntered s t .bufferRange (packWord 0x67 rd rs1 0 0 0 addr.toNat) 0) ∧
    (CommandWords (.fmthex rd rs1 addr o) (packWord 0x68 rd rs1 0 0 fn addr.toNat) none ∧
      ∃ t, exec (.fmthex rd rs1 addr o) s = .next t ∧
        if addr.toNat + (digitCount 16 (s.val rs1) + 2 * o.zeroX.toNat) ≤ s.cfg.bufBytes then
          FormatEffect s t rd addr.toNat
            ((if o.zeroX then [0x30, 0x78] else []) ++ digitText 16 (s.val rs1) o.upper)
        else FaultEntered s t .bufferRange (packWord 0x68 rd rs1 0 0 fn addr.toNat) 0) ∧
    (CommandWords (.fmtr rd rs1 addr radix) (packWord 0x69 rd rs1 0 0 radix addr.toNat) none ∧
      ∃ t, exec (.fmtr rd rs1 addr radix) s = .next t ∧
        if addr.toNat + digitCount radix (s.val rs1) ≤ s.cfg.bufBytes then
          FormatEffect s t rd addr.toNat (digitText radix (s.val rs1) false)
        else FaultEntered s t .bufferRange (packWord 0x69 rd rs1 0 0 radix addr.toNat) 0)

/-- R305: parsing the text a format command wrote gives the value back with PERR = 0: in decimal, in hexadecimal with
any options, and in every radix. The text is one whose length the 16-bit LEN of the parse command can hold. -/
def Obligations.ParseUndoesFormat : Prop :=
  ∀ (s : State) (rl rx ry : Reg) (addr len : BitVec 16) (radix : Nat) (o : HexOptions),
    s.cfg.Legal → radixOk radix = true →
    (len.toNat = digitCount 10 (s.val rx) → addr.toNat + len.toNat ≤ s.cfg.bufBytes →
      ∃ t u, exec (.fmtdec rl rx addr) s = .next t ∧ t.val rl = len.toNat ∧
        exec (.parsedec ry addr len) t = .next u ∧ u.val ry = s.val rx ∧ u.flags.perr = .ok) ∧
    (len.toNat = digitCount 16 (s.val rx) + 2 * o.zeroX.toNat → addr.toNat + len.toNat ≤ s.cfg.bufBytes →
      ∃ t u, exec (.fmthex rl rx addr o) s = .next t ∧ t.val rl = len.toNat ∧
        exec (.parsehex ry addr len) t = .next u ∧ u.val ry = s.val rx ∧ u.flags.perr = .ok) ∧
    (len.toNat = digitCount radix (s.val rx) → addr.toNat + len.toNat ≤ s.cfg.bufBytes →
      ∃ t u, exec (.fmtr rl rx addr radix) s = .next t ∧ t.val rl = len.toNat ∧
        exec (.parser ry addr len radix) t = .next u ∧ u.val ry = s.val rx ∧ u.flags.perr = .ok)

/-! ### Float conversions and square root (46_conversion.md section 4, 47_isqrt.md) -/

/-- R310, R311: F2U of the pattern in limb 0: NaN, negative numbers, zeros and subnormals give 0, +inf gives the
maximum, and any other value is rounded down and limited to the maximum. -/
def Obligations.FloatToIntegerFloorsAndClamps : Prop :=
  ∀ (s : State) (rd rs1 : Reg) (p e f : Nat),
    p = s.val rs1 % 2 ^ 64 → e = p / 2 ^ 52 % 2 ^ 11 → f = p % 2 ^ 52 →
    CommandWords (.f2u rd rs1) (packWord 0x6A rd rs1 0 0 0 0) none ∧
    ∃ t, exec (.f2u rd rs1) s = .next t ∧
      WritesReg s t rd
        (if e = 0x7FF ∧ f ≠ 0 then 0
        else if 2 ^ 63 ≤ p then 0
        else if e = 0x7FF then 2 ^ s.cfg.width - 1
        else if e = 0 then 0
        else min (2 ^ s.cfg.width - 1) ⌊((2 ^ 52 + f : ℕ) : ℚ) * (2 : ℚ) ^ ((e : ℤ) - 1075)⌋₊)

/-- R312, R313: U2F gives the pattern of `x` exactly below `2^53` (0 for 0), and from there on the pattern of one of
the two binary64 values adjacent to `x`; which one is the open parameter F64_ROUND, and the statement holds for
either. -/
def Obligations.IntegerToFloatIsExactOrAdjacent : Prop :=
  ∀ (s : State) (rd rs1 : Reg), s.cfg.Legal →
    CommandWords (.u2f rd rs1) (packWord 0x6B rd rs1 0 0 0 0) none ∧
    ∃ t p, exec (.u2f rd rs1) s = .next t ∧ WritesReg s t rd p ∧ p < 2 ^ 64 ∧
      (s.val rs1 = 0 → p = 0) ∧
      (0 < s.val rs1 → s.val rs1 < 2 ^ 53 → F64Finite p ∧ f64Value p = s.val rs1) ∧
      (2 ^ 53 ≤ s.val rs1 → F64Adjacent (s.val rs1) p)

/-- R314: F2U undoes U2F on every value below `2^53`. -/
def Obligations.FloatRoundTripBelowTwoToThe53 : Prop :=
  ∀ (s : State) (rd rd2 rs1 : Reg), s.cfg.Legal → s.val rs1 < 2 ^ 53 →
    ∃ t u, exec (.u2f rd rs1) s = .next t ∧ exec (.f2u rd2 rd) t = .next u ∧ u.val rd2 = s.val rs1

/-- R350 to R352: ISQRT gives the `r` with `r^2 <= x < (r+1)^2`. -/
def Obligations.SquareRootIsTheFloorOfTheRoot : Prop :=
  ∀ (s : State) (rd rs1 : Reg),
    CommandWords (.isqrt rd rs1) (packWord 0x70 rd rs1 0 0 0 0) none ∧
    ∃ t r, exec (.isqrt rd rs1) s = .next t ∧ WritesReg s t rd r ∧
      r * r ≤ s.val rs1 ∧ s.val rs1 < (r + 1) * (r + 1)

/-! ### Datapaths -/

/-- R140: the ripple-carry chain over the limbs of two registers gives the limbs of what ADD.O writes, and its carry
out is the OV that ADD.O writes. -/
def Obligations.RippleCarryAdderGivesAddO : Prop :=
  ∀ (s : State) (rd rs1 rs2 : Reg) (ls : List Word) (c : Nat),
    rippleAdd 0 (limbsOf s.cfg.limbs (s.val rs1)) (limbsOf s.cfg.limbs (s.val rs2)) = (ls, c) →
    ∃ t, exec (.addO rd rs1 rs2) s = .next t ∧ limbsOf s.cfg.limbs (t.val rd) = ls ∧ c = t.flags.ov.toNat

/-- R141: the chain with borrows gives the limbs and the flag that SUB.O writes. -/
def Obligations.RippleBorrowSubtractorGivesSubO : Prop :=
  ∀ (s : State) (rd rs1 rs2 : Reg) (ls : List Word) (c : Nat),
    rippleSub 0 (limbsOf s.cfg.limbs (s.val rs1)) (limbsOf s.cfg.limbs (s.val rs2)) = (ls, c) →
    ∃ t, exec (.subO rd rs1 rs2) s = .next t ∧ limbsOf s.cfg.limbs (t.val rd) = ls ∧ c = t.flags.ov.toNat

/-- R170, R171: the schoolbook multipliers give the limbs of what MUL.W writes, and of the two halves MULW writes. -/
def Obligations.SchoolbookMultipliersGiveMulwAndMulW : Prop :=
  ∀ (s : State) (rd rd2 rs1 rs2 : Reg) (a b : List Word), rd ≠ rd2 →
    a = limbsOf s.cfg.limbs (s.val rs1) → b = limbsOf s.cfg.limbs (s.val rs2) →
    (∃ t, exec (.mulW rd rs1 rs2) s = .next t ∧ limbsOf s.cfg.limbs (t.val rd) = mulNarrow s.cfg.limbs a b) ∧
    ∃ t, exec (.mulWide rd rd2 rs1 rs2) s = .next t ∧
      limbsOf s.cfg.limbs (t.val rd) ++ limbsOf s.cfg.limbs (t.val rd2) = mulWideLimbs s.cfg.limbs a b

/-- R109: comparing limbs from the most significant, the first that differ deciding, is comparing the values. -/
def Obligations.LimbComparatorIsTheOrderOfTheValues : Prop :=
  ∀ (s : State) (rs1 rs2 : Reg),
    compareLimbs (limbsOf s.cfg.limbs (s.val rs1)) (limbsOf s.cfg.limbs (s.val rs2)) =
      compare (s.val rs1) (s.val rs2)

/-- R202, R203: for a divisor of one limb, the pass over the dividend's limbs from the most significant gives the
quotient's limbs and the remainder that DIVMOD writes. -/
def Obligations.SingleLimbDivisionGivesDivmod : Prop :=
  ∀ (s : State) (rd rd2 rs1 rs2 : Reg) (qs : List Word) (r : Nat),
    rd ≠ rd2 → 0 < s.val rs2 → s.val rs2 < 2 ^ 64 →
    divSingle (s.val rs2) 0 (limbsOf s.cfg.limbs (s.val rs1)).reverse = (qs, r) →
    ∃ t, exec (.divmod rd rd2 rs1 rs2) s = .next t ∧ limbsOf s.cfg.limbs (t.val rd) = qs.reverse ∧
      t.val rd2 = r

/-- R200, R204: for a divisor of `n >= 2` significant limbs, normalization, digit estimation, correction and add-back
give the quotient and remainder that DIVMOD writes. -/
def Obligations.MultiLimbDivisionGivesDivmod : Prop :=
  ∀ (s : State) (rd rd2 rs1 rs2 : Reg) (n : Nat),
    rd ≠ rd2 → 2 ≤ n → 2 ^ (64 * (n - 1)) ≤ s.val rs2 → s.val rs2 < 2 ^ (64 * n) →
    ∃ t, exec (.divmod rd rd2 rs1 rs2) s = .next t ∧
      divMulti s.cfg.limbs n (s.val rs1) (s.val rs2) = (t.val rd, t.val rd2)

/-- R230: the limb formulas of the shifts, a whole-limb move composed with a sub-limb shift, give every limb of what
SHLI and SHRI write, for amounts below `W`. -/
def Obligations.LimbShiftFormulasGiveShliAndShri : Prop :=
  ∀ (s : State) (rd rs1 : Reg) (imm : BitVec 32), imm.toNat < s.cfg.width →
    (∃ t, exec (.shli rd rs1 imm) s = .next t ∧
      ∀ j, j < s.cfg.limbs → limb (t.val rd) j = shlLimb (s.val rs1) imm.toNat j) ∧
    ∃ t, exec (.shri rd rs1 imm) s = .next t ∧
      ∀ j, j < s.cfg.limbs → limb (t.val rd) j = shrLimb (s.val rs1) imm.toNat j

/-! ### The whole machine -/

/-- R38, R420: the machine right after reset is RUNNING, FLAGS, FAULT, FAULTCMD and FAULTLIT are 0, no register has
been written and no buffer byte holds a value; and it meets the invariant. -/
def Obligations.ResetStateIsRunningAndMeetsTheInvariant : Prop :=
  State.reset.flags.bits = 0 ∧ State.reset.faultBits = 0 ∧ State.reset.faultCmd = 0 ∧
    State.reset.faultLit = 0 ∧ (∀ r : Reg, State.reset.written[r] = false) ∧
    (∀ a, State.reset.readByte a = none) ∧ Inv State.reset

/-- R420, R397: the host's Reset, in RUNNING or in STOPPED, sets FLAGS, FAULT, FAULTCMD and FAULTLIT to 0, and no
register counts as written and no buffer byte holds a value after it; the instance and ID stay. -/
def Obligations.ResetOperationClearsTheEngine : Prop :=
  ∀ (s : State) (rest : List HostOp), s.host = .reset :: rest →
    ∃ t, step s = .next t ∧ t.flags.bits = 0 ∧ t.faultBits = 0 ∧ t.faultCmd = 0 ∧ t.faultLit = 0 ∧
      (∀ r : Reg, t.written[r] = false) ∧ (∀ a, t.readByte a = none) ∧ idBits t.cfg = idBits s.cfg ∧
      t.cfg = s.cfg ∧ t.host = rest ∧ t.reply = some .nothing

/-- The model's invariant (R7, R30, R50; the canonical form is the model's own): every step from a state that meets it
gives a state that meets it, and no step changes the instance (R8). -/
def Obligations.EveryStepKeepsTheInvariant : Prop :=
  ∀ s t : State, Inv s → step s = .next t → Inv t ∧ t.cfg = s.cfg

/-- R390 to R393, R395: a RUNNING engine raises exactly the cause the table of R390 gives for the command, the first
in the order of R392, and a command that raises has no other effect. -/
def Obligations.CommandsFaultExactlyAsTabulated : Prop :=
  ∀ (i : Instr) (s t : State), i.wellFormed = true → s.fault = none → exec i s = .next t →
    t.fault = raisedCause i s ∧
      ∀ c, raisedCause i s = some c → FaultEntered s t c (encode i).1 ((encode i).2.getD 0)

/-- R31, R396, R397: once a fault has been entered, no step but the host's Reset changes FAULT, FAULTCMD or FAULTLIT;
they keep the values of the first fault. -/
def Obligations.FirstFaultStaysUntilReset : Prop :=
  ∀ (s t : State) (c : Cause), s.fault = some c → s.host.head? ≠ some .reset → step s = .next t →
    t.fault = some c ∧ t.faultCmd = s.faultCmd ∧ t.faultLit = s.faultLit

/-- R26, R27: only the commands the rules name change FLAGS.OV, and only the parse commands and CLRF change
FLAGS.PERR. -/
def Obligations.OnlyNamedCommandsChangeFlags : Prop :=
  ∀ (i : Instr) (s t : State), exec i s = .next t →
    (writesOv i = false → t.flags.ov = s.flags.ov) ∧ (writesPerr i = false → t.flags.perr = s.flags.perr)

/-- R50, R72: only the store and format commands change a byte of the buffer, and no command changes a register that
is not one of its destinations. -/
def Obligations.CommandsChangeOnlyTheirDestinations : Prop :=
  ∀ (i : Instr) (s t : State), exec i s = .next t →
    (writesBuffer i = false → SameBuffer s t) ∧
      (∀ r : Reg, r ∉ destinations i → t.val r = s.val r ∧ t.written[r] = s.written[r]) ∧
      t.cfg = s.cfg ∧ t.host = s.host ∧ t.reply = s.reply

/-- R24, R381: a command that reads no register left unwritten since reset gives the same outcome whatever the
unwritten registers hold; so no claim about such commands rests on the value the model gives registers at reset. -/
def Obligations.UnwrittenRegistersDoNotMatter : Prop :=
  ∀ (i : Instr) (s s' : State), AgreeOnWritten s s' → ¬ readsUnwritten i s →
    (∀ t, exec i s = .next t → ∃ t', exec i s' = .next t' ∧ AgreeOnWritten t t') ∧
      ∀ f, exec i s = .fault f → exec i s' = .fault f

/-- R381, R391: no command is refused, and a command stops the model only as UninitRead of a byte its own access
covers and that holds no value. That an unwritten register is no such stop is the model's choice: R381 lets a model stop
there too, and this one goes on with the register's value at reset (log 1). -/
def Obligations.CommandsStopOnlyOnUnwrittenBytes : Prop :=
  ∀ (i : Instr) (s : State),
    (∀ r, exec i s ≠ .refused r) ∧
      ∀ f, exec i s = .fault f →
        ∃ e a n, f = .uninitRead e ∧ bufferAccess i s = some (a, n) ∧ a ≤ e ∧ e < a + n ∧
          a + n ≤ s.cfg.bufBytes ∧ s.readByte e = none

/-! ### Host access (60_exceptions.md section 6) -/

/-- R402: the host's reads change nothing of the engine, in RUNNING and in STOPPED, and return the register, FLAGS with
the codes of R25, FAULT with the codes of R390, FAULTCMD, FAULTLIT and ID.
A register not written since reset is read as the model's reset value (log 1). -/
def Obligations.HostReadsReturnTheStateUnchanged : Prop :=
  ∀ (s : State) (r : Reg) (rest : List HostOp) (op : HostOp) (reply : Reply),
    (op, reply) ∈ [(HostOp.readReg r, Reply.value (s.val r)),
      (.readFlags, .flags ((if s.flags.ov then 1 else 0) + match s.flags.perr with
        | .ok => 0x00
        | .invalidDigit => 0x02
        | .overflow => 0x04
        | .empty => 0x06)),
      (.readFault, .fault (match s.fault with
        | none => 0x0000
        | some .illegalCommand => 0x0101
        | some .divideByZero => 0x0201
        | some .bufferRange => 0x0301
        | some .badLength => 0x0401
        | some .badIndex => 0x0501
        | some .operandConflict => 0x0601)),
      (.readFaultCmd, .word s.faultCmd), (.readFaultLit, .word s.faultLit),
      (.readId, .word (idBits s.cfg))] →
    s.host = op :: rest →
      ∃ t, step s = .next t ∧ SameRegs s t ∧ t.flags = s.flags ∧ SameBuffer s t ∧ t.fault = s.fault ∧
        t.faultCmd = s.faultCmd ∧ t.faultLit = s.faultLit ∧ t.cfg = s.cfg ∧ t.host = rest ∧ t.reply = some reply

/-- R402: WriteReg writes its register and WriteBuf its bytes, in RUNNING and in STOPPED; ReadBuf returns the bytes, or
has the model outcome UninitRead when one in range holds no value; a buffer access out of range is refused without
effect, and no host access changes FLAGS or the fault registers. That UninitRead names the first such byte is the
model's choice (log 2). -/
def Obligations.HostWritesAndBufferAccesses : Prop :=
  ∀ (s : State) (r : Reg) (x a : Nat) (bs : List Byte) (rest : List HostOp),
    (s.host = .writeReg r x :: rest → x < 2 ^ s.cfg.width →
      ∃ t, step s = .next t ∧ OnlyReg s t r x ∧ SameBuffer s t ∧ t.flags = s.flags ∧ t.fault = s.fault ∧
        t.faultCmd = s.faultCmd ∧ t.faultLit = s.faultLit ∧ t.host = rest ∧ t.reply = some .nothing) ∧
    (s.host = .writeBuf a bs :: rest →
      ∃ t, step s = .next t ∧ SameRegs s t ∧ t.flags = s.flags ∧ t.fault = s.fault ∧
        t.faultCmd = s.faultCmd ∧ t.faultLit = s.faultLit ∧ t.host = rest ∧
        if a + bs.length ≤ s.cfg.bufBytes then BufferHolds s t a bs ∧ t.reply = some .nothing
        else SameBuffer s t ∧ t.reply = some .refusedAccess) ∧
    (s.host = .readBuf a bs.length :: rest → (a + bs.length ≤ s.cfg.bufBytes → HasBytes s a bs) →
      ∃ t, step s = .next t ∧ SameRegs s t ∧ SameBuffer s t ∧ t.flags = s.flags ∧ t.fault = s.fault ∧
        t.faultCmd = s.faultCmd ∧ t.faultLit = s.faultLit ∧ t.host = rest ∧
        t.reply = some (if a + bs.length ≤ s.cfg.bufBytes then .bytes bs else .refusedAccess)) ∧
    ∀ n e : Nat, s.host = .readBuf a n :: rest → a + n ≤ s.cfg.bufBytes → a ≤ e → e < a + n → s.readByte e = none →
      (∀ k, a ≤ k → k < e → s.readByte k ≠ none) → step s = .fault (.uninitRead e)

/-- R33: the fields of ID on a legal instance. -/
def Obligations.IdHoldsTheInstanceParameters : Prop :=
  ∀ c : Config, c.Legal →
    slice (idBits c) 15 0 = c.limbs ∧ slice (idBits c) 23 16 = 16 ∧ slice (idBits c) 31 24 = 1 ∧
      slice (idBits c) 63 32 = c.bufBytes

/-- R37, R8: the machine's step is the step of the engine of its instance, which has the parameters as an argument and
not in its state: performing the host's next operation on the engine gives the engine and the reply of the next state,
with the rest of the host's list and the same instance, and the same stop where it stops. Every state is made of an
engine in this way. (The list, the reply and the place of the parameters are the model's own: log 3, log 5, log 6.) -/
def Obligations.StepIsTheStepOfTheEngineOfItsInstance : Prop :=
  (∀ s : State, (Engine.ofState s.cfg s).toState s.host s.reply = s) ∧
  ∀ (c : Config) (e : Engine c) (op : HostOp) (ops : List HostOp) (reply : Option Reply),
    step (e.toState (op :: ops) reply) =
      match stepOf c op e with
      | .next (e', r) => .next (e'.toState ops r)
      | .fault f => .fault f
      | .refused r => .refused r
end

