-- ==== Sys2Proof/Laws/Decode.lean ====
section
/-!
SUPPORT. The fields of a packed command word (spec/30_encoding.md R71), so that no proof about the decoder or the
encoder unfolds the packing again.
-/

namespace Sys2Proof

/-- A packed word is the sum of its fields, each at its place. -/
theorem packWord_toNat {opc rd rs1 rs2 rd2 fn imm : Nat} (ho : opc < 256) (hd : rd < 16) (h1 : rs1 < 16)
    (h2 : rs2 < 16) (hd2 : rd2 < 16) (hf : fn < 256) (hi : imm < 2 ^ 32) :
    (packWord opc rd rs1 rs2 rd2 fn imm).toNat =
      opc + 256 * rd + 4096 * rs1 + 65536 * rs2 + 1048576 * rd2 + 16777216 * fn + 4294967296 * imm := by
  simp only [packWord, BitVec.toNat_ofNat]
  omega

section Fields

variable {opc : Nat} {rd rs1 rs2 rd2 : Reg} {fn imm : Nat}

/-- The fields of a packed word, each read back. -/
theorem packWord_fields (ho : opc < 256) (hf : fn < 256) (hi : imm < 2 ^ 32) :
    opcField (packWord opc rd rs1 rs2 rd2 fn imm) = opc ∧
    fnField (packWord opc rd rs1 rs2 rd2 fn imm) = fn ∧
    regField (packWord opc rd rs1 rs2 rd2 fn imm) 8 = rd ∧
    regField (packWord opc rd rs1 rs2 rd2 fn imm) 12 = rs1 ∧
    regField (packWord opc rd rs1 rs2 rd2 fn imm) 16 = rs2 ∧
    regField (packWord opc rd rs1 rs2 rd2 fn imm) 20 = rd2 ∧
    slice (packWord opc rd rs1 rs2 rd2 fn imm) 63 32 = imm ∧
    slice (packWord opc rd rs1 rs2 rd2 fn imm) 47 32 = imm % 2 ^ 16 ∧
    slice (packWord opc rd rs1 rs2 rd2 fn imm) 63 48 = imm / 2 ^ 16 := by
  have h := packWord_toNat ho rd.isLt rs1.isLt rs2.isLt rd2.isLt hf hi
  have h0 := rd.isLt
  have h1 := rs1.isLt
  have h2 := rs2.isLt
  have h3 := rd2.isLt
  refine ⟨?_, ?_, ?_, ?_, ?_, ?_, ?_, ?_, ?_⟩
  case refine_3 => exact Fin.ext (by simp only [regField, Fin.ofNat, slice, h]; omega)
  case refine_4 => exact Fin.ext (by simp only [regField, Fin.ofNat, slice, h]; omega)
  case refine_5 => exact Fin.ext (by simp only [regField, Fin.ofNat, slice, h]; omega)
  case refine_6 => exact Fin.ext (by simp only [regField, Fin.ofNat, slice, h]; omega)
  all_goals (simp only [opcField, fnField, slice, h]; omega)

@[simp] theorem opcField_packWord (ho : opc < 256) (hf : fn < 256) (hi : imm < 2 ^ 32) :
    opcField (packWord opc rd rs1 rs2 rd2 fn imm) = opc := (packWord_fields ho hf hi).1

@[simp] theorem fnField_packWord (ho : opc < 256) (hf : fn < 256) (hi : imm < 2 ^ 32) :
    fnField (packWord opc rd rs1 rs2 rd2 fn imm) = fn := (packWord_fields ho hf hi).2.1

/-- All operand fields of a packed word at once. -/
@[simp] theorem fieldsOf_packWord (ho : opc < 256) (hf : fn < 256) (hi : imm < 2 ^ 32) (lit : Word) :
    fieldsOf (packWord opc rd rs1 rs2 rd2 fn imm) lit =
      { rd := rd, rs1 := rs1, rs2 := rs2, rd2 := rd2, imm := BitVec.ofNat 32 imm,
        addr := BitVec.ofNat 16 imm, len := BitVec.ofNat 16 (imm / 2 ^ 16), lit := lit } := by
  obtain ⟨-, -, e1, e2, e3, e4, e5, e6, e7⟩ :=
    packWord_fields (rd := rd) (rs1 := rs1) (rs2 := rs2) (rd2 := rd2) ho hf hi
  simp only [fieldsOf, e1, e2, e3, e4, e5, e6, e7]
  congr 1
  exact BitVec.eq_of_toNat_eq (by simp)

/-- What a format finds in the fields it does not use (R72). -/
theorem unusedZero_packWord (f : Format) (ho : opc < 256) (hf : fn < 256) (hi : imm < 2 ^ 32) :
    f.unusedZero (packWord opc rd rs1 rs2 rd2 fn imm) = true ↔
      match f with
      | .n   => rd = 0 ∧ rs1 = 0 ∧ rs2 = 0 ∧ rd2 = 0 ∧ fn = 0 ∧ imm = 0
      | .d   => rs1 = 0 ∧ rs2 = 0 ∧ rd2 = 0 ∧ fn = 0 ∧ imm = 0
      | .r2  => rs2 = 0 ∧ rd2 = 0 ∧ fn = 0 ∧ imm = 0
      | .r2f => rs2 = 0 ∧ rd2 = 0 ∧ imm = 0
      | .r3  => rd2 = 0 ∧ imm = 0
      | .r4  => fn = 0 ∧ imm = 0
      | .ri  => rs2 = 0 ∧ rd2 = 0 ∧ fn = 0
      | .i   => rs1 = 0 ∧ rs2 = 0 ∧ rd2 = 0 ∧ fn = 0
      | .l   => rs2 = 0 ∧ rd2 = 0 ∧ fn = 0
      | .md  => rs1 = 0 ∧ rs2 = 0 ∧ rd2 = 0 ∧ fn = 0
      | .mdf => rs1 = 0 ∧ rs2 = 0 ∧ rd2 = 0
      | .ms  => rd = 0 ∧ rs2 = 0 ∧ rd2 = 0 ∧ fn = 0 ∧ imm < 2 ^ 16
      | .mf  => rs2 = 0 ∧ rd2 = 0 ∧ fn = 0 ∧ imm < 2 ^ 16
      | .mff => rs2 = 0 ∧ rd2 = 0 ∧ imm < 2 ^ 16 := by
  have h := packWord_toNat ho rd.isLt rs1.isLt rs2.isLt rd2.isLt hf hi
  have h0 := rd.isLt
  have h1 := rs1.isLt
  have h2 := rs2.isLt
  have h3 := rd2.isLt
  cases f <;>
    simp only [Format.unusedZero, slice, h, Bool.and_eq_true, beq_iff_eq, Fin.ext_iff, Fin.val_zero] <;> omega

end Fields

/-- The number of the register a field names. -/
theorem regField_val (w : Word) (lo : Nat) : ((regField w lo : Reg) : Nat) = slice w (lo + 3) lo := by
  simp [regField, slice]

/-- A word is packed from its own fields. -/
theorem packWord_slices (w : Word) :
    packWord (opcField w) (slice w 11 8) (slice w 15 12) (slice w 19 16) (slice w 23 20) (fnField w) (slice w 63 32)
      = w := by
  apply BitVec.eq_of_toNat_eq
  have := w.isLt
  simp only [packWord, opcField, fnField, slice, BitVec.toNat_ofNat]
  omega

/-- The decoder on a packed word: the row of its `OPC` and `FN`, when the unused fields are zero and there is a second
word exactly for `LDL` (R78, R79). -/
theorem decode_packWord {opc fn imm : Nat} {rd rs1 rs2 rd2 : Reg} {lit : Option Word} (f : Format) {i : Instr}
    (ho : opc < 256) (hf : fn < 256) (hi : imm < 2 ^ 32) (hl : lit.isSome = (opc == 0x04))
    (hrow : opcodeRow opc fn
      { rd := rd, rs1 := rs1, rs2 := rs2, rd2 := rd2, imm := BitVec.ofNat 32 imm,
        addr := BitVec.ofNat 16 imm, len := BitVec.ofNat 16 (imm / 2 ^ 16), lit := lit.getD 0 } = some (f, i))
    (hu : f.unusedZero (packWord opc rd rs1 rs2 rd2 fn imm) = true) :
    decode (packWord opc rd rs1 rs2 rd2 fn imm) lit = .ok i := by
  unfold decode
  rw [opcField_packWord ho hf hi, fnField_packWord ho hf hi, fieldsOf_packWord ho hf hi]
  simp only [hrow, hu, isTwoWords, opcField_packWord ho hf hi]
  simp [hl]

/-- A packed pair of buffer operands fits in `IMM`, and its halves are `ADDR` and `LEN`. -/
theorem packMem_lt (addr len : BitVec 16) : packMem addr len < 2 ^ 32 := by
  have := addr.isLt
  have := len.isLt
  simp only [packMem]
  omega

@[simp] theorem addr_packMem (addr len : BitVec 16) : BitVec.ofNat 16 (packMem addr len) = addr :=
  BitVec.eq_of_toNat_eq (by have := addr.isLt; simp only [packMem, BitVec.toNat_ofNat]; omega)

@[simp] theorem len_packMem (addr len : BitVec 16) : BitVec.ofNat 16 (packMem addr len / 2 ^ 16) = len :=
  BitVec.eq_of_toNat_eq (by
    have := addr.isLt
    have := len.isLt
    simp only [packMem, BitVec.toNat_ofNat]
    omega)

/-- The width code of `NARROW` and its inverse. -/
@[simp] theorem NarrowWidth.ofFn_fn (c : NarrowWidth) : NarrowWidth.ofFn c.fn = some c := by cases c <;> rfl

theorem NarrowWidth.fn_lt (c : NarrowWidth) : c.fn < 256 := by cases c <;> decide

/-- The options of `FMTHEX` and their inverse. -/
@[simp] theorem HexOptions.ofFn_fn (o : HexOptions) : HexOptions.ofFn o.fn = some o := by
  obtain ⟨u, p⟩ := o
  cases u <;> cases p <;> rfl

theorem HexOptions.fn_lt (o : HexOptions) : o.fn < 256 := by
  obtain ⟨u, p⟩ := o
  cases u <;> cases p <;> decide

theorem radixOk_iff (b : Nat) : radixOk b = true ↔ 2 ≤ b ∧ b ≤ 36 := by simp [radixOk]

end Sys2Proof
end

