-- ==== Sys2Proof/Laws/State.lean ====
section
/-!
SUPPORT. What each update of the state does to each field, one lemma a field, so that no proof unfolds a record
update. Every one holds by unfolding the update.
-/

namespace Sys2Proof.Machine

/-! ### `setReg` -/

@[simp] theorem State.setReg_cfg (s : State) (r : Reg) (e : Nat) : (s.setReg r e).cfg = s.cfg := rfl
@[simp] theorem State.setReg_flags (s : State) (r : Reg) (e : Nat) : (s.setReg r e).flags = s.flags := rfl
@[simp] theorem State.setReg_fault (s : State) (r : Reg) (e : Nat) : (s.setReg r e).fault = s.fault := rfl
@[simp] theorem State.setReg_faultCmd (s : State) (r : Reg) (e : Nat) : (s.setReg r e).faultCmd = s.faultCmd := rfl
@[simp] theorem State.setReg_faultLit (s : State) (r : Reg) (e : Nat) : (s.setReg r e).faultLit = s.faultLit := rfl
@[simp] theorem State.setReg_mem (s : State) (r : Reg) (e : Nat) : (s.setReg r e).mem = s.mem := rfl
@[simp] theorem State.setReg_readByte (s : State) (r : Reg) (e : Nat) (q : Nat) : (s.setReg r e).readByte q = s.readByte q := rfl
@[simp] theorem State.setReg_host (s : State) (r : Reg) (e : Nat) : (s.setReg r e).host = s.host := rfl
@[simp] theorem State.setReg_reply (s : State) (r : Reg) (e : Nat) : (s.setReg r e).reply = s.reply := rfl
@[simp] theorem State.setReg_written (s : State) (r : Reg) (e : Nat) (q : Reg) :
    (s.setReg r e).written[q.val] = (decide (q = r) || s.written[q.val]) := by
  by_cases h : q = r
  · simp [State.setReg, h]
  · simp [State.setReg, h, Fin.val_inj, Ne.symm h]
/-- The register written holds the value modulo `2^W` (R11). -/
@[simp] theorem State.setReg_val_self (s : State) (r : Reg) (e : Nat) :
    (s.setReg r e).val r = e % 2 ^ s.cfg.width := by
  change ((s.regs.set r.val (BitVec.ofNat s.cfg.width e) r.isLt)[r.val]'r.isLt).toNat = _
  simp
/-- Every other register keeps its value. -/
theorem State.setReg_val_of_ne (s : State) (r : Reg) (e : Nat) (q : Reg) (h : q ≠ r) :
    (s.setReg r e).val q = s.val q := by
  change ((s.regs.set r.val (BitVec.ofNat s.cfg.width e) r.isLt)[q.val]'q.isLt).toNat = _
  rw [Vector.getElem_set_ne _ _ (fun hv => h (Fin.ext hv.symm))]
  rfl
/-- A write to a register, as seen from every register. -/
theorem State.setReg_val (s : State) (r : Reg) (e : Nat) (q : Reg) :
    (s.setReg r e).val q = if q = r then e % 2 ^ s.cfg.width else s.val q := by
  by_cases h : q = r
  · simp [h]
  · simp [h, State.setReg_val_of_ne]
/-- A register's value is below `2^W` (R10). -/
theorem State.val_lt (s : State) (r : Reg) : s.val r < 2 ^ s.cfg.width := (s.regs[r]).isLt

/-! ### `setOv` -/

@[simp] theorem State.setOv_cfg (s : State) (b : Bool) : (s.setOv b).cfg = s.cfg := rfl
@[simp] theorem State.setOv_val (s : State) (b : Bool) (q : Reg) : (s.setOv b).val q = s.val q := rfl
@[simp] theorem State.setOv_written (s : State) (b : Bool) : (s.setOv b).written = s.written := rfl
@[simp] theorem State.setOv_fault (s : State) (b : Bool) : (s.setOv b).fault = s.fault := rfl
@[simp] theorem State.setOv_faultCmd (s : State) (b : Bool) : (s.setOv b).faultCmd = s.faultCmd := rfl
@[simp] theorem State.setOv_faultLit (s : State) (b : Bool) : (s.setOv b).faultLit = s.faultLit := rfl
@[simp] theorem State.setOv_mem (s : State) (b : Bool) : (s.setOv b).mem = s.mem := rfl
@[simp] theorem State.setOv_readByte (s : State) (b : Bool) (q : Nat) : (s.setOv b).readByte q = s.readByte q := rfl
@[simp] theorem State.setOv_host (s : State) (b : Bool) : (s.setOv b).host = s.host := rfl
@[simp] theorem State.setOv_reply (s : State) (b : Bool) : (s.setOv b).reply = s.reply := rfl
@[simp] theorem State.setOv_ov (s : State) (b : Bool) : (s.setOv b).flags.ov = b := rfl
@[simp] theorem State.setOv_perr (s : State) (b : Bool) : (s.setOv b).flags.perr = s.flags.perr := rfl

/-! ### `setPerr` -/

@[simp] theorem State.setPerr_cfg (s : State) (c : ParseStatus) : (s.setPerr c).cfg = s.cfg := rfl
@[simp] theorem State.setPerr_val (s : State) (c : ParseStatus) (q : Reg) : (s.setPerr c).val q = s.val q := rfl
@[simp] theorem State.setPerr_written (s : State) (c : ParseStatus) : (s.setPerr c).written = s.written := rfl
@[simp] theorem State.setPerr_fault (s : State) (c : ParseStatus) : (s.setPerr c).fault = s.fault := rfl
@[simp] theorem State.setPerr_faultCmd (s : State) (c : ParseStatus) : (s.setPerr c).faultCmd = s.faultCmd := rfl
@[simp] theorem State.setPerr_faultLit (s : State) (c : ParseStatus) : (s.setPerr c).faultLit = s.faultLit := rfl
@[simp] theorem State.setPerr_mem (s : State) (c : ParseStatus) : (s.setPerr c).mem = s.mem := rfl
@[simp] theorem State.setPerr_readByte (s : State) (c : ParseStatus) (q : Nat) : (s.setPerr c).readByte q = s.readByte q := rfl
@[simp] theorem State.setPerr_host (s : State) (c : ParseStatus) : (s.setPerr c).host = s.host := rfl
@[simp] theorem State.setPerr_reply (s : State) (c : ParseStatus) : (s.setPerr c).reply = s.reply := rfl
@[simp] theorem State.setPerr_perr (s : State) (c : ParseStatus) : (s.setPerr c).flags.perr = c := rfl
@[simp] theorem State.setPerr_ov (s : State) (c : ParseStatus) : (s.setPerr c).flags.ov = s.flags.ov := rfl

/-! ### `writeBytes` -/

@[simp] theorem State.writeBytes_cfg (s : State) (a : Nat) (bs : List Byte) : (s.writeBytes a bs).cfg = s.cfg := rfl
@[simp] theorem State.writeBytes_val (s : State) (a : Nat) (bs : List Byte) (q : Reg) : (s.writeBytes a bs).val q = s.val q := rfl
@[simp] theorem State.writeBytes_written (s : State) (a : Nat) (bs : List Byte) : (s.writeBytes a bs).written = s.written := rfl
@[simp] theorem State.writeBytes_flags (s : State) (a : Nat) (bs : List Byte) : (s.writeBytes a bs).flags = s.flags := rfl
@[simp] theorem State.writeBytes_fault (s : State) (a : Nat) (bs : List Byte) : (s.writeBytes a bs).fault = s.fault := rfl
@[simp] theorem State.writeBytes_faultCmd (s : State) (a : Nat) (bs : List Byte) : (s.writeBytes a bs).faultCmd = s.faultCmd := rfl
@[simp] theorem State.writeBytes_faultLit (s : State) (a : Nat) (bs : List Byte) : (s.writeBytes a bs).faultLit = s.faultLit := rfl
@[simp] theorem State.writeBytes_host (s : State) (a : Nat) (bs : List Byte) : (s.writeBytes a bs).host = s.host := rfl
@[simp] theorem State.writeBytes_reply (s : State) (a : Nat) (bs : List Byte) : (s.writeBytes a bs).reply = s.reply := rfl
@[simp] theorem State.writeBytes_mem (s : State) (a : Nat) (bs : List Byte) :
    (s.writeBytes a bs).mem = Memory.writeList s.mem a bs := rfl

/-! ### `takeFault` -/

@[simp] theorem State.takeFault_cfg (s : State) (c : Cause) (ws : Word × Option Word) : (s.takeFault c ws).cfg = s.cfg := rfl
@[simp] theorem State.takeFault_val (s : State) (c : Cause) (ws : Word × Option Word) (q : Reg) : (s.takeFault c ws).val q = s.val q := rfl
@[simp] theorem State.takeFault_written (s : State) (c : Cause) (ws : Word × Option Word) : (s.takeFault c ws).written = s.written := rfl
@[simp] theorem State.takeFault_flags (s : State) (c : Cause) (ws : Word × Option Word) : (s.takeFault c ws).flags = s.flags := rfl
@[simp] theorem State.takeFault_mem (s : State) (c : Cause) (ws : Word × Option Word) : (s.takeFault c ws).mem = s.mem := rfl
@[simp] theorem State.takeFault_readByte (s : State) (c : Cause) (ws : Word × Option Word) (q : Nat) : (s.takeFault c ws).readByte q = s.readByte q := rfl
@[simp] theorem State.takeFault_host (s : State) (c : Cause) (ws : Word × Option Word) : (s.takeFault c ws).host = s.host := rfl
@[simp] theorem State.takeFault_reply (s : State) (c : Cause) (ws : Word × Option Word) : (s.takeFault c ws).reply = s.reply := rfl
@[simp] theorem State.takeFault_fault (s : State) (c : Cause) (ws : Word × Option Word) :
    (s.takeFault c ws).fault = some c := rfl
@[simp] theorem State.takeFault_faultCmd (s : State) (c : Cause) (ws : Word × Option Word) :
    (s.takeFault c ws).faultCmd = ws.1 := rfl
@[simp] theorem State.takeFault_faultLit (s : State) (c : Cause) (ws : Word × Option Word) :
    (s.takeFault c ws).faultLit = ws.2.getD 0 := rfl

/-! ### `answer` -/

@[simp] theorem State.answer_cfg (s : State) (r : Reply) : (s.answer r).cfg = s.cfg := rfl
@[simp] theorem State.answer_val (s : State) (r : Reply) (q : Reg) : (s.answer r).val q = s.val q := rfl
@[simp] theorem State.answer_written (s : State) (r : Reply) : (s.answer r).written = s.written := rfl
@[simp] theorem State.answer_flags (s : State) (r : Reply) : (s.answer r).flags = s.flags := rfl
@[simp] theorem State.answer_fault (s : State) (r : Reply) : (s.answer r).fault = s.fault := rfl
@[simp] theorem State.answer_faultCmd (s : State) (r : Reply) : (s.answer r).faultCmd = s.faultCmd := rfl
@[simp] theorem State.answer_faultLit (s : State) (r : Reply) : (s.answer r).faultLit = s.faultLit := rfl
@[simp] theorem State.answer_mem (s : State) (r : Reply) : (s.answer r).mem = s.mem := rfl
@[simp] theorem State.answer_readByte (s : State) (r : Reply) (q : Nat) : (s.answer r).readByte q = s.readByte q := rfl
@[simp] theorem State.answer_host (s : State) (r : Reply) : (s.answer r).host = s.host := rfl
@[simp] theorem State.answer_reply (s : State) (r : Reply) : (s.answer r).reply = some r := rfl

/-! ### `setHost` -/

@[simp] theorem State.setHost_cfg (s : State) (ops : List HostOp) : (s.setHost ops).cfg = s.cfg := rfl
@[simp] theorem State.setHost_val (s : State) (ops : List HostOp) (q : Reg) : (s.setHost ops).val q = s.val q := rfl
@[simp] theorem State.setHost_written (s : State) (ops : List HostOp) : (s.setHost ops).written = s.written := rfl
@[simp] theorem State.setHost_flags (s : State) (ops : List HostOp) : (s.setHost ops).flags = s.flags := rfl
@[simp] theorem State.setHost_fault (s : State) (ops : List HostOp) : (s.setHost ops).fault = s.fault := rfl
@[simp] theorem State.setHost_faultCmd (s : State) (ops : List HostOp) : (s.setHost ops).faultCmd = s.faultCmd := rfl
@[simp] theorem State.setHost_faultLit (s : State) (ops : List HostOp) : (s.setHost ops).faultLit = s.faultLit := rfl
@[simp] theorem State.setHost_mem (s : State) (ops : List HostOp) : (s.setHost ops).mem = s.mem := rfl
@[simp] theorem State.setHost_readByte (s : State) (ops : List HostOp) (q : Nat) : (s.setHost ops).readByte q = s.readByte q := rfl
@[simp] theorem State.setHost_reply (s : State) (ops : List HostOp) : (s.setHost ops).reply = s.reply := rfl
@[simp] theorem State.setHost_host (s : State) (ops : List HostOp) : (s.setHost ops).host = ops := rfl

/-! ### `restart` (R420) -/

@[simp] theorem State.restart_cfg (s : State) : s.restart.cfg = s.cfg := rfl
@[simp] theorem State.restart_flags (s : State) : s.restart.flags = { ov := false, perr := .ok } := rfl
@[simp] theorem State.restart_fault (s : State) : s.restart.fault = none := rfl
@[simp] theorem State.restart_faultCmd (s : State) : s.restart.faultCmd = 0 := rfl
@[simp] theorem State.restart_faultLit (s : State) : s.restart.faultLit = 0 := rfl
@[simp] theorem State.restart_mem (s : State) : s.restart.mem = [] := rfl
@[simp] theorem State.restart_host (s : State) : s.restart.host = s.host := rfl
@[simp] theorem State.restart_reply (s : State) : s.restart.reply = s.reply := rfl
@[simp] theorem State.restart_readByte (s : State) (a : Nat) : s.restart.readByte a = none := rfl

/-! ### Derived reads that depend on the instance alone -/

theorem State.inRange_iff (s : State) (a n : Nat) : s.inRange a n = true ↔ a + n ≤ s.cfg.bufBytes := by
  simp [State.inRange]

theorem State.maxVal_succ (s : State) : s.maxVal + 1 = 2 ^ s.cfg.width := by
  have := Nat.two_pow_pos s.cfg.width
  simp only [State.maxVal]
  omega

theorem State.stopped_iff (s : State) : s.stopped = true ↔ ∃ c, s.fault = some c := by
  simp [State.stopped, Option.isSome_iff_exists]

/-! ### `Engine.toState` -/

@[simp] theorem Engine.toState_cfg {c : Config} (e : Engine c) (ops : List HostOp) (q : Option Reply) :
    (e.toState ops q).cfg = c := rfl
@[simp] theorem Engine.toState_regs {c : Config} (e : Engine c) (ops : List HostOp) (q : Option Reply) :
    (e.toState ops q).regs = e.regs := rfl
@[simp] theorem Engine.toState_written {c : Config} (e : Engine c) (ops : List HostOp) (q : Option Reply) :
    (e.toState ops q).written = e.written := rfl
@[simp] theorem Engine.toState_flags {c : Config} (e : Engine c) (ops : List HostOp) (q : Option Reply) :
    (e.toState ops q).flags = e.flags := rfl
@[simp] theorem Engine.toState_fault {c : Config} (e : Engine c) (ops : List HostOp) (q : Option Reply) :
    (e.toState ops q).fault = e.fault := rfl
@[simp] theorem Engine.toState_faultCmd {c : Config} (e : Engine c) (ops : List HostOp) (q : Option Reply) :
    (e.toState ops q).faultCmd = e.faultCmd := rfl
@[simp] theorem Engine.toState_faultLit {c : Config} (e : Engine c) (ops : List HostOp) (q : Option Reply) :
    (e.toState ops q).faultLit = e.faultLit := rfl
@[simp] theorem Engine.toState_mem {c : Config} (e : Engine c) (ops : List HostOp) (q : Option Reply) :
    (e.toState ops q).mem = e.mem := rfl
@[simp] theorem Engine.toState_host {c : Config} (e : Engine c) (ops : List HostOp) (q : Option Reply) :
    (e.toState ops q).host = ops := rfl
@[simp] theorem Engine.toState_reply {c : Config} (e : Engine c) (ops : List HostOp) (q : Option Reply) :
    (e.toState ops q).reply = q := rfl
/-- The engine in a state made of an engine is that engine. -/
@[simp] theorem Engine.ofState_toState {c : Config} (e : Engine c) (ops : List HostOp) (q : Option Reply) :
    Engine.ofState c (e.toState ops q) = e := by
  rcases e with ⟨regs, _⟩
  simp only [Engine.ofState, Engine.toState, State.val, Engine.mk.injEq, and_true]
  ext i hi : 1
  simp
  rfl

end Sys2Proof.Machine
end

