-- ==== Sys2Proof/Laws/Memory.lean ====
section
/-!
SUPPORT. The laws of the data buffer: a read after a write, the canonical form and the bound of the addresses kept by
every write, and when a read of several bytes succeeds.
-/

namespace Sys2Proof.Machine

/-- A byte written is read back, and every other byte stays. -/
theorem Memory.read_write (m : List Host.Cell) (a q : Nat) (b : Byte) :
    Memory.read (Memory.write m a b) q = if q = a then some b else Memory.read m q := by
  induction m with
  | nil => simp [Memory.write, Memory.read]
  | cons c rest ih =>
    obtain ⟨k, d⟩ := c
    by_cases hlt : a < k
    · simp [Memory.write, hlt, Memory.read]
    · by_cases heq : a = k
      · subst heq
        by_cases hq : q = a <;> simp [Memory.write, Memory.read, hq]
      · by_cases hq : q = k
        · subst hq
          simp [Memory.write, hlt, heq, Memory.read, Ne.symm heq]
        · simp [Memory.write, hlt, heq, Memory.read, hq, ih]

/-- The addresses listed after a write are those before and the one written. -/
theorem Memory.mem_write {m : List Host.Cell} {a : Nat} {b : Byte} {c : Host.Cell} (h : c ∈ Memory.write m a b) :
    c = (a, b) ∨ c ∈ m := by
  induction m with
  | nil => simpa [Memory.write] using h
  | cons d rest ih =>
    obtain ⟨k, e⟩ := d
    simp only [Memory.write] at h
    split at h
    · simpa using h
    · split at h
      · rcases List.mem_cons.1 h with h | h
        · exact .inl h
        · exact .inr (List.mem_cons_of_mem _ h)
      · rcases List.mem_cons.1 h with h | h
        · exact .inr (h ▸ List.mem_cons_self)
        · exact (ih h).imp_right (List.mem_cons_of_mem _)

/-- A write keeps the canonical form. -/
theorem Memory.wf_write {m : List Host.Cell} (h : Memory.wf m) (a : Nat) (b : Byte) : Memory.wf (Memory.write m a b) := by
  induction m with
  | nil => simp [Memory.write, Memory.wf]
  | cons d rest ih =>
    obtain ⟨k, e⟩ := d
    obtain ⟨hk, hrest⟩ := List.pairwise_cons.1 h
    simp only [Memory.write]
    split
    · rename_i hlt
      refine List.pairwise_cons.2 ⟨fun c hc => ?_, h⟩
      rcases List.mem_cons.1 hc with hc | hc
      · simpa [hc] using hlt
      · exact Nat.lt_trans hlt (hk c hc)
    · split
      · rename_i heq
        exact List.pairwise_cons.2 ⟨fun c hc => by simpa [heq] using hk c hc, hrest⟩
      · rename_i hlt heq
        refine List.pairwise_cons.2 ⟨fun c hc => ?_, ih hrest⟩
        rcases Memory.mem_write hc with hc | hc
        · simp only [hc]; omega
        · exact hk c hc

/-- What a write of several bytes leaves: the bytes in their range, everything else as before. -/
theorem Memory.read_writeList (m : List Host.Cell) (a q : Nat) (bs : List Byte) :
    Memory.read (Memory.writeList m a bs) q =
      if a ≤ q ∧ q < a + bs.length then bs[q - a]? else Memory.read m q := by
  induction bs generalizing m a with
  | nil =>
    simp only [Memory.writeList, List.length_nil, Nat.add_zero]
    rw [if_neg (by omega)]
  | cons b bs ih =>
    simp only [Memory.writeList, ih, Memory.read_write, List.length_cons]
    by_cases h1 : a + 1 ≤ q ∧ q < a + 1 + bs.length
    · rw [if_pos h1, if_pos (by omega), show q - a = (q - (a + 1)) + 1 by omega, List.getElem?_cons_succ]
    · rw [if_neg h1]
      by_cases h2 : q = a
      · subst h2
        simp
      · rw [if_neg h2, if_neg (by omega)]

/-- A write of several bytes keeps the canonical form. -/
theorem Memory.wf_writeList {m : List Host.Cell} (h : Memory.wf m) (a : Nat) (bs : List Byte) :
    Memory.wf (Memory.writeList m a bs) := by
  induction bs generalizing m a with
  | nil => exact h
  | cons b bs ih => exact ih (Memory.wf_write h a b) (a + 1)

/-- A write inside a bound keeps every listed address inside it. -/
theorem Memory.bound_writeList {m : List Host.Cell} {n : Nat} (h : ∀ c ∈ m, c.1 < n) (a : Nat) (bs : List Byte)
    (hb : a + bs.length ≤ n) : ∀ c ∈ Memory.writeList m a bs, c.1 < n := by
  induction bs generalizing m a with
  | nil => exact h
  | cons b bs ih =>
    simp only [List.length_cons] at hb
    refine ih (fun c hc => ?_) (a + 1) (by omega)
    rcases Memory.mem_write hc with hc | hc
    · simp only [hc]; omega
    · exact h c hc

/-- `MemRead` gives `bs` iff it has the right length and every byte of the range holds its value. -/
theorem Memory.readList_ok_iff (m : List Host.Cell) (a n : Nat) (bs : List Byte) :
    Memory.readList m a n = .ok bs ↔ bs.length = n ∧ ∀ i (h : i < bs.length), Memory.read m (a + i) = some bs[i] := by
  induction n generalizing a bs with
  | zero =>
    constructor
    · intro h
      obtain rfl : ([] : List Byte) = bs := by simpa [Memory.readList] using h
      simp
    · rintro ⟨h, -⟩
      obtain rfl := List.length_eq_zero_iff.1 h
      rfl
  | succ n ih =>
    constructor
    · intro h
      simp only [Memory.readList] at h
      split at h
      · simp at h
      · rename_i b hb
        split at h
        · simp at h
        · rename_i cs hcs
          obtain rfl : b :: cs = bs := by simpa using h
          obtain ⟨hl, hr⟩ := (ih (a + 1) cs).1 hcs
          refine ⟨by simp [hl], fun i hi => ?_⟩
          cases i with
          | zero => simpa using hb
          | succ i =>
            have := hr i (by simpa using hi)
            simpa [Nat.add_assoc, Nat.add_comm 1 i] using this
    · rintro ⟨hl, hr⟩
      obtain _ | ⟨b, cs⟩ := bs
      · simp at hl
      · have h0 : Memory.read m a = some b := hr 0 (Nat.succ_pos _)
        have hcs : Memory.readList m (a + 1) n = .ok cs := by
          refine (ih (a + 1) cs).2 ⟨by simpa using hl, fun i hi => ?_⟩
          have := hr (i + 1) (Nat.succ_lt_succ hi)
          rwa [show a + (i + 1) = a + 1 + i by omega] at this
        simp [Memory.readList, h0, hcs]

/-- `MemRead` stops exactly at the first byte of the range that holds no value. -/
theorem Memory.readList_error_iff (m : List Host.Cell) (a n e : Nat) :
    Memory.readList m a n = .error e ↔
      a ≤ e ∧ e < a + n ∧ Memory.read m e = none ∧ ∀ q, a ≤ q → q < e → Memory.read m q ≠ none := by
  induction n generalizing a with
  | zero => simp [Memory.readList]; omega
  | succ n ih =>
    simp only [Memory.readList]
    cases h0 : Memory.read m a with
    | none =>
      constructor
      · intro h
        obtain rfl : a = e := by simpa using h
        exact ⟨le_refl _, by omega, h0, fun q h1 h2 => by omega⟩
      · rintro ⟨h1, -, -, h4⟩
        have : a = e := by
          by_contra hne
          exact h4 a (le_refl _) (by omega) h0
        simp [this]
    | some b =>
      refine (Iff.trans ?_ (ih (a + 1))).trans ?_
      · cases Memory.readList m (a + 1) n <;> simp
      constructor
      · rintro ⟨h1, h2, h3, h4⟩
        refine ⟨by omega, by omega, h3, fun q hq1 hq2 => ?_⟩
        by_cases hq : q = a
        · simp [hq, h0]
        · exact h4 q (by omega) hq2
      · rintro ⟨h1, h2, h3, h4⟩
        have : e ≠ a := by
          rintro rfl
          simp [h0] at h3
        exact ⟨by omega, by omega, h3, fun q hq1 hq2 => h4 q (by omega) hq2⟩

/-- `MemWrite` as seen from every address. -/
theorem State.writeBytes_readByte (s : State) (a q : Nat) (bs : List Byte) :
    (s.writeBytes a bs).readByte q =
      if a ≤ q ∧ q < a + bs.length then bs[q - a]? else s.readByte q :=
  Memory.read_writeList s.mem a q bs

end Sys2Proof.Machine
end

