-- ==== Sys2Proof/Laws/Ops.lean ====
section
/-!
SUPPORT. One law for each shared operation of the meanings: everything it can do, in the terms of Safety.lean. A proof
about a command cites these and unfolds neither the operation nor an update of the state.
-/

namespace Sys2Proof.Machine

theorem SameBuffer.refl (s : State) : SameBuffer s s := fun _ => rfl
theorem SameRegs.refl (s : State) : SameRegs s s := fun _ => ⟨rfl, rfl⟩
theorem SameControl.refl (s : State) : SameControl s s := ⟨rfl, rfl, rfl, rfl, rfl, rfl⟩

/-! ### Register writes (R11) -/

/-- A register write and nothing else, in any state `t` that is `s` but for FLAGS and the buffer. -/
theorem onlyReg_setReg (s : State) (rd : Reg) {e x : Nat} (h : e % 2 ^ s.cfg.width = x) :
    OnlyReg s (s.setReg rd e) rd x :=
  ⟨by simp [h], by simp, fun r hr => ⟨State.setReg_val_of_ne s rd e r hr, by simp [hr]⟩⟩

/-- The whole effect of `v[rd] <- e`. -/
theorem writesReg_setReg (s : State) (rd : Reg) {e x : Nat} (h : e % 2 ^ s.cfg.width = x) :
    WritesReg s (s.setReg rd e) rd x :=
  ⟨onlyReg_setReg s rd h, rfl, fun _ => rfl, SameControl.refl _⟩

/-- The whole effect of writing two different registers. -/
theorem writesTwoRegs_setReg (s : State) {rd rd2 : Reg} (hne : rd ≠ rd2) {e e2 x y : Nat}
    (h : e % 2 ^ s.cfg.width = x) (h2 : e2 % 2 ^ s.cfg.width = y) :
    WritesTwoRegs s ((s.setReg rd e).setReg rd2 e2) rd rd2 x y := by
  refine ⟨?_, ?_, by simp, by simp, fun r hr hr2 => ⟨?_, by simp [hr, hr2]⟩, rfl, fun _ => rfl, SameControl.refl _⟩
  · rw [State.setReg_val_of_ne _ _ _ _ hne, State.setReg_val_self, h]
  · rw [State.setReg_val_self, State.setReg_cfg, h2]
  · rw [State.setReg_val_of_ne _ _ _ _ hr2, State.setReg_val_of_ne _ _ _ _ hr]

/-! ### The four ways a result is written (Machine/Flags.lean) -/

theorem writeWrapping_spec (rd : Reg) (e : Nat) (s : State) :
    ∃ t, writeWrapping rd e s = .next t ∧ WritesReg s t rd (e % 2 ^ s.cfg.width) :=
  ⟨_, rfl, writesReg_setReg s rd rfl⟩

theorem writeOverflowing_spec (rd : Reg) (e : Nat) (ov : Bool) (s : State) :
    ∃ t, writeOverflowing rd e ov s = .next t ∧ WritesRegAndOv s t rd (e % 2 ^ s.cfg.width) ov :=
  ⟨_, rfl, onlyReg_setReg s rd rfl, rfl, rfl, fun _ => rfl, SameControl.refl _⟩

theorem writeChecked_spec (rd : Reg) (e : Nat) (ov : Bool) (s : State) :
    ∃ t, writeChecked rd e ov s = .next t ∧
      if ov then WritesOv s t true else WritesRegAndOv s t rd (e % 2 ^ s.cfg.width) false := by
  cases ov
  · exact ⟨_, rfl, onlyReg_setReg s rd rfl, rfl, rfl, fun _ => rfl, SameControl.refl _⟩
  · exact ⟨_, rfl, SameRegs.refl _, rfl, rfl, fun _ => rfl, SameControl.refl _⟩

theorem writeSaturating_spec (rd : Reg) (e : Nat) (ov : Bool) (sat : Nat) (s : State) :
    ∃ t, writeSaturating rd e ov sat s = .next t ∧
      WritesReg s t rd ((if ov then sat else e) % 2 ^ s.cfg.width) :=
  ⟨_, rfl, writesReg_setReg s rd rfl⟩

theorem writeTruth_spec (rd : Reg) (b : Bool) (s : State) :
    ∃ t, writeTruth rd b s = .next t ∧ WritesReg s t rd (b.toNat % 2 ^ s.cfg.width) :=
  ⟨_, rfl, writesReg_setReg s rd rfl⟩

/-- The end of a parse command whose value fits (R292). -/
theorem writeParse_spec (rd : Reg) (k : Except ParseStatus Nat) (s : State)
    (hk : ∀ x, k = .ok x → x < 2 ^ s.cfg.width) : ∃ t, writeParse rd k s = .next t ∧ ParseEffect s t rd k := by
  cases k with
  | ok x =>
    exact ⟨_, rfl, onlyReg_setReg s rd (Nat.mod_eq_of_lt (hk x rfl)), rfl, fun _ => rfl, SameControl.refl _⟩
  | error e => exact ⟨_, rfl, SameRegs.refl _, rfl, fun _ => rfl, SameControl.refl _⟩

/-! ### Faults (R396) -/

theorem faultEntered_takeFault (s : State) (c : Cause) (ws : Word × Option Word) :
    FaultEntered s (s.takeFault c ws) c ws.1 (ws.2.getD 0) :=
  ⟨rfl, rfl, rfl, SameRegs.refl _, rfl, fun _ => rfl, rfl, rfl, rfl⟩

theorem raise_spec (c : Cause) (i : Instr) (s : State) :
    ∃ t, raise c i s = .next t ∧ FaultEntered s t c (encode i).1 ((encode i).2.getD 0) :=
  ⟨_, rfl, faultEntered_takeFault s c (encode i)⟩

/-! ### The buffer (R51, R52, R301) -/

/-- Inside the buffer, with every byte written: the bytes are read. -/
theorem withBytes_ok {addr len : Nat} {i : Instr} {s : State} {k : List Byte → Result} {bs : List Byte}
    (hr : addr + len ≤ s.cfg.bufBytes) (hl : bs.length = len) (hb : HasBytes s addr bs) :
    withBytes addr len i s k = k bs := by
  simp only [withBytes, (State.inRange_iff s addr len).2 hr, if_true, (Memory.readList_ok_iff s.mem addr len bs).2 ⟨hl, hb⟩]

/-- Inside the buffer, at the first byte nothing has written. -/
theorem withBytes_uninit {addr len e : Nat} {i : Instr} {s : State} {k : List Byte → Result}
    (hr : addr + len ≤ s.cfg.bufBytes) (h1 : addr ≤ e) (h2 : e < addr + len) (h3 : s.readByte e = none)
    (h4 : ∀ a, addr ≤ a → a < e → s.readByte a ≠ none) : withBytes addr len i s k = .fault (.uninitRead e) := by
  simp only [withBytes, (State.inRange_iff s addr len).2 hr, if_true,
    (Memory.readList_error_iff s.mem addr len e).2 ⟨h1, h2, h3, h4⟩]

/-- Outside the buffer. -/
theorem withBytes_range {addr len : Nat} {i : Instr} {s : State} {k : List Byte → Result}
    (hr : s.cfg.bufBytes < addr + len) : withBytes addr len i s k = raise .bufferRange i s := by
  simp [withBytes, State.inRange, Nat.not_le.2 hr]

/-- Everything a buffer read can do. -/
theorem withBytes_cases (addr len : Nat) (i : Instr) (s : State) (k : List Byte → Result) :
    (s.cfg.bufBytes < addr + len ∧ withBytes addr len i s k = raise .bufferRange i s) ∨
    (addr + len ≤ s.cfg.bufBytes ∧
      ((∃ bs, bs.length = len ∧ HasBytes s addr bs ∧ withBytes addr len i s k = k bs) ∨
        ∃ e, addr ≤ e ∧ e < addr + len ∧ s.readByte e = none ∧
          withBytes addr len i s k = .fault (.uninitRead e))) := by
  rcases Nat.lt_or_ge s.cfg.bufBytes (addr + len) with hr | hr
  · exact .inl ⟨hr, withBytes_range hr⟩
  · refine .inr ⟨hr, ?_⟩
    cases h : Memory.readList s.mem addr len with
    | ok bs =>
      obtain ⟨hl, hb⟩ := (Memory.readList_ok_iff s.mem addr len bs).1 h
      exact .inl ⟨bs, hl, hb, withBytes_ok hr hl hb⟩
    | error e =>
      obtain ⟨h1, h2, h3, h4⟩ := (Memory.readList_error_iff s.mem addr len e).1 h
      exact .inr ⟨e, h1, h2, h3, withBytes_uninit hr h1 h2 h3 h4⟩

theorem bufferHolds_writeBytes (s : State) (a : Nat) (bs : List Byte) : BufferHolds s (s.writeBytes a bs) a bs := by
  refine ⟨fun i h => ?_, fun q hq => ?_⟩
  · rw [State.writeBytes_readByte, if_pos (by omega)]
    simp [h]
  · rw [State.writeBytes_readByte, if_neg (by omega)]

theorem storeBytes_ok {addr : Nat} {bs : List Byte} {i : Instr} {s : State} {k : State → State}
    (hr : addr + bs.length ≤ s.cfg.bufBytes) : storeBytes addr bs i s k = .next (k (s.writeBytes addr bs)) := by
  simp [storeBytes, (State.inRange_iff s addr bs.length).2 hr]

theorem storeBytes_range {addr : Nat} {bs : List Byte} {i : Instr} {s : State} {k : State → State}
    (hr : s.cfg.bufBytes < addr + bs.length) : storeBytes addr bs i s k = raise .bufferRange i s := by
  simp [storeBytes, State.inRange, Nat.not_le.2 hr]

/-- A format command's text inside the buffer. -/
theorem storeText_ok {rd : Reg} {addr : Nat} {text : List Byte} {i : Instr} {s : State}
    (hr : addr + text.length ≤ s.cfg.bufBytes) (hl : text.length < 2 ^ s.cfg.width) :
    ∃ t, storeText rd addr text i s = .next t ∧ FormatEffect s t rd addr text := by
  refine ⟨_, storeBytes_ok hr, ?_, ?_, rfl, SameControl.refl _⟩
  · exact ⟨by simp [Nat.mod_eq_of_lt hl], by simp,
      fun r h => ⟨(State.setReg_val_of_ne _ _ _ _ h).trans rfl, by simp [h]⟩⟩
  · exact bufferHolds_writeBytes s addr text

theorem storeText_range {rd : Reg} {addr : Nat} {text : List Byte} {i : Instr} {s : State}
    (hr : s.cfg.bufBytes < addr + text.length) : storeText rd addr text i s = raise .bufferRange i s :=
  storeBytes_range hr

/-! ### The machine's parts -/

/-- Every memory the model starts from is in canonical form. -/
theorem wf_resetOf (c : Config) : Memory.wf (State.resetOf c).mem := List.Pairwise.nil

/-- The canonical form is kept by every write of the state's own operations. -/
theorem wf_writeBytes {s : State} (h : Memory.wf s.mem) (a : Nat) (bs : List Byte) : Memory.wf (s.writeBytes a bs).mem :=
  Memory.wf_writeList h a bs

/-- What an issue can do: discarded in STOPPED, else the command's outcome with the reply. -/
theorem issue_cases (w : Word) (lit : Option Word) (s : State) :
    ((∃ c, s.fault = some c) ∧ issue w lit s = .next (s.answer .discarded)) ∨
    (s.fault = none ∧ issue w lit s = withIssueReply (execute w lit s)) := by
  cases h : s.fault with
  | none => exact .inr ⟨rfl, by simp [issue, State.stopped, h]⟩
  | some c => exact .inl ⟨⟨c, rfl⟩, by simp [issue, State.stopped, h]⟩

/-- What a step can do: nothing when the host asks nothing, else the host's next operation. -/
theorem step_cases (s : State) :
    (s.host = [] ∧ step s = .next s) ∨ ∃ op rest, s.host = op :: rest ∧ step s = hostStep op (s.setHost rest) := by
  cases h : s.host with
  | nil => exact .inl ⟨rfl, by simp [step, h]⟩
  | cons op rest => exact .inr ⟨op, rest, rfl, by simp [step, h]⟩

end Sys2Proof.Machine
end

