-- ==== Sys2Proof/Laws/PerInstr.lean ====
section
/-!
SUPPORT. One law for every constructor of Instr, about its encoding: the `OPC` field of its first word is the row's
`OPC` in the opcode map (spec/30_encoding.md R77), and it has a second word exactly when that is `LDL`'s (R75).
-/

-- One theorem after the other: many at once need more threads than the build allows.
set_option Elab.async false

namespace Sys2Proof.Laws.OpcodeField

/-- The `OPC` of a command's row (R77). -/
def opcodeOf : Instr → Nat
  | .nop => 0x01
  | .mov .. => 0x02
  | .ldi .. => 0x03
  | .ldl .. => 0x04
  | .ldmax .. => 0x05
  | .getl .. => 0x06
  | .narrow .. => 0x07
  | .rdf .. => 0x08
  | .clrf => 0x09
  | .cmpEq .. | .cmpNe .. | .cmpLt .. | .cmpLe .. | .cmpGt .. | .cmpGe .. => 0x0A
  | .isz .. => 0x0B
  | .addW .. | .addO .. | .addC .. | .addS .. => 0x10
  | .subW .. | .subO .. | .subC .. | .subS .. => 0x11
  | .mulW .. | .mulO .. | .mulC .. | .mulS .. => 0x20
  | .mulWide .. => 0x21
  | .powW .. | .powO .. => 0x22
  | .divmod .. => 0x30
  | .div .. => 0x31
  | .rem .. => 0x32
  | .shl .. => 0x40
  | .shr .. => 0x41
  | .rol .. => 0x42
  | .ror .. => 0x43
  | .shli .. => 0x44
  | .shri .. => 0x45
  | .roli .. => 0x46
  | .rori .. => 0x47
  | .bitAnd .. => 0x50
  | .bitOr .. => 0x51
  | .bitXor .. => 0x52
  | .bitNot .. => 0x53
  | .clz .. => 0x54
  | .ctz .. => 0x55
  | .bits .. => 0x56
  | .bit .. => 0x57
  | .ldbe .. => 0x60
  | .ldle .. => 0x61
  | .stbe .. => 0x62
  | .stle .. => 0x63
  | .parsedec .. => 0x64
  | .parsehex .. => 0x65
  | .parser .. => 0x66
  | .fmtdec .. => 0x67
  | .fmthex .. => 0x68
  | .fmtr .. => 0x69
  | .f2u .. => 0x6A
  | .u2f .. => 0x6B
  | .isqrt .. => 0x70

/-- The statement of the family. -/
def Statement (i : Instr) : Prop :=
  i.wellFormed = true → opcField (encode i).1 = opcodeOf i ∧ ((encode i).2.isSome = true ↔ opcodeOf i = 0x04)

theorem opcodeOf_lt (i : Instr) : opcodeOf i < 256 := by cases i <;> simp [opcodeOf]

/-- A command whose first word is packed with its row's `OPC` has the statement. -/
theorem holds (i : Instr) (lit : Option Word) (rd rs1 rs2 rd2 : Reg) (fn imm : Nat)
    (he : encode i = (packWord (opcodeOf i) rd rs1 rs2 rd2 fn imm, lit))
    (hl : lit.isSome = (opcodeOf i == 0x04)) (hf : fn < 256) (hi : imm < 2 ^ 32) : Statement i := by
  intro _
  rw [he]
  exact ⟨opcField_packWord (opcodeOf_lt i) hf hi, by simp [hl]⟩

theorem nop : Statement .nop :=
  holds _ none 0 0 0 0 0 0 rfl rfl (of_decide_eq_true rfl) (of_decide_eq_true rfl)
theorem mov (rd rs1 : Reg) : Statement (.mov rd rs1) :=
  holds _ none rd rs1 0 0 0 0 rfl rfl (of_decide_eq_true rfl) (of_decide_eq_true rfl)
theorem ldi (rd : Reg) (imm : BitVec 32) : Statement (.ldi rd imm) :=
  holds _ none rd 0 0 0 0 imm.toNat rfl rfl (of_decide_eq_true rfl) imm.isLt
theorem ldl (rd rs1 : Reg) (imm : BitVec 32) (lit : Word) : Statement (.ldl rd rs1 imm lit) :=
  holds _ (some lit) rd rs1 0 0 0 imm.toNat rfl rfl (of_decide_eq_true rfl) imm.isLt
theorem ldmax (rd : Reg) : Statement (.ldmax rd) :=
  holds _ none rd 0 0 0 0 0 rfl rfl (of_decide_eq_true rfl) (of_decide_eq_true rfl)
theorem getl (rd rs1 : Reg) (imm : BitVec 32) : Statement (.getl rd rs1 imm) :=
  holds _ none rd rs1 0 0 0 imm.toNat rfl rfl (of_decide_eq_true rfl) imm.isLt
theorem narrow (rd rs1 : Reg) (w : NarrowWidth) : Statement (.narrow rd rs1 w) :=
  holds _ none rd rs1 0 0 w.fn 0 rfl rfl (NarrowWidth.fn_lt w) (of_decide_eq_true rfl)
theorem rdf (rd : Reg) : Statement (.rdf rd) :=
  holds _ none rd 0 0 0 0 0 rfl rfl (of_decide_eq_true rfl) (of_decide_eq_true rfl)
theorem clrf : Statement .clrf :=
  holds _ none 0 0 0 0 0 0 rfl rfl (of_decide_eq_true rfl) (of_decide_eq_true rfl)
theorem cmpEq (rd rs1 rs2 : Reg) : Statement (.cmpEq rd rs1 rs2) :=
  holds _ none rd rs1 rs2 0 0 0 rfl rfl (of_decide_eq_true rfl) (of_decide_eq_true rfl)
theorem cmpNe (rd rs1 rs2 : Reg) : Statement (.cmpNe rd rs1 rs2) :=
  holds _ none rd rs1 rs2 0 1 0 rfl rfl (of_decide_eq_true rfl) (of_decide_eq_true rfl)
theorem cmpLt (rd rs1 rs2 : Reg) : Statement (.cmpLt rd rs1 rs2) :=
  holds _ none rd rs1 rs2 0 2 0 rfl rfl (of_decide_eq_true rfl) (of_decide_eq_true rfl)
theorem cmpLe (rd rs1 rs2 : Reg) : Statement (.cmpLe rd rs1 rs2) :=
  holds _ none rd rs1 rs2 0 3 0 rfl rfl (of_decide_eq_true rfl) (of_decide_eq_true rfl)
theorem cmpGt (rd rs1 rs2 : Reg) : Statement (.cmpGt rd rs1 rs2) :=
  holds _ none rd rs1 rs2 0 4 0 rfl rfl (of_decide_eq_true rfl) (of_decide_eq_true rfl)
theorem cmpGe (rd rs1 rs2 : Reg) : Statement (.cmpGe rd rs1 rs2) :=
  holds _ none rd rs1 rs2 0 5 0 rfl rfl (of_decide_eq_true rfl) (of_decide_eq_true rfl)
theorem isz (rd rs1 : Reg) : Statement (.isz rd rs1) :=
  holds _ none rd rs1 0 0 0 0 rfl rfl (of_decide_eq_true rfl) (of_decide_eq_true rfl)
theorem addW (rd rs1 rs2 : Reg) : Statement (.addW rd rs1 rs2) :=
  holds _ none rd rs1 rs2 0 0 0 rfl rfl (of_decide_eq_true rfl) (of_decide_eq_true rfl)
theorem addO (rd rs1 rs2 : Reg) : Statement (.addO rd rs1 rs2) :=
  holds _ none rd rs1 rs2 0 1 0 rfl rfl (of_decide_eq_true rfl) (of_decide_eq_true rfl)
theorem addC (rd rs1 rs2 : Reg) : Statement (.addC rd rs1 rs2) :=
  holds _ none rd rs1 rs2 0 2 0 rfl rfl (of_decide_eq_true rfl) (of_decide_eq_true rfl)
theorem addS (rd rs1 rs2 : Reg) : Statement (.addS rd rs1 rs2) :=
  holds _ none rd rs1 rs2 0 3 0 rfl rfl (of_decide_eq_true rfl) (of_decide_eq_true rfl)
theorem subW (rd rs1 rs2 : Reg) : Statement (.subW rd rs1 rs2) :=
  holds _ none rd rs1 rs2 0 0 0 rfl rfl (of_decide_eq_true rfl) (of_decide_eq_true rfl)
theorem subO (rd rs1 rs2 : Reg) : Statement (.subO rd rs1 rs2) :=
  holds _ none rd rs1 rs2 0 1 0 rfl rfl (of_decide_eq_true rfl) (of_decide_eq_true rfl)
theorem subC (rd rs1 rs2 : Reg) : Statement (.subC rd rs1 rs2) :=
  holds _ none rd rs1 rs2 0 2 0 rfl rfl (of_decide_eq_true rfl) (of_decide_eq_true rfl)
theorem subS (rd rs1 rs2 : Reg) : Statement (.subS rd rs1 rs2) :=
  holds _ none rd rs1 rs2 0 3 0 rfl rfl (of_decide_eq_true rfl) (of_decide_eq_true rfl)
theorem mulW (rd rs1 rs2 : Reg) : Statement (.mulW rd rs1 rs2) :=
  holds _ none rd rs1 rs2 0 0 0 rfl rfl (of_decide_eq_true rfl) (of_decide_eq_true rfl)
theorem mulO (rd rs1 rs2 : Reg) : Statement (.mulO rd rs1 rs2) :=
  holds _ none rd rs1 rs2 0 1 0 rfl rfl (of_decide_eq_true rfl) (of_decide_eq_true rfl)
theorem mulC (rd rs1 rs2 : Reg) : Statement (.mulC rd rs1 rs2) :=
  holds _ none rd rs1 rs2 0 2 0 rfl rfl (of_decide_eq_true rfl) (of_decide_eq_true rfl)
theorem mulS (rd rs1 rs2 : Reg) : Statement (.mulS rd rs1 rs2) :=
  holds _ none rd rs1 rs2 0 3 0 rfl rfl (of_decide_eq_true rfl) (of_decide_eq_true rfl)
theorem mulWide (rd rd2 rs1 rs2 : Reg) : Statement (.mulWide rd rd2 rs1 rs2) :=
  holds _ none rd rs1 rs2 rd2 0 0 rfl rfl (of_decide_eq_true rfl) (of_decide_eq_true rfl)
theorem powW (rd rs1 rs2 : Reg) : Statement (.powW rd rs1 rs2) :=
  holds _ none rd rs1 rs2 0 0 0 rfl rfl (of_decide_eq_true rfl) (of_decide_eq_true rfl)
theorem powO (rd rs1 rs2 : Reg) : Statement (.powO rd rs1 rs2) :=
  holds _ none rd rs1 rs2 0 1 0 rfl rfl (of_decide_eq_true rfl) (of_decide_eq_true rfl)
theorem divmod (rd rd2 rs1 rs2 : Reg) : Statement (.divmod rd rd2 rs1 rs2) :=
  holds _ none rd rs1 rs2 rd2 0 0 rfl rfl (of_decide_eq_true rfl) (of_decide_eq_true rfl)
theorem div (rd rs1 rs2 : Reg) : Statement (.div rd rs1 rs2) :=
  holds _ none rd rs1 rs2 0 0 0 rfl rfl (of_decide_eq_true rfl) (of_decide_eq_true rfl)
theorem rem (rd rs1 rs2 : Reg) : Statement (.rem rd rs1 rs2) :=
  holds _ none rd rs1 rs2 0 0 0 rfl rfl (of_decide_eq_true rfl) (of_decide_eq_true rfl)
theorem shl (rd rs1 rs2 : Reg) : Statement (.shl rd rs1 rs2) :=
  holds _ none rd rs1 rs2 0 0 0 rfl rfl (of_decide_eq_true rfl) (of_decide_eq_true rfl)
theorem shr (rd rs1 rs2 : Reg) : Statement (.shr rd rs1 rs2) :=
  holds _ none rd rs1 rs2 0 0 0 rfl rfl (of_decide_eq_true rfl) (of_decide_eq_true rfl)
theorem rol (rd rs1 rs2 : Reg) : Statement (.rol rd rs1 rs2) :=
  holds _ none rd rs1 rs2 0 0 0 rfl rfl (of_decide_eq_true rfl) (of_decide_eq_true rfl)
theorem ror (rd rs1 rs2 : Reg) : Statement (.ror rd rs1 rs2) :=
  holds _ none rd rs1 rs2 0 0 0 rfl rfl (of_decide_eq_true rfl) (of_decide_eq_true rfl)
theorem shli (rd rs1 : Reg) (imm : BitVec 32) : Statement (.shli rd rs1 imm) :=
  holds _ none rd rs1 0 0 0 imm.toNat rfl rfl (of_decide_eq_true rfl) imm.isLt
theorem shri (rd rs1 : Reg) (imm : BitVec 32) : Statement (.shri rd rs1 imm) :=
  holds _ none rd rs1 0 0 0 imm.toNat rfl rfl (of_decide_eq_true rfl) imm.isLt
theorem roli (rd rs1 : Reg) (imm : BitVec 32) : Statement (.roli rd rs1 imm) :=
  holds _ none rd rs1 0 0 0 imm.toNat rfl rfl (of_decide_eq_true rfl) imm.isLt
theorem rori (rd rs1 : Reg) (imm : BitVec 32) : Statement (.rori rd rs1 imm) :=
  holds _ none rd rs1 0 0 0 imm.toNat rfl rfl (of_decide_eq_true rfl) imm.isLt
theorem bitAnd (rd rs1 rs2 : Reg) : Statement (.bitAnd rd rs1 rs2) :=
  holds _ none rd rs1 rs2 0 0 0 rfl rfl (of_decide_eq_true rfl) (of_decide_eq_true rfl)
theorem bitOr (rd rs1 rs2 : Reg) : Statement (.bitOr rd rs1 rs2) :=
  holds _ none rd rs1 rs2 0 0 0 rfl rfl (of_decide_eq_true rfl) (of_decide_eq_true rfl)
theorem bitXor (rd rs1 rs2 : Reg) : Statement (.bitXor rd rs1 rs2) :=
  holds _ none rd rs1 rs2 0 0 0 rfl rfl (of_decide_eq_true rfl) (of_decide_eq_true rfl)
theorem bitNot (rd rs1 : Reg) : Statement (.bitNot rd rs1) :=
  holds _ none rd rs1 0 0 0 0 rfl rfl (of_decide_eq_true rfl) (of_decide_eq_true rfl)
theorem clz (rd rs1 : Reg) : Statement (.clz rd rs1) :=
  holds _ none rd rs1 0 0 0 0 rfl rfl (of_decide_eq_true rfl) (of_decide_eq_true rfl)
theorem ctz (rd rs1 : Reg) : Statement (.ctz rd rs1) :=
  holds _ none rd rs1 0 0 0 0 rfl rfl (of_decide_eq_true rfl) (of_decide_eq_true rfl)
theorem bits (rd rs1 : Reg) : Statement (.bits rd rs1) :=
  holds _ none rd rs1 0 0 0 0 rfl rfl (of_decide_eq_true rfl) (of_decide_eq_true rfl)
theorem bit (rd rs1 : Reg) (imm : BitVec 32) : Statement (.bit rd rs1 imm) :=
  holds _ none rd rs1 0 0 0 imm.toNat rfl rfl (of_decide_eq_true rfl) imm.isLt
theorem ldbe (rd : Reg) (addr len : BitVec 16) : Statement (.ldbe rd addr len) :=
  holds _ none rd 0 0 0 0 (packMem addr len) rfl rfl (of_decide_eq_true rfl) (packMem_lt addr len)
theorem ldle (rd : Reg) (addr len : BitVec 16) : Statement (.ldle rd addr len) :=
  holds _ none rd 0 0 0 0 (packMem addr len) rfl rfl (of_decide_eq_true rfl) (packMem_lt addr len)
theorem stbe (rs1 : Reg) (addr : BitVec 16) : Statement (.stbe rs1 addr) :=
  holds _ none 0 rs1 0 0 0 addr.toNat rfl rfl (of_decide_eq_true rfl) (Nat.lt_trans addr.isLt (of_decide_eq_true rfl))
theorem stle (rs1 : Reg) (addr : BitVec 16) : Statement (.stle rs1 addr) :=
  holds _ none 0 rs1 0 0 0 addr.toNat rfl rfl (of_decide_eq_true rfl) (Nat.lt_trans addr.isLt (of_decide_eq_true rfl))
theorem parsedec (rd : Reg) (addr len : BitVec 16) : Statement (.parsedec rd addr len) :=
  holds _ none rd 0 0 0 0 (packMem addr len) rfl rfl (of_decide_eq_true rfl) (packMem_lt addr len)
theorem parsehex (rd : Reg) (addr len : BitVec 16) : Statement (.parsehex rd addr len) :=
  holds _ none rd 0 0 0 0 (packMem addr len) rfl rfl (of_decide_eq_true rfl) (packMem_lt addr len)
theorem parser (rd : Reg) (addr len : BitVec 16) (radix : Nat) : Statement (.parser rd addr len radix) := fun h =>
  holds _ none rd 0 0 0 radix (packMem addr len) rfl rfl (Nat.lt_of_le_of_lt ((radixOk_iff radix).1 h).2 (of_decide_eq_true rfl)) (packMem_lt addr len) h
theorem fmtdec (rd rs1 : Reg) (addr : BitVec 16) : Statement (.fmtdec rd rs1 addr) :=
  holds _ none rd rs1 0 0 0 addr.toNat rfl rfl (of_decide_eq_true rfl) (Nat.lt_trans addr.isLt (of_decide_eq_true rfl))
theorem fmthex (rd rs1 : Reg) (addr : BitVec 16) (opts : HexOptions) : Statement (.fmthex rd rs1 addr opts) :=
  holds _ none rd rs1 0 0 opts.fn addr.toNat rfl rfl (HexOptions.fn_lt opts) (Nat.lt_trans addr.isLt (of_decide_eq_true rfl))
theorem fmtr (rd rs1 : Reg) (addr : BitVec 16) (radix : Nat) : Statement (.fmtr rd rs1 addr radix) := fun h =>
  holds _ none rd rs1 0 0 radix addr.toNat rfl rfl (Nat.lt_of_le_of_lt ((radixOk_iff radix).1 h).2 (of_decide_eq_true rfl)) (Nat.lt_trans addr.isLt (of_decide_eq_true rfl)) h
theorem f2u (rd rs1 : Reg) : Statement (.f2u rd rs1) :=
  holds _ none rd rs1 0 0 0 0 rfl rfl (of_decide_eq_true rfl) (of_decide_eq_true rfl)
theorem u2f (rd rs1 : Reg) : Statement (.u2f rd rs1) :=
  holds _ none rd rs1 0 0 0 0 rfl rfl (of_decide_eq_true rfl) (of_decide_eq_true rfl)
theorem isqrt (rd rs1 : Reg) : Statement (.isqrt rd rs1) :=
  holds _ none rd rs1 0 0 0 0 rfl rfl (of_decide_eq_true rfl) (of_decide_eq_true rfl)

end Sys2Proof.Laws.OpcodeField
end

