-- ==== Sys2Proof/Laws/Values.lean ====
section
/-!
SUPPORT. What the arithmetic helpers of the meanings compute, one law each, in the library's own terms: powers, bit
lengths and trailing zeros, values of bytes, digits of a number, the square-root recurrence.
-/

namespace Sys2Proof.Machine

/-- Repeated squaring gives the power modulo `m`, for exponents of at most `k` bits (R178). -/
theorem powMod_eq (m k : Nat) (x e : Nat) (h : e < 2 ^ k) : powMod m k x e = x ^ e % m := by
  induction k generalizing x e with
  | zero =>
    obtain rfl : e = 0 := by simpa using h
    simp [powMod]
  | succ k ih =>
    have he : e / 2 < 2 ^ k := by rw [Nat.pow_succ] at h; omega
    have hsq : ∀ n : Nat, (x * x % m) ^ n % m = x ^ (2 * n) % m := fun n => by
      rw [← Nat.pow_mod, ← pow_two, ← pow_mul]
    simp only [powMod, ih _ _ he, hsq]
    split
    · rename_i hodd
      rw [Nat.mul_mod_mod, ← Nat.pow_succ']
      congr 2
      omega
    · congr 2
      omega

/-- The bit length is the least exponent above the value (R244). -/
theorem bitLen_le_iff (x k : Nat) : bitLen x ≤ k ↔ x < 2 ^ k := by
  unfold bitLen
  split
  · rename_i h
    simp [h]
  · rename_i h
    rw [Nat.add_one_le_iff, Nat.log2_lt h]

/-- A bound on the value bounds the bit length. -/
theorem bitLen_le_of_lt {x k : Nat} (h : x < 2 ^ k) : bitLen x ≤ k := (bitLen_le_iff x k).2 h

/-- Trailing zeros of zero. -/
theorem countTrailing_zero (k : Nat) : countTrailing k 0 = k := by
  induction k with
  | zero => rfl
  | succ k ih => simp [countTrailing, ih]

/-- Trailing zeros of a non-zero value of at most `k` bits (R244). -/
theorem le_countTrailing_iff (k x n : Nat) (hx : x ≠ 0) (h : x < 2 ^ k) : n ≤ countTrailing k x ↔ 2 ^ n ∣ x := by
  induction k generalizing x n with
  | zero => omega
  | succ k ih =>
    simp only [countTrailing]
    split
    · rename_i hodd
      cases n with
      | zero => simp
      | succ n =>
        refine iff_of_false (by omega) fun hd => ?_
        have : 2 ∣ x := Dvd.dvd.trans (by simp [Nat.pow_succ]) hd
        omega
    · rename_i heven
      cases n with
      | zero => simp
      | succ n =>
        rw [Nat.add_le_add_iff_right, ih (x / 2) n (by omega) (by rw [Nat.pow_succ] at h; omega)]
        conv_rhs => rw [show x = x / 2 * 2 by omega, Nat.pow_succ]
        exact (Nat.mul_dvd_mul_iff_right (by decide)).symm

/-- A text has at most as many digits as the value has bits, so the loop of `Digits` ends with all of them (R300). -/
theorem digitsLoop_eq (b : Nat) (hb : 2 ≤ b) (upper : Bool) (k x : Nat) (text : List Byte) (h : x < 2 ^ k) :
    digitsLoop b upper k x text = ((Nat.digits b x).map (digitChar upper)).reverse ++ text := by
  induction k generalizing x text with
  | zero =>
    obtain rfl : x = 0 := by simpa using h
    simp [digitsLoop]
  | succ k ih =>
    simp only [digitsLoop]
    split
    · rename_i hx
      simp [hx]
    · rename_i hx
      have hlt : x / b < 2 ^ k := by
        rw [Nat.pow_succ] at h
        exact Nat.div_lt_of_lt_mul (by nlinarith)
      rw [ih _ _ hlt, Nat.digits_def' (b := b) (n := x) (by omega) (Nat.pos_of_ne_zero hx)]
      simp

/-- `DigitChar` gives the ASCII character of the digit (R300). -/
theorem digitChar_eq_asciiDigit (upper : Bool) (d : Nat) : digitChar upper d = asciiDigit d upper := by
  unfold digitChar asciiDigit
  split
  · rfl
  · cases upper <;> simp <;> congr 1 <;> omega

/-- `Digits` writes the library's digits of the value (R300). -/
theorem digits_eq_digitText (w x b : Nat) (hb : 2 ≤ b) (upper : Bool) (h : x < 2 ^ w) :
    digits w x b upper = digitText b x upper := by
  unfold digits digitText
  split
  · rfl
  · simp [digitsLoop_eq b hb upper w x [] h, digitChar_eq_asciiDigit]

/-- The length of a digit text. -/
theorem length_digitText (b x : Nat) (upper : Bool) : (digitText b x upper).length = digitCount b x := by
  unfold digitText digitCount
  split <;> simp

/-- The little-endian value of the first `n` bytes of a value (R281, R283). -/
theorem fromLittleEndian_bytes (n x : Nat) : fromLittleEndian (littleEndianBytes n x) = x % 2 ^ (8 * n) := by
  induction n generalizing x with
  | zero => simp [fromLittleEndian, littleEndianBytes, Nat.mod_one]
  | succ n ih =>
    have hcons : littleEndianBytes (n + 1) x = byteOf x 0 :: littleEndianBytes n (x / 2 ^ 8) := by
      simp only [littleEndianBytes, List.range_succ_eq_map, List.map_cons, List.map_map]
      congr 1
      refine List.map_congr_left fun j _ => ?_
      simp only [Function.comp, byteOf, Nat.div_div_eq_div_mul, ← Nat.pow_add]
      congr 3
      omega
    rw [hcons]
    change (byteOf x 0).toNat + 256 * fromLittleEndian (littleEndianBytes n (x / 2 ^ 8)) = _
    rw [ih, show 8 * (n + 1) = 8 + 8 * n by omega, Nat.pow_add, Nat.mod_mul]
    simp [byteOf]

/-- The big-endian bytes are the little-endian ones in the other order (R282, R283). -/
theorem bigEndianBytes_eq_reverse (n x : Nat) : bigEndianBytes n x = (littleEndianBytes n x).reverse := by
  apply List.ext_getElem <;> simp [bigEndianBytes, littleEndianBytes]

/-- The big-endian value of bytes is the little-endian value of the reversed bytes (R280, R281). -/
theorem fromBigEndian_eq_reverse (bs : List Byte) : fromBigEndian bs = fromLittleEndian bs.reverse := by
  simp only [fromBigEndian, fromLittleEndian, List.foldr_reverse]
  congr 1
  funext acc b
  omega

@[simp] theorem length_littleEndianBytes (n x : Nat) : (littleEndianBytes n x).length = n := by
  simp [littleEndianBytes]

@[simp] theorem length_bigEndianBytes (n x : Nat) : (bigEndianBytes n x).length = n := by
  simp [bigEndianBytes]

/-- The square-root loop with `k` steps to go, where `a` is the part of the root found: `rem` is `x - a^2` and `res`
is `a * 2^k`. It ends with the floor of the root (R350). -/
theorem isqrtLoop_spec (k x a rem : Nat) (hx : x = a * a + rem) (hlt : x < (a + 2 ^ k) * (a + 2 ^ k)) :
    ∃ r, isqrtLoop k (2 ^ (2 * k) / 4) rem (a * 2 ^ k) = r ∧ r * r ≤ x ∧ x < (r + 1) * (r + 1) := by
  induction k generalizing a rem with
  | zero =>
    refine ⟨a, by simp [isqrtLoop], by omega, by simpa using hlt⟩
  | succ k ih =>
    have hbit : 2 ^ (2 * (k + 1)) / 4 = 2 ^ k * 2 ^ k := by
      rw [show 2 * (k + 1) = k + k + 2 by omega, Nat.pow_add, Nat.pow_add]
      omega
    have hbit4 : 2 ^ k * 2 ^ k / 4 = 2 ^ (2 * k) / 4 := by rw [← Nat.pow_add]; congr 2; omega
    have hres : a * 2 ^ (k + 1) / 2 = a * 2 ^ k := by
      rw [Nat.pow_succ, ← Nat.mul_assoc, Nat.mul_div_cancel _ (by decide)]
    have hsq : (a + 2 ^ k) * (a + 2 ^ k) = a * a + (a * 2 ^ (k + 1) + 2 ^ k * 2 ^ k) := by rw [Nat.pow_succ]; ring
    simp only [isqrtLoop, hbit, hbit4, hres]
    split
    · rename_i hle
      have := ih (a + 2 ^ k) (rem - (a * 2 ^ (k + 1) + 2 ^ k * 2 ^ k)) (by omega)
        (by rw [show a + 2 ^ k + 2 ^ k = a + 2 ^ (k + 1) by rw [Nat.pow_succ]; ring]; exact hlt)
      rwa [show (a + 2 ^ k) * 2 ^ k = a * 2 ^ k + 2 ^ k * 2 ^ k by ring] at this
    · rename_i hle
      exact ih a rem hx (by omega)

end Sys2Proof.Machine
end

