-- ==== Sys2Proof/Tests/Slice0.lean ====
section
/-!
SUPPORT. The model's own tests. Words, states before and results are those of spec/95_test_vectors.md and of the rules'
worked examples; none is the model's own answer. After them, the witnesses: for each statement with hypotheses, concrete
states and operands that meet them, at the boundaries of their ranges.
-/

-- One theorem after the other: many at once need more threads than the build allows.
set_option Elab.async false

namespace Sys2Proof.Tests

open Sys2Proof.Machine

/-! ### Helpers -/

/-- The engine of `n` limbs with the default buffer, right after reset, with some registers written. -/
def boot (n : Nat) (vs : List (Reg × Nat)) : State :=
  vs.foldl (fun s v => s.setReg v.1 v.2) (State.resetOf { limbs := n, bufBytes := 4096 })

/-- One step that issues these words: some registers, FLAGS and FAULT after it. -/
def sees (w : Word) (lit : Option Word) (s : State) (rs : List Reg) : Option (List Nat × Nat × Nat) :=
  match step (s.setHost [.issue w lit]) with
  | .next t => some (rs.map t.val, t.flags.bits.toNat, t.faultBits.toNat)
  | _ => none

/-- One step that issues these words: a register and the whole buffer after it. -/
def seesBuf (w : Word) (lit : Option Word) (s : State) (r : Reg) : Option (Nat × List Host.Cell) :=
  match step (s.setHost [.issue w lit]) with
  | .next t => some (t.val r, t.mem)
  | _ => none

/-- The decoder reads these commands from these words. -/
def reads (ws : List (Word × Option Word × Instr)) : Bool :=
  ws.all fun w => match decode w.1 w.2.1 with
    | .ok i => decide (i = w.2.2)
    | .error _ => false

/-- The decoder refuses these words. -/
def refuses (ws : List (Word × Option Word)) : Bool :=
  ws.all fun w => match decode w.1 w.2 with
    | .ok _ => false
    | .error _ => true

/-- The outcome is a next state with this property. -/
def nextHas (p : State → Bool) : Result → Bool
  | .next t => p t
  | _ => false

/-- The outcome is the model outcome UninitRead at this address. -/
def uninitAt (a : Nat) : Result → Bool
  | .fault (.uninitRead e) => decide (e = a)
  | _ => false

/-! ### Well-formedness: the one check there is, refused on each side (R74) -/

theorem test_wellFormed_refuses_radix :
    Instr.wellFormed (.parser 0 0 1 1) = false ∧ Instr.wellFormed (.parser 0 0 1 37) = false ∧
      Instr.wellFormed (.fmtr 0 1 0 0) = false ∧ Instr.wellFormed (.fmtr 0 1 0 37) = false := by decide

theorem test_wellFormed_accepts_radix :
    Instr.wellFormed (.parser 0 0 1 2) = true ∧ Instr.wellFormed (.parser 0 0 1 36) = true ∧
      Instr.wellFormed (.fmtr 0 1 0 2) = true ∧ Instr.wellFormed (.fmtr 0 1 0 36) = true := by decide

/-! ### Illegal words (R79; V-FT-1 to V-FT-15) -/

theorem test_illegal_words : refuses [
    (0x0000000000000000, none), (0x000000000000000c, none), (0x0000000004021310, none),
    (0x000000000602130a, none), (0x0000000002021322, none), (0x0000000005001207, none),
    (0x0001001025000266, none), (0x0001001001000266, none), (0x0000000004001268, none),
    (0x0000000000000101, none), (0x0000000000031202, none), (0x0001002000001062, none),
    (0x0000000001021331, none), (0x0000000000001104, none), (0x0000000000000001, some 0x55)] = true := by
  decide +kernel

/-- V-FT-15: the words as issued go to FAULTCMD and FAULTLIT. -/
theorem test_illegal_command_records_words :
    nextHas (fun t => t.faultBits == 0x0101 && t.faultCmd == 1 && t.faultLit == 0x55
        && t.reply == some (.faulted .illegalCommand))
      (step ((boot 4 []).setHost [.issue 1 (some 0x55)])) = true := by decide +kernel

/-- V-FT-17: `BAD_LENGTH` before `BUFFER_RANGE`. -/
theorem test_bad_length_wins : sees 0x00280ffa00000160 none (boot 4 []) [] = some ([], 0, 0x0401) := by
  decide +kernel

/-- R31, the discard example of spec/95_test_vectors.md: a command issued in STOPPED. -/
theorem test_stopped_discards :
    nextHas (fun t => t.val 4 == 7 && t.fault == some .divideByZero && t.reply == some .discarded)
      (step (((boot 4 [(4, 7)]).takeFault .divideByZero (0x21331, none)).setHost [.issue 0x0000000500000403 none]))
      = true := by
  decide +kernel

/-! ### The table's words, and an idle step -/

/-- The table's numbering: LDMAX v0 (one word), and LDL with its literal in the second word, or with none given. -/
theorem test_decodeTableWord :
    decodeTableWord 64 0x05 = some (.ldmax 0) ∧
      decodeTableWord 128 0x0123456789abcdef0000000200001104 = some (.ldl 1 1 2 0x0123456789abcdef) ∧
      decodeTableWord 64 0x0000000200001104 = some (.ldl 1 1 2 0) ∧ decodeTableWord 64 0 = none := by
  decide +kernel

/-- The word placed is the next command run, from reset. -/
theorem test_withFetchWord_runs :
    nextHas (fun t => t.val 0 == 2 ^ 256 - 1 && t.host == [] && t.reply == some .ok)
      (step (State.reset.withFetchWord 64 0x05)) = true := by decide +kernel

/-- R410, R421: with nothing to come the engine does nothing. -/
theorem test_idle_step : step State.reset = .next State.reset := rfl

/-! ### The division datapath's corrections (R204) -/

/-- V-DV-16: two corrections of one estimate. -/
theorem test_divMulti_dv_16 :
    divMulti 4 2 (2 ^ 192) 0x8000000000000000ffffffffffffffff = (2 ^ 65 - 4, 0x0005fffffffffffffffc) := by
  decide +kernel

/-- V-DV-17: the add-back. -/
theorem test_divMulti_dv_17 :
    divMulti 4 3 (2 ^ 192) (2 ^ 128 + 1) = (2 ^ 64 - 1, 0xffffffffffffffff0000000000000001) := by decide +kernel

/-! ### The limb store -/

/-- Words of spec/95_test_vectors.md and the commands they stand for (R71 to R77). -/
theorem test_decode_limb_store : reads [
    (0x0000000000000001, none, .nop),
    (0x0000000000001202, none, .mov 2 1),
    (0xffffffff00000103, none, .ldi 1 4294967295),
    (0x0000000300001104, (some 0x8000000000000000), .ldl 1 1 3 9223372036854775808),
    (0x0000000000000005, none, .ldmax 0),
    (0x0000000100001206, none, .getl 2 1 1),
    (0x0000000000001207, none, .narrow 2 1 .w8),
    (0x0000000000000908, none, .rdf 9),
    (0x0000000000000009, none, .clrf),
    (0x000000000002130a, none, .cmpEq 3 1 2),
    (0x000000000102130a, none, .cmpNe 3 1 2),
    (0x000000000202130a, none, .cmpLt 3 1 2),
    (0x000000000302130a, none, .cmpLe 3 1 2),
    (0x000000000402130a, none, .cmpGt 3 1 2),
    (0x000000000502130a, none, .cmpGe 3 1 2),
    (0x000000000000120b, none, .isz 2 1)] = true := by
  decide +kernel

/-- V-LS-1, `NOP`. -/
theorem test_nop_ls_1 : sees 0x0000000000000001 none (boot 4 [(1, 7)]) [1] = some ([7], 0, 0) := by decide +kernel
/-- V-LS-2, `MOV v2, v1`. -/
theorem test_mov_ls_2 : sees 0x0000000000001202 none (boot 4 [(1, 7)]) [2] = some ([7], 0, 0) := by decide +kernel
/-- V-LS-4, `LDI v1, #0xFFFFFFFF`. -/
theorem test_ldi_ls_4 : sees 0xffffffff00000103 none (boot 4 []) [1] = some ([4294967295], 0, 0) := by decide +kernel
/-- V-LS-5, `LDI v1, #0`. -/
theorem test_ldi_ls_5 :
    sees 0x0000000000000103 none (boot 4 [(1, 0xffffffffffffffffffffffffffffffffffffffffffffffffffffffffffffffff)])
      [1] = some ([0], 0, 0) := by
  decide +kernel
/-- V-LS-6, `LDL v1, v1, #3, #0x8000000000000000`. -/
theorem test_ldl_ls_6 :
    sees 0x0000000300001104 (some 0x8000000000000000) (boot 4 [(1, 1)])
      [1] = some ([0x8000000000000000000000000000000000000000000000000000000000000001], 0, 0) := by
  decide +kernel
/-- V-LS-8, `LDL v1, v1, #4, #1`. -/
theorem test_ldl_ls_8 :
    sees 0x0000000400001104 (some 0x0000000000000001) (boot 4 [(1, 1)]) [1] = some ([1], 0, 1281) := by
  decide +kernel
/-- V-LS-10, `LDMAX v0`. -/
theorem test_ldmax_ls_10 :
    sees 0x0000000000000005 none (boot 4 [])
      [0] = some ([0xffffffffffffffffffffffffffffffffffffffffffffffffffffffffffffffff], 0, 0) := by
  decide +kernel
/-- V-LS-11, `GETL v2, v1, #1`. -/
theorem test_getl_ls_11 :
    sees 0x0000000100001206 none (boot 4 [(1, 0x10000000000000005)]) [2] = some ([1], 0, 0) := by
  decide +kernel
/-- V-LS-13, `GETL v2, v1, #4`. -/
theorem test_getl_ls_13 :
    sees 0x0000000400001206 none (boot 4 [(1, 1)]) [1] = some ([1], 0, 1281) := by
  decide +kernel
/-- V-LS-14, `NARROW v2, v1, #8`. -/
theorem test_narrow_ls_14 :
    sees 0x0000000000001207 none (boot 4 [(1, 511)]) [2] = some ([255], 1, 0) := by
  decide +kernel
/-- V-LS-19, `NARROW v2, v1, #128`. -/
theorem test_narrow_ls_19 :
    sees 0x0000000004001207 none (((boot 2 [(1, 0xffffffffffffffffffffffffffffffff)]).setOv true).setPerr .ok)
      [2] = some ([0xffffffffffffffffffffffffffffffff], 0, 0) := by
  decide +kernel
/-- V-LS-21, `RDF v9`. -/
theorem test_rdf_ls_21 :
    sees 0x0000000000000908 none (((boot 4 []).setOv true).setPerr .empty) [9] = some ([7], 7, 0) := by
  decide +kernel
/-- V-LS-23, `CLRF`. -/
theorem test_clrf_ls_23 :
    sees 0x0000000000000009 none (((boot 4 []).setOv true).setPerr .overflow) [0] = some ([0], 0, 0) := by
  decide +kernel
/-- V-LS-24, `CMP.EQ v3, v1, v2`. -/
theorem test_cmpEq_ls_24 :
    sees 0x000000000002130a none (boot 4 [(1, 0x10000000000000000), (2, 18446744073709551615)])
      [3] = some ([0], 0, 0) := by
  decide +kernel
/-- V-LS-30, `CMP.EQ v3, v1, v1`. -/
theorem test_cmpEq_ls_30 :
    sees 0x000000000001130a none (boot 4 [(1, 0xffffffffffffffffffffffffffffffffffffffffffffffffffffffffffffffff)])
      [3] = some ([1], 0, 0) := by
  decide +kernel
/-- V-LS-33, `CMP.NE v3, v1, v2`. -/
theorem test_cmpNe_ls_33 :
    sees 0x000000000102130a none (boot 4 [(1, 1), (2, 0x10000000000000001)]) [3] = some ([1], 0, 0) := by
  decide +kernel
/-- V-LS-26, `CMP.LT v3, v1, v2`. -/
theorem test_cmpLt_ls_26 :
    sees 0x000000000202130a none (boot 4 [(1, 0x10000000000000000), (2, 18446744073709551615)])
      [3] = some ([0], 0, 0) := by
  decide +kernel
/-- V-LS-31, `CMP.LT v3, v1, v1`. -/
theorem test_cmpLt_ls_31 : sees 0x000000000201130a none (boot 4 [(1, 5)]) [3] = some ([0], 0, 0) := by decide +kernel
/-- V-LS-27, `CMP.LE v3, v1, v2`. -/
theorem test_cmpLe_ls_27 :
    sees 0x000000000302130a none (boot 4 [(1, 0x10000000000000000), (2, 18446744073709551615)])
      [3] = some ([0], 0, 0) := by
  decide +kernel
/-- V-LS-28, `CMP.GT v3, v1, v2`. -/
theorem test_cmpGt_ls_28 :
    sees 0x000000000402130a none (boot 4 [(1, 0x10000000000000000), (2, 18446744073709551615)])
      [3] = some ([1], 0, 0) := by
  decide +kernel
/-- V-LS-29, `CMP.GE v3, v1, v2`. -/
theorem test_cmpGe_ls_29 :
    sees 0x000000000502130a none (boot 4 [(1, 0x10000000000000000), (2, 18446744073709551615)])
      [3] = some ([1], 0, 0) := by
  decide +kernel
/-- V-LS-32, `CMP.GE v1, v1, v2`. -/
theorem test_cmpGe_ls_32 :
    sees 0x000000000502110a none (boot 4 [(1, 3), (2, 4)]) [1] = some ([0], 0, 0) := by
  decide +kernel
/-- V-LS-34, `ISZ v2, v1`. -/
theorem test_isz_ls_34 : sees 0x000000000000120b none (boot 4 [(1, 0)]) [2] = some ([1], 0, 0) := by decide +kernel
/-- V-LS-35, `ISZ v2, v1`. -/
theorem test_isz_ls_35 :
    sees 0x000000000000120b none (boot 4 [(1, 0x1000000000000000000000000000000000000000000000000)])
      [2] = some ([0], 0, 0) := by
  decide +kernel

/-! ### The adder -/

/-- Words of spec/95_test_vectors.md and the commands they stand for (R71 to R77). -/
theorem test_decode_adder : reads [
    (0x0000000000021310, none, .addW 3 1 2),
    (0x0000000001021310, none, .addO 3 1 2),
    (0x0000000002021310, none, .addC 3 1 2),
    (0x0000000003021310, none, .addS 3 1 2),
    (0x0000000000021311, none, .subW 3 1 2),
    (0x0000000001021311, none, .subO 3 1 2),
    (0x0000000002021311, none, .subC 3 1 2),
    (0x0000000003021311, none, .subS 3 1 2)] = true := by
  decide +kernel

/-- V-AS-1, `ADD.W v3, v1, v2`. -/
theorem test_addW_as_1 :
    sees 0x0000000000021310 none (boot 4 [(1, 0xffffffffffffffffffffffffffffffffffffffffffffffffffffffffffffffff), (2, 1)])
      [3] = some ([0], 0, 0) := by
  decide +kernel
/-- V-AS-3, `ADD.W v1, v1, v1`. -/
theorem test_addW_as_3 :
    sees 0x0000000000011110 none (boot 4 [(1, 0x8000000000000000000000000000000000000000000000000000000000000003)])
      [1] = some ([6], 0, 0) := by
  decide +kernel
/-- V-AS-5, `ADD.O v3, v1, v2`. -/
theorem test_addO_as_5 :
    sees 0x0000000001021310 none (boot 4 [(1, 0xffffffffffffffffffffffffffffffffffffffffffffffffffffffffffffffff), (2, 0xffffffffffffffffffffffffffffffffffffffffffffffffffffffffffffffff)])
      [3] = some ([0xfffffffffffffffffffffffffffffffffffffffffffffffffffffffffffffffe], 1, 0) := by
  decide +kernel
/-- V-AS-7, `ADD.O v3, v1, v2`. -/
theorem test_addO_as_7 :
    sees 0x0000000001021310 none (boot 4 [(1, 0xffffffffffffffffffffffffffffffffffffffffffffffff), (2, 1)])
      [3] = some ([0x1000000000000000000000000000000000000000000000000], 0, 0) := by
  decide +kernel
/-- V-AS-8, `ADD.C v3, v1, v2`. -/
theorem test_addC_as_8 :
    sees 0x0000000002021310 none (boot 4 [(1, 0xffffffffffffffffffffffffffffffffffffffffffffffffffffffffffffffff), (2, 1), (3, 9)])
      [3] = some ([9], 1, 0) := by
  decide +kernel
/-- V-AS-9, `ADD.C v3, v1, v2`. -/
theorem test_addC_as_9 :
    sees 0x0000000002021310 none (((boot 4 [(1, 0xffffffffffffffffffffffffffffffffffffffffffffffffffffffffffffffff), (2, 0), (3, 9)]).setOv true).setPerr .ok)
      [3] = some ([0xffffffffffffffffffffffffffffffffffffffffffffffffffffffffffffffff], 0, 0) := by
  decide +kernel
/-- V-AS-11, `ADD.S v3, v1, v2`. -/
theorem test_addS_as_11 :
    sees 0x0000000003021310 none (boot 4 [(1, 0xfffffffffffffffffffffffffffffffffffffffffffffffffffffffffffffffe), (2, 5)])
      [3] = some ([0xffffffffffffffffffffffffffffffffffffffffffffffffffffffffffffffff], 0, 0) := by
  decide +kernel
/-- V-AS-12, `ADD.S v3, v1, v2`. -/
theorem test_addS_as_12 :
    sees 0x0000000003021310 none (((boot 4 [(1, 1), (2, 2)]).setOv true).setPerr .ok) [3] = some ([3], 1, 0) := by
  decide +kernel
/-- V-AS-15, `SUB.W v3, v1, v2`. -/
theorem test_subW_as_15 :
    sees 0x0000000000021311 none (boot 4 [(1, 0), (2, 1)])
      [3] = some ([0xffffffffffffffffffffffffffffffffffffffffffffffffffffffffffffffff], 0, 0) := by
  decide +kernel
/-- V-AS-16, `SUB.W v3, v1, v2`. -/
theorem test_subW_as_16 :
    sees 0x0000000000021311 none (boot 4 [(1, 0x1000000000000000000000000000000000000000000000000), (2, 1)])
      [3] = some ([0xffffffffffffffffffffffffffffffffffffffffffffffff], 0, 0) := by
  decide +kernel
/-- V-AS-18, `SUB.O v3, v1, v2`. -/
theorem test_subO_as_18 :
    sees 0x0000000001021311 none (boot 4 [(1, 5), (2, 7)])
      [3] = some ([0xfffffffffffffffffffffffffffffffffffffffffffffffffffffffffffffffe], 1, 0) := by
  decide +kernel
/-- V-AS-20, `SUB.O v3, v1, v2`. -/
theorem test_subO_as_20 :
    sees 0x0000000001021311 none (((boot 4 [(1, 7), (2, 7)]).setOv true).setPerr .ok) [3] = some ([0], 0, 0) := by
  decide +kernel
/-- V-AS-21, `SUB.C v3, v1, v2`. -/
theorem test_subC_as_21 :
    sees 0x0000000002021311 none (boot 4 [(1, 5), (2, 7), (3, 1)]) [3] = some ([1], 1, 0) := by
  decide +kernel
/-- V-AS-22, `SUB.C v3, v1, v2`. -/
theorem test_subC_as_22 :
    sees 0x0000000002021311 none (((boot 4 [(1, 7), (2, 5), (3, 1)]).setOv true).setPerr .ok)
      [3] = some ([2], 0, 0) := by
  decide +kernel
/-- V-AS-23, `SUB.S v3, v1, v2`. -/
theorem test_subS_as_23 :
    sees 0x0000000003021311 none (boot 4 [(1, 5), (2, 7)]) [3] = some ([0], 0, 0) := by
  decide +kernel
/-- V-AS-24, `SUB.S v3, v1, v2`. -/
theorem test_subS_as_24 :
    sees 0x0000000003021311 none (boot 4 [(1, 0x100000000000000000000000000000000000000000000000000), (2, 1)])
      [3] = some ([0xffffffffffffffffffffffffffffffffffffffffffffffffff], 0, 0) := by
  decide +kernel

/-! ### The multiplier -/

/-- Words of spec/95_test_vectors.md and the commands they stand for (R71 to R77). -/
theorem test_decode_multiplier : reads [
    (0x0000000000021320, none, .mulW 3 1 2),
    (0x0000000001021320, none, .mulO 3 1 2),
    (0x0000000002021320, none, .mulC 3 1 2),
    (0x0000000003021320, none, .mulS 3 1 2),
    (0x0000000000421321, none, .mulWide 3 4 1 2),
    (0x0000000000021322, none, .powW 3 1 2),
    (0x0000000001021322, none, .powO 3 1 2)] = true := by
  decide +kernel

/-- V-MU-2, `MUL.W v3, v1, v2`. -/
theorem test_mulW_mu_2 :
    sees 0x0000000000021320 none (boot 4 [(1, 0xffffffffffffffffffffffffffffffffffffffffffffffffffffffffffffffff), (2, 0xffffffffffffffffffffffffffffffffffffffffffffffffffffffffffffffff)])
      [3] = some ([1], 0, 0) := by
  decide +kernel
/-- V-MU-3, `MUL.W v1, v1, v1`. -/
theorem test_mulW_mu_3 :
    sees 0x0000000000011120 none (boot 4 [(1, 0x10000000000000001)])
      [1] = some ([0x100000000000000020000000000000001], 0, 0) := by
  decide +kernel
/-- V-MU-6, `MUL.O v3, v1, v2`. -/
theorem test_mulO_mu_6 :
    sees 0x0000000001021320 none (boot 4 [(1, 0x100000000000000000000000000000000), (2, 0x100000000000000000000000000000000)])
      [3] = some ([0], 1, 0) := by
  decide +kernel
/-- V-MU-7, `MUL.O v3, v1, v2`. -/
theorem test_mulO_mu_7 :
    sees 0x0000000001021320 none (((boot 8 [(1, 18446744073709551615), (2, 2)]).setOv true).setPerr .ok)
      [3] = some ([0x1fffffffffffffffe], 0, 0) := by
  decide +kernel
/-- V-MU-10, `MUL.C v3, v1, v2`. -/
theorem test_mulC_mu_10 :
    sees 0x0000000002021320 none (boot 4 [(1, 0x8000000000000000000000000000000000000000000000000000000000000000), (2, 2), (3, 4)])
      [3] = some ([4], 1, 0) := by
  decide +kernel
/-- V-MU-11, `MUL.C v3, v1, v2`. -/
theorem test_mulC_mu_11 :
    sees 0x0000000002021320 none (((boot 4 [(1, 0x80000000000000000000000000000000), (2, 2), (3, 4)]).setOv true).setPerr .ok)
      [3] = some ([0x100000000000000000000000000000000], 0, 0) := by
  decide +kernel
/-- V-MU-12, `MUL.S v3, v1, v2`. -/
theorem test_mulS_mu_12 :
    sees 0x0000000003021320 none (boot 4 [(1, 0x8000000000000000000000000000000000000000000000000000000000000000), (2, 2)])
      [3] = some ([0xffffffffffffffffffffffffffffffffffffffffffffffffffffffffffffffff], 0, 0) := by
  decide +kernel
/-- V-MU-13, `MUL.S v3, v1, v2`. -/
theorem test_mulS_mu_13 :
    sees 0x0000000003021320 none (boot 4 [(1, 0), (2, 0xffffffffffffffffffffffffffffffffffffffffffffffffffffffffffffffff)])
      [3] = some ([0], 0, 0) := by
  decide +kernel
/-- V-MU-14, `MULW v3, v4, v1, v2`. -/
theorem test_mulWide_mu_14 :
    sees 0x0000000000421321 none (boot 4 [(1, 0xffffffffffffffffffffffffffffffffffffffffffffffffffffffffffffffff), (2, 0xffffffffffffffffffffffffffffffffffffffffffffffffffffffffffffffff)])
      [3, 4] = some ([1, 0xfffffffffffffffffffffffffffffffffffffffffffffffffffffffffffffffe], 0, 0) := by
  decide +kernel
/-- V-MU-16, `MULW v3, v3, v1, v2`. -/
theorem test_mulWide_mu_16 :
    sees 0x0000000000321321 none (boot 4 [(1, 2), (2, 3)]) [1] = some ([2], 0, 1537) := by
  decide +kernel
/-- V-MU-26, `POW.W v3, v1, v2`. -/
theorem test_powW_mu_26 :
    sees 0x0000000000021322 none (boot 4 [(1, 3), (2, 0x100000000000000000000000000000000000000000000000000)])
      [3] = some ([0xc77ae32292e8f400000000000000000000000000000000000000000000000001], 0, 0) := by
  decide +kernel
/-- V-MU-27, `POW.W v3, v1, v2`. -/
theorem test_powW_mu_27 :
    sees 0x0000000000021322 none (boot 4 [(1, 10), (2, 0)]) [3] = some ([1], 0, 0) := by
  decide +kernel
/-- V-MU-23, `POW.O v3, v1, v2`. -/
theorem test_powO_mu_23 :
    sees 0x0000000001021322 none (((boot 4 [(1, 3), (2, 161)]).setOv true).setPerr .ok)
      [3] = some ([0x90e7a7d36283c4589cff2b2b8d32d43e1eeb4315dc9ac9ead2ceaacca8492983], 0, 0) := by
  decide +kernel
/-- V-MU-24, `POW.O v3, v1, v2`. -/
theorem test_powO_mu_24 :
    sees 0x0000000001021322 none (boot 4 [(1, 3), (2, 162)])
      [3] = some ([0xb2b6f77a278b4d09d6fd8182a7987cba5cc1c94195d05dc0786c0065f8db7c89], 1, 0) := by
  decide +kernel

/-! ### The division engine -/

/-- Words of spec/95_test_vectors.md and the commands they stand for (R71 to R77). -/
theorem test_decode_divider : reads [
    (0x0000000000421330, none, .divmod 3 4 1 2),
    (0x0000000000021331, none, .div 3 1 2),
    (0x0000000000021332, none, .rem 3 1 2)] = true := by
  decide +kernel

/-- V-DV-1, `DIVMOD v3, v4, v1, v2`. -/
theorem test_divmod_dv_1 :
    sees 0x0000000000421330 none (boot 4 [(1, 0x100000000000000000000000000000000000000000000000007), (2, 0x10000000000000001)])
      [3, 4] = some ([0xffffffffffffffff0000000000000000ff, 18446744073709551368], 0, 0) := by
  decide +kernel
/-- V-DV-10, `DIVMOD v3, v3, v1, v2`. -/
theorem test_divmod_dv_10 :
    sees 0x0000000000321330 none (boot 4 [(1, 5), (2, 0)]) [1] = some ([5], 0, 1537) := by
  decide +kernel
/-- V-DV-2, `DIV v3, v1, v2`. -/
theorem test_div_dv_2 :
    sees 0x0000000000021331 none (boot 4 [(1, 100), (2, 7)]) [3] = some ([14], 0, 0) := by
  decide +kernel
/-- V-DV-8, `DIV v3, v1, v2`. -/
theorem test_div_dv_8 :
    sees 0x0000000000021331 none (boot 4 [(1, 5), (2, 0)]) [1] = some ([5], 0, 513) := by
  decide +kernel
/-- V-DV-3, `REM v3, v1, v2`. -/
theorem test_rem_dv_3 :
    sees 0x0000000000021332 none (boot 4 [(1, 100), (2, 7)]) [3] = some ([2], 0, 0) := by
  decide +kernel
/-- V-DV-9, `REM v3, v1, v2`. -/
theorem test_rem_dv_9 :
    sees 0x0000000000021332 none (boot 4 [(1, 0), (2, 0)]) [1] = some ([0], 0, 513) := by
  decide +kernel

/-! ### The shift and bit unit -/

/-- Words of spec/95_test_vectors.md and the commands they stand for (R71 to R77). -/
theorem test_decode_shift_bit : reads [
    (0x0000000000021340, none, .shl 3 1 2),
    (0x0000000000021341, none, .shr 3 1 2),
    (0x0000000000021342, none, .rol 3 1 2),
    (0x0000000000021343, none, .ror 3 1 2),
    (0x000000fc00001244, none, .shli 2 1 252),
    (0x0000003f00001245, none, .shri 2 1 63),
    (0x0000000200001246, none, .roli 2 1 2),
    (0x0000004000001247, none, .rori 2 1 64),
    (0x0000000000021350, none, .bitAnd 3 1 2),
    (0x0000000000021351, none, .bitOr 3 1 2),
    (0x0000000000021352, none, .bitXor 3 1 2),
    (0x0000000000001253, none, .bitNot 2 1),
    (0x0000000000001254, none, .clz 2 1),
    (0x0000000000001255, none, .ctz 2 1),
    (0x0000000000001256, none, .bits 2 1),
    (0x000000c800001257, none, .bit 2 1 200)] = true := by
  decide +kernel

/-- V-SB-4, `SHL v3, v1, v2`. -/
theorem test_shl_sb_4 :
    sees 0x0000000000021340 none (boot 4 [(1, 1), (2, 0x10000000000000000)]) [3] = some ([0], 0, 0) := by
  decide +kernel
/-- V-SB-6, `SHL v3, v1, v2`. -/
theorem test_shl_sb_6 :
    sees 0x0000000000021340 none (boot 4 [(1, 9223372036854775809), (2, 63)])
      [3] = some ([0x40000000000000008000000000000000], 0, 0) := by
  decide +kernel
/-- V-SB-7, `SHR v3, v1, v2`. -/
theorem test_shr_sb_7 :
    sees 0x0000000000021341 none (boot 4 [(1, 0x8000000000000000000000000000000000000000000000000000000000000000), (2, 255)])
      [3] = some ([1], 0, 0) := by
  decide +kernel
/-- V-SB-8, `SHR v3, v1, v2`. -/
theorem test_shr_sb_8 :
    sees 0x0000000000021341 none (boot 4 [(1, 0xffffffffffffffffffffffffffffffffffffffffffffffffffffffffffffffff), (2, 256)])
      [3] = some ([0], 0, 0) := by
  decide +kernel
/-- V-SB-11, `ROL v3, v1, v2`. -/
theorem test_rol_sb_11 :
    sees 0x0000000000021342 none (boot 4 [(1, 0x8000000000000000000000000000000000000000000000000000000000000001), (2, 1)])
      [3] = some ([3], 0, 0) := by
  decide +kernel
/-- V-SB-12, `ROL v3, v1, v2`. -/
theorem test_rol_sb_12 :
    sees 0x0000000000021342 none (boot 4 [(1, 4660), (2, 256)]) [3] = some ([4660], 0, 0) := by
  decide +kernel
/-- V-SB-14, `ROR v3, v1, v2`. -/
theorem test_ror_sb_14 :
    sees 0x0000000000021343 none (boot 4 [(1, 3), (2, 1)])
      [3] = some ([0x8000000000000000000000000000000000000000000000000000000000000001], 0, 0) := by
  decide +kernel
/-- V-SB-15, `ROR v3, v1, v2`. -/
theorem test_ror_sb_15 :
    sees 0x0000000000021343 none (boot 4 [(1, 1), (2, 0xffffffffffffffffffffffffffffffffffffffffffffffffffffffffffffffff)])
      [3] = some ([2], 0, 0) := by
  decide +kernel
/-- V-SB-16, `SHLI v2, v1, #252`. -/
theorem test_shli_sb_16 :
    sees 0x000000fc00001244 none (boot 4 [(1, 255)])
      [2] = some ([0xf000000000000000000000000000000000000000000000000000000000000000], 0, 0) := by
  decide +kernel
/-- V-SB-17, `SHLI v2, v1, #0`. -/
theorem test_shli_sb_17 :
    sees 0x0000000000001244 none (boot 4 [(1, 255)]) [2] = some ([255], 0, 0) := by
  decide +kernel
/-- V-SB-18, `SHRI v2, v1, #63`. -/
theorem test_shri_sb_18 :
    sees 0x0000003f00001245 none (boot 4 [(1, 0x18000000000000000)]) [2] = some ([3], 0, 0) := by
  decide +kernel
/-- V-SB-19, `SHRI v2, v1, #300`. -/
theorem test_shri_sb_19 :
    sees 0x0000012c00001245 none (boot 4 [(1, 0xffffffffffffffffffffffffffffffffffffffffffffffffffffffffffffffff)])
      [2] = some ([0], 0, 0) := by
  decide +kernel
/-- V-SB-20, `ROLI v2, v1, #2`. -/
theorem test_roli_sb_20 :
    sees 0x0000000200001246 none (boot 4 [(1, 0x8000000000000000000000000000000000000000000000000000000000000000)])
      [2] = some ([2], 0, 0) := by
  decide +kernel
/-- V-SB-21, `RORI v2, v1, #64`. -/
theorem test_rori_sb_21 :
    sees 0x0000004000001247 none (boot 4 [(1, 1)])
      [2] = some ([0x1000000000000000000000000000000000000000000000000], 0, 0) := by
  decide +kernel
/-- V-SB-22, `RORI v2, v1, #512`. -/
theorem test_rori_sb_22 :
    sees 0x0000020000001247 none (boot 4 [(1, 43981)]) [2] = some ([43981], 0, 0) := by
  decide +kernel
/-- V-SB-23, `AND v3, v1, v2`. -/
theorem test_bitAnd_sb_23 :
    sees 0x0000000000021350 none (boot 4 [(1, 61680), (2, 4080)]) [3] = some ([240], 0, 0) := by
  decide +kernel
/-- V-SB-24, `OR v3, v1, v2`. -/
theorem test_bitOr_sb_24 :
    sees 0x0000000000021351 none (boot 4 [(1, 61680), (2, 4080)]) [3] = some ([65520], 0, 0) := by
  decide +kernel
/-- V-SB-25, `XOR v3, v1, v2`. -/
theorem test_bitXor_sb_25 :
    sees 0x0000000000021352 none (boot 4 [(1, 61680), (2, 4080)]) [3] = some ([65280], 0, 0) := by
  decide +kernel
/-- V-SB-29, `NOT v2, v1`. -/
theorem test_bitNot_sb_29 :
    sees 0x0000000000001253 none (boot 4 [(1, 0)])
      [2] = some ([0xffffffffffffffffffffffffffffffffffffffffffffffffffffffffffffffff], 0, 0) := by
  decide +kernel
/-- V-SB-30, `NOT v2, v1`. -/
theorem test_bitNot_sb_30 :
    sees 0x0000000000001253 none (boot 4 [(1, 18446744073709551615)])
      [2] = some ([0xffffffffffffffffffffffffffffffffffffffffffffffff0000000000000000], 0, 0) := by
  decide +kernel
/-- V-SB-31, `CLZ v2, v1`. -/
theorem test_clz_sb_31 : sees 0x0000000000001254 none (boot 4 [(1, 0)]) [2] = some ([256], 0, 0) := by decide +kernel
/-- V-SB-32, `CLZ v2, v1`. -/
theorem test_clz_sb_32 :
    sees 0x0000000000001254 none (boot 4 [(1, 0x10000000000000000)]) [2] = some ([191], 0, 0) := by
  decide +kernel
/-- V-SB-35, `CTZ v2, v1`. -/
theorem test_ctz_sb_35 : sees 0x0000000000001255 none (boot 4 [(1, 0)]) [2] = some ([256], 0, 0) := by decide +kernel
/-- V-SB-36, `CTZ v2, v1`. -/
theorem test_ctz_sb_36 :
    sees 0x0000000000001255 none (boot 4 [(1, 0x100000000000000000400000000000000000000000000000000)])
      [2] = some ([130], 0, 0) := by
  decide +kernel
/-- V-SB-38, `BITS v2, v1`. -/
theorem test_bits_sb_38 : sees 0x0000000000001256 none (boot 4 [(1, 0)]) [2] = some ([0], 0, 0) := by decide +kernel
/-- V-SB-39, `BITS v2, v1`. -/
theorem test_bits_sb_39 : sees 0x0000000000001256 none (boot 4 [(1, 255)]) [2] = some ([8], 0, 0) := by decide +kernel
/-- V-SB-41, `BIT v2, v1, #200`. -/
theorem test_bit_sb_41 :
    sees 0x000000c800001257 none (boot 4 [(1, 0x100000000000000000000000000000000000000000000000000)])
      [2] = some ([1], 0, 0) := by
  decide +kernel
/-- V-SB-44, `BIT v2, v1, #256`. -/
theorem test_bit_sb_44 :
    sees 0x0000010000001257 none (boot 4 [(1, 0xffffffffffffffffffffffffffffffffffffffffffffffffffffffffffffffff)])
      [1] = some ([0xffffffffffffffffffffffffffffffffffffffffffffffffffffffffffffffff], 0, 1281) := by
  decide +kernel

/-! ### The conversion unit -/

/-- Words of spec/95_test_vectors.md and the commands they stand for (R71 to R77). -/
theorem test_decode_conversion : reads [
    (0x0003010000000560, none, .ldbe 5 256 3),
    (0x0003010000000561, none, .ldle 5 256 3),
    (0x0000000000001062, none, .stbe 1 0),
    (0x0000000000001063, none, .stle 1 0),
    (0x0004002000000264, none, .parsedec 2 32 4),
    (0x0004004000000365, none, .parsehex 3 64 4),
    (0x0005001024000266, none, .parser 2 16 5 36),
    (0x0000000000001267, none, .fmtdec 2 1 0),
    (0x0000000002001268, none, .fmthex 2 1 0 ⟨false, true⟩),
    (0x0000000024001269, none, .fmtr 2 1 0 36),
    (0x000000000000126a, none, .f2u 2 1),
    (0x000000000000126b, none, .u2f 2 1)] = true := by
  decide +kernel

/-- V-BY-1, `LDBE v5, [0x100], #3`. -/
theorem test_ldbe_by_1 :
    sees 0x0003010000000560 none ((boot 4 []).writeBytes 256 [0x01, 0x02, 0x03]) [5] = some ([66051], 0, 0) := by
  decide +kernel
/-- V-BY-6, `LDBE v5, [0x100], #33`. -/
theorem test_ldbe_by_6 :
    sees 0x0021010000000560 none ((boot 4 []).writeBytes 256 [0x01, 0x02, 0x03, 0x04, 0x05, 0x06, 0x07, 0x08, 0x09, 0x0a, 0x0b, 0x0c, 0x0d, 0x0e, 0x0f, 0x10, 0x11, 0x12, 0x13, 0x14, 0x15, 0x16, 0x17, 0x18, 0x19, 0x1a, 0x1b, 0x1c, 0x1d, 0x1e, 0x1f, 0x20, 0x21])
      [0] = some ([0], 0, 1025) := by
  decide +kernel
/-- V-BY-2, `LDLE v5, [0x100], #3`. -/
theorem test_ldle_by_2 :
    sees 0x0003010000000561 none ((boot 4 []).writeBytes 256 [0x01, 0x02, 0x03]) [5] = some ([197121], 0, 0) := by
  decide +kernel
/-- V-BY-8, `LDLE v5, [4093], #3`. -/
theorem test_ldle_by_8 :
    sees 0x00030ffd00000561 none ((boot 4 []).writeBytes 4093 [0xaa, 0xbb, 0xcc]) [5] = some ([13417386], 0, 0) := by
  decide +kernel
/-- V-BY-11, `STBE v1, [0]`. -/
theorem test_stbe_by_11 :
    seesBuf 0x0000000000001062 none (boot 1 [(1, 81985529216486895)]) 1 = some (81985529216486895, [(0, 0x01), (1, 0x23), (2, 0x45), (3, 0x67), (4, 0x89), (5, 0xab), (6, 0xcd), (7, 0xef)]) := by
  decide +kernel
/-- V-BY-13, `STBE v1, [4065]`. -/
theorem test_stbe_by_13 : sees 0x00000fe100001062 none (boot 4 [(1, 1)]) [1] = some ([1], 0, 769) := by decide +kernel
/-- V-BY-12, `STLE v1, [0]`. -/
theorem test_stle_by_12 :
    seesBuf 0x0000000000001063 none (boot 1 [(1, 81985529216486895)]) 1 = some (81985529216486895, [(0, 0xef), (1, 0xcd), (2, 0xab), (3, 0x89), (4, 0x67), (5, 0x45), (6, 0x23), (7, 0x01)]) := by
  decide +kernel
/-- V-PA-1, `PARSEDEC v2, [0x20], #4`. -/
theorem test_parsedec_pa_1 :
    sees 0x0004002000000264 none ((((boot 4 []).setOv false).setPerr .empty).writeBytes 32 [0x31, 0x32, 0x33, 0x34])
      [2] = some ([1234], 0, 0) := by
  decide +kernel
/-- V-PA-12, `PARSEDEC v2, [0x20], #5`. -/
theorem test_parsedec_pa_12 :
    sees 0x0005002000000264 none ((((boot 4 []).setOv true).setPerr .ok).writeBytes 32 [0x31, 0x32, 0x20, 0x33, 0x34])
      [0] = some ([0], 3, 0) := by
  decide +kernel
/-- V-PA-13, `PARSEHEX v3, [0x40], #4`. -/
theorem test_parsehex_pa_13 :
    sees 0x0004004000000365 none ((boot 4 []).writeBytes 64 [0x30, 0x78, 0x31, 0x30]) [3] = some ([16], 0, 0) := by
  decide +kernel
/-- V-PA-15, `PARSEHEX v3, [0x40], #2`. -/
theorem test_parsehex_pa_15 :
    sees 0x0002004000000365 none ((boot 4 [(3, 5)]).writeBytes 64 [0x30, 0x78]) [3] = some ([5], 6, 0) := by
  decide +kernel
/-- V-PA-23, `PARSER v2, [0x10], #5, #36`. -/
theorem test_parser_pa_23 :
    sees 0x0005001024000266 none ((boot 4 []).writeBytes 16 [0x68, 0x65, 0x6c, 0x6c, 0x6f])
      [2] = some ([29234652], 0, 0) := by
  decide +kernel
/-- V-PA-27, `PARSER v2, [0x10], #4, #16`. -/
theorem test_parser_pa_27 :
    sees 0x0004001010000266 none ((boot 4 [(2, 5)]).writeBytes 16 [0x30, 0x78, 0x31, 0x30]) [2] = some ([5], 2, 0) := by
  decide +kernel
/-- V-FM-2, `FMTDEC v2, v1, [0]`. -/
theorem test_fmtdec_fm_2 :
    seesBuf 0x0000000000001267 none (boot 4 [(1, 0x10000000000000000)]) 2 = some (20, [(0, 0x31), (1, 0x38), (2, 0x34), (3, 0x34), (4, 0x36), (5, 0x37), (6, 0x34), (7, 0x34), (8, 0x30), (9, 0x37), (10, 0x33), (11, 0x37), (12, 0x30), (13, 0x39), (14, 0x35), (15, 0x35), (16, 0x31), (17, 0x36), (18, 0x31), (19, 0x36)]) := by
  decide +kernel
/-- V-FM-16, `FMTDEC v2, v1, [4095]`. -/
theorem test_fmtdec_fm_16 :
    sees 0x00000fff00001267 none (boot 4 [(1, 10), (2, 3)]) [1] = some ([10], 0, 769) := by
  decide +kernel
/-- V-FM-7, `FMTHEX.P v2, v1, [0]`. -/
theorem test_fmthex_fm_7 :
    seesBuf 0x0000000002001268 none (boot 4 [(1, 255)]) 2 = some (4, [(0, 0x30), (1, 0x78), (2, 0x66), (3, 0x66)]) := by
  decide +kernel
/-- V-FM-6, `FMTHEX.U v2, v1, [0]`. -/
theorem test_fmthex_fm_6 :
    seesBuf 0x0000000001001268 none (boot 4 [(1, 255)]) 2 = some (2, [(0, 0x46), (1, 0x46)]) := by
  decide +kernel
/-- V-FM-11, `FMTR v2, v1, [0], #36`. -/
theorem test_fmtr_fm_11 :
    seesBuf 0x0000000024001269 none (boot 4 [(1, 1295)]) 2 = some (2, [(0, 0x7a), (1, 0x7a)]) := by
  decide +kernel
/-- V-FM-12, `FMTR v2, v1, [0], #2`. -/
theorem test_fmtr_fm_12 :
    seesBuf 0x0000000002001269 none (boot 4 [(1, 5)]) 2 = some (3, [(0, 0x31), (1, 0x30), (2, 0x31)]) := by
  decide +kernel
/-- V-FL-9, `F2U v2, v1`. -/
theorem test_f2u_fl_9 :
    sees 0x000000000000126a none (boot 4 [(1, 4906019910204099648)]) [2] = some ([0x56bc75e2d63100000], 0, 0) := by
  decide +kernel
/-- V-FL-14, `F2U v2, v1`. -/
theorem test_f2u_fl_14 :
    sees 0x000000000000126a none (boot 4 [(1, 0x14008000000000000)]) [2] = some ([3], 0, 0) := by
  decide +kernel
/-- V-FL-18, `U2F v2, v1`. -/
theorem test_u2f_fl_18 :
    sees 0x000000000000126b none (boot 4 [(1, 12345)]) [2] = some ([4668012349850910720], 0, 0) := by
  decide +kernel
/-- V-FL-19, `U2F v2, v1`. -/
theorem test_u2f_fl_19 :
    sees 0x000000000000126b none (boot 4 [(1, 9007199254740991)]) [2] = some ([4845873199050653695], 0, 0) := by
  decide +kernel

/-! ### The square-root unit -/

/-- Words of spec/95_test_vectors.md and the commands they stand for (R71 to R77). -/
theorem test_decode_sqrt : reads [
    (0x0000000000001270, none, .isqrt 2 1)] = true := by
  decide +kernel

/-- V-SQ-8, `ISQRT v2, v1`. -/
theorem test_isqrt_sq_8 : sees 0x0000000000001270 none (boot 4 [(1, 99)]) [2] = some ([9], 0, 0) := by decide +kernel
/-- V-SQ-15, `ISQRT v2, v1`. -/
theorem test_isqrt_sq_15 :
    sees 0x0000000000001270 none (boot 4 [(1, 0xfffffffffffffffffffffffffffffffe00000000000000000000000000000000)])
      [2] = some ([0xfffffffffffffffffffffffffffffffe], 0, 0) := by
  decide +kernel

/-! ### Witnesses: states and operands that meet the hypotheses of each statement -/

/-- R7's bounds: the smallest, the default and the largest instance are legal. -/
theorem witness_legal :
    Config.Legal { limbs := 1, bufBytes := 1 } ∧ (boot 4 []).cfg.Legal ∧
      Config.Legal { limbs := 1024, bufBytes := 65536 } := by decide

/-- Statements with no hypothesis but a legal instance take any state of one; those with none take any state. Registers
equal to given values (the `a` and `b` of the arithmetic statements), both sides of the overflow bound. -/
theorem witness_arithmetic_operands :
    (boot 1 [(1, 2 ^ 64 - 1), (2, 1)]).val 1 = 2 ^ 64 - 1 ∧ (boot 1 [(1, 2 ^ 64 - 1), (2, 1)]).val 2 = 1 ∧
      2 ^ (boot 1 [(1, 2 ^ 64 - 1), (2, 1)]).cfg.width ≤ (2 ^ 64 - 1) + 1 ∧
      ¬ 2 ^ (boot 1 [(1, 2 ^ 64 - 1), (2, 0)]).cfg.width ≤ (2 ^ 64 - 1) + 0 := by decide +kernel

theorem witness_stepRunsTheDecodedCommand :
    ((boot 4 []).setHost [.issue 0x05 none, .readId]).host = .issue 0x05 none :: [.readId] ∧
      ((boot 4 []).setHost [.issue 0x05 none, .readId]).fault = none ∧ decode 0x05 none = .ok (.ldmax 0) :=
  ⟨rfl, rfl, rfl⟩

/-- A decoded command whose `exec` stops the model, so that the step does: LDBE of a byte nothing has written. -/
theorem witness_stepRunsTheDecodedCommand_stop :
    (boot 4 []).fault = none ∧ decode 0x0001010000000560 none = .ok (.ldbe 5 0x100 1) ∧
      uninitAt 0x100 (exec (.ldbe 5 0x100 1) (boot 4 [])) = true := ⟨rfl, rfl, by decide +kernel⟩

theorem witness_stoppedEngineDiscardsCommands :
    (((boot 4 []).takeFault .badIndex (0, none)).setHost [.issue 0x09 none]).host = .issue 0x09 none :: [] ∧
      (((boot 4 []).takeFault .badIndex (0, none)).setHost [.issue 0x09 none]).fault = some .badIndex := ⟨rfl, rfl⟩

theorem witness_illegalWordsRaiseIllegalCommand :
    ((boot 4 []).setHost [.issue 0x101 none]).host = .issue 0x101 none :: [] ∧
      ((boot 4 []).setHost [.issue 0x101 none]).fault = none ∧ decode 0x101 none = .error .unusedField ∧
      decode 0 none = .error .undefinedCode ∧ decode 1 (some 0x55) = .error .wordCount := ⟨rfl, rfl, rfl, rfl, rfl⟩

/-- Well-formed commands, the radix at its bounds, and the words they are read from (both lengths). -/
theorem witness_decodeAndEncode :
    Instr.wellFormed (.parser 15 0xffff 0xffff 36) = true ∧ Instr.wellFormed (.fmtr 0 0 0 2) = true ∧
      decode 0x0005001024000266 none = .ok (.parser 2 0x10 5 36) ∧
      decode 0x0000000200001104 (some 0x55) = .ok (.ldl 1 1 2 0x55) := ⟨rfl, rfl, rfl, rfl⟩

/-- A limb index at its bound, on each side, and a bit index. -/
theorem witness_indexes :
    (3 : BitVec 32).toNat < (boot 4 []).cfg.limbs ∧ (boot 4 []).cfg.limbs ≤ (4 : BitVec 32).toNat ∧
      (255 : BitVec 32).toNat < (boot 4 []).cfg.width ∧ (boot 4 []).cfg.width ≤ (256 : BitVec 32).toNat := by decide

/-- Each width of NARROW is listed, and instances as wide as and narrower than the target. -/
theorem witness_narrow :
    (∀ c ∈ [(NarrowWidth.w8, 0, 8), (.w16, 1, 16), (.w32, 2, 32), (.w64, 3, 64), (.w128, 4, 128)],
      narrowBits c.1 = c.2.2 ∧ c.1.fn = c.2.1) ∧
      (boot 1 []).cfg.width ≤ 64 ∧ (boot 1 []).cfg.width ≤ 128 := by decide

/-- Two different destinations. -/
theorem witness_twoDestinations : (3 : Reg) ≠ 4 := by decide

/-- Divisors: not 0, 0, of one limb (both ends), of exactly two and of four limbs. -/
theorem witness_divisors :
    (boot 4 [(2, 7)]).val 2 ≠ 0 ∧ (boot 4 [(2, 0)]).val 2 = 0 ∧
      (0 < (boot 4 [(2, 1)]).val 2 ∧ (boot 4 [(2, 2 ^ 64 - 1)]).val 2 < 2 ^ 64) ∧
      (2 ^ (64 * (2 - 1)) ≤ (boot 4 [(2, 2 ^ 64)]).val 2 ∧ (boot 4 [(2, 2 ^ 64)]).val 2 < 2 ^ (64 * 2)) ∧
      2 ^ (64 * (4 - 1)) ≤ (boot 4 [(2, 2 ^ 256 - 1)]).val 2 ∧ (boot 4 [(2, 2 ^ 256 - 1)]).val 2 < 2 ^ (64 * 4) := by
  decide +kernel

/-- The datapath statements' equation on concrete limbs: a carry, a borrow, and a division by one limb. -/
theorem witness_datapaths :
    rippleAdd 0 (limbsOf 1 (2 ^ 64 - 1)) (limbsOf 1 1) = ([0], 1) ∧
      rippleSub 0 (limbsOf 1 0) (limbsOf 1 1) = ([0xffffffffffffffff], 1) ∧
      divSingle 7 0 (limbsOf 1 100).reverse = ([14], 2) := by decide +kernel

/-- The words and option numbers some statements name by an equation, with a legal radix at each bound. -/
theorem witness_namedWords :
    (0x0003010000000560 : Word) = packWord 0x60 5 0 0 0 0 ((0x100 : BitVec 16).toNat + 2 ^ 16 * (3 : BitVec 16).toNat) ∧
      (0x0005001024000266 : Word) = packWord 0x66 2 0 0 0 36 ((0x10 : BitVec 16).toNat + 2 ^ 16 * (5 : BitVec 16).toNat) ∧
      radixOk 2 = true ∧ radixOk 36 = true ∧
      (3 : Nat) = (HexOptions.mk true true).upper.toNat + 2 * (HexOptions.mk true true).zeroX.toNat := by
  decide +kernel

/-- An import of no byte, and one of all `8N` bytes at the end of the buffer. -/
theorem witness_imports :
    HasBytes (boot 1 []) 4096 [] ∧
      HasBytes ((boot 1 []).writeBytes 4088 [1, 2, 3, 4, 5, 6, 7, 8]) 4088 [1, 2, 3, 4, 5, 6, 7, 8] ∧
      (8 : BitVec 16).toNat ≤ 8 * (boot 1 []).cfg.limbs ∧ (4088 : BitVec 16).toNat + 8 ≤ (boot 1 []).cfg.bufBytes := by
  unfold HasBytes
  decide +kernel

/-- Exports and imports of `8N` bytes: the last address in range, and the first out of it. -/
theorem witness_exports :
    (4064 : BitVec 16).toNat + 8 * (boot 4 []).cfg.limbs ≤ (boot 4 []).cfg.bufBytes ∧
      (boot 4 []).cfg.bufBytes < (4065 : BitVec 16).toNat + 8 * (boot 4 []).cfg.limbs ∧
      (32 : BitVec 16).toNat = 8 * (boot 4 []).cfg.limbs := by decide

/-- An import of one byte more than `8N`: `BAD_LENGTH`. -/
theorem witness_longImport : 8 * (boot 4 []).cfg.limbs < (33 : BitVec 16).toNat := by decide

/-- The `BUFFER_RANGE` clauses: reads and texts that end one byte past the buffer, each kind, and a legal radix. -/
theorem witness_accessOutsideTheBuffer :
    radixOk 2 = true ∧ radixOk 36 = true ∧
      ((boot 4 []).cfg.bufBytes < (4095 : BitVec 16).toNat + (2 : BitVec 16).toNat ∧
        (2 : BitVec 16).toNat ≤ 8 * (boot 4 []).cfg.limbs) ∧
      (boot 4 [(1, 10)]).cfg.bufBytes < (4095 : BitVec 16).toNat + digitCount 10 10 ∧
      (boot 4 [(1, 10)]).cfg.bufBytes < (4094 : BitVec 16).toNat + (digitCount 16 10 + 2 * true.toNat) ∧
      (boot 4 [(1, 5)]).cfg.bufBytes < (4094 : BitVec 16).toNat + digitCount 2 5 := by
  refine ⟨by decide, by decide, by decide, ?_, ?_, ?_⟩ <;> norm_num [digitCount, boot, State.resetOf, State.setReg] <;> decide

/-- The first byte of the access and a later one that nothing has written. -/
theorem witness_unwrittenByte :
    ((boot 4 []).readByte 0x20 = none ∧ (0x20 : BitVec 16).toNat ≤ 0x20 ∧ 0x20 < (0x20 : BitVec 16).toNat + 2) ∧
      ((boot 4 []).writeBytes 0x20 [0x31]).readByte 0x21 = none ∧
      ∀ a, 0x20 ≤ a → a < 0x21 → ((boot 4 []).writeBytes 0x20 [0x31]).readByte a ≠ none := by
  refine ⟨by decide +kernel, by decide +kernel, fun a h1 h2 => ?_⟩
  obtain rfl : a = 0x20 := by omega
  decide +kernel

/-- A text with the prefix `0x`, one without, and the empty text. -/
theorem witness_parse :
    HasBytes ((boot 4 []).writeBytes 0x40 [0x30, 0x78, 0x31]) 0x40 (0x30 :: 0x78 :: [0x31]) ∧
      (HasBytes ((boot 4 []).writeBytes 0x40 [0x31]) 0x40 [0x31] ∧ ∀ rest, [(0x31 : Byte)] ≠ 0x30 :: 0x78 :: rest) ∧
      HasBytes (boot 4 []) 4096 [] ∧ ∀ rest, ([] : List Byte) ≠ 0x30 :: 0x78 :: rest := by
  refine ⟨?_, ⟨?_, fun rest h => by simp at h⟩, ?_, fun rest h => by simp at h⟩ <;> unfold HasBytes <;> decide +kernel

/-- Texts that end with the buffer: decimal, hexadecimal with the prefix, radix 2; and their lengths. -/
theorem witness_format :
    (4094 : BitVec 16).toNat + digitCount 10 10 ≤ (boot 4 [(1, 10)]).cfg.bufBytes ∧
      (4093 : BitVec 16).toNat + (digitCount 16 10 + 2 * true.toNat) ≤ (boot 4 [(1, 10)]).cfg.bufBytes ∧
      (4093 : BitVec 16).toNat + digitCount 2 5 ≤ (boot 4 [(1, 5)]).cfg.bufBytes ∧
      (2 : BitVec 16).toNat = digitCount 10 10 ∧ (3 : BitVec 16).toNat = digitCount 16 10 + 2 * true.toNat ∧
      (3 : BitVec 16).toNat = digitCount 2 5 ∧ (1 : BitVec 16).toNat = digitCount 10 0 := by
  refine ⟨?_, ?_, ?_, ?_, ?_, ?_, ?_⟩ <;> norm_num [digitCount, boot, State.resetOf, State.setReg] <;> decide

/-- Patterns for each case of F2U: NaN, sign 1, +inf, exponent 0, a number. -/
theorem witness_floatToInteger :
    (0x7ff8000000000000 / 2 ^ 52 % 2 ^ 11 = 0x7FF ∧ 0x7ff8000000000000 % 2 ^ 52 ≠ 0) ∧
      2 ^ 63 ≤ 0xc014000000000000 ∧ 0x7ff0000000000000 / 2 ^ 52 % 2 ^ 11 = 0x7FF ∧
      0x000fffffffffffff / 2 ^ 52 % 2 ^ 11 = 0 ∧ 0x4415af1d78b58c40 / 2 ^ 52 % 2 ^ 11 = 0x441 := by decide

/-- Values for each case of U2F, at the bound `2^53`. -/
theorem witness_integerToFloat :
    (boot 4 [(1, 0)]).val 1 = 0 ∧ (0 < (boot 4 [(1, 2 ^ 53 - 1)]).val 1 ∧ (boot 4 [(1, 2 ^ 53 - 1)]).val 1 < 2 ^ 53) ∧
      2 ^ 53 ≤ (boot 4 [(1, 2 ^ 53)]).val 1 := by decide +kernel

theorem witness_resetOperation :
    (((boot 4 [(1, 7)]).takeFault .badIndex (0, none)).setHost [.reset, .readId]).host = .reset :: [.readId] := rfl

/-- The invariant holds of a state with a byte in the buffer and one in STOPPED, and steps from them are next states. -/
theorem witness_invariant :
    Inv ((boot 4 []).writeBytes 4095 [1]) ∧ Inv ((boot 4 []).takeFault .badIndex (4, some 1)) ∧
      nextHas (fun _ => true) (step (((boot 4 []).writeBytes 4095 [1]).setHost [.issue 0x05 none])) = true :=
  ⟨⟨by decide, by decide +kernel, by decide +kernel, fun _ => ⟨rfl, rfl⟩⟩,
    ⟨by decide, by decide +kernel, by decide +kernel, fun h => by cases h⟩, by decide +kernel⟩

/-- A RUNNING state and well-formed commands: one that raises, one that does not. -/
theorem witness_commandsFault :
    (boot 4 []).fault = none ∧ Instr.wellFormed (.getl 1 2 4) = true ∧
      nextHas (fun t => t.fault == some .badIndex) (exec (.getl 1 2 4) (boot 4 [])) = true ∧
      raisedCause (.getl 1 2 4) (boot 4 []) = some .badIndex ∧
      nextHas (fun t => t.fault == none) (exec (.getl 1 2 3) (boot 4 [])) = true ∧
      raisedCause (.getl 1 2 3) (boot 4 []) = none := by decide +kernel

/-- A STOPPED state whose next operation is not Reset. -/
theorem witness_firstFaultStays :
    ((boot 4 []).takeFault .badIndex (4, none)).fault = some .badIndex ∧
      (((boot 4 []).takeFault .badIndex (4, none)).setHost [.issue 0x09 none]).host.head? ≠ some .reset ∧
      nextHas (fun _ => true) (step (((boot 4 []).takeFault .badIndex (4, none)).setHost [.issue 0x09 none])) = true := by
  decide +kernel

/-- Commands that answer a next state and write no flag, no byte of the buffer, and not the register named. -/
theorem witness_frames :
    nextHas (fun _ => true) (exec (.mov 2 1) (boot 4 [(1, 7)])) = true ∧ writesOv (.mov 2 1) = false ∧
      writesPerr (.mov 2 1) = false ∧ writesBuffer (.mov 2 1) = false ∧ (1 : Reg) ∉ destinations (.mov 2 1) := by
  decide +kernel

/-- Two states that differ in what a register not written since reset holds, and a command that does not read it. -/
theorem witness_unwrittenRegisters :
    AgreeOnWritten (boot 4 [(1, 7)]) { boot 4 [(1, 7)] with regs := ((boot 4 [(1, 7)]).regs.set 5 9) } ∧
      ¬ readsUnwritten (.mov 2 1) (boot 4 [(1, 7)]) ∧
      (State.val { boot 4 [(1, 7)] with regs := ((boot 4 [(1, 7)]).regs.set 5 9) } 5 ≠ (boot 4 [(1, 7)]).val 5) := by
  unfold AgreeOnWritten readsUnwritten
  decide +kernel

/-- A command that stops on a byte nothing has written. -/
theorem witness_stopsOnUnwrittenBytes :
    uninitAt 0x21 (exec (.parsedec 2 0x20 2) ((boot 4 []).writeBytes 0x20 [0x31])) = true ∧
      bufferAccess (.parsedec 2 0x20 2) (boot 4 []) = some (0x20, 2) := by decide +kernel

/-- The host's list with each operation at its front. -/
theorem witness_hostOperations :
    ((boot 4 []).setHost [.readReg 3]).host = .readReg 3 :: [] ∧
      (HostOp.readId, Reply.word (idBits (boot 4 []).cfg)) ∈
        [(HostOp.readReg 3, Reply.value ((boot 4 []).val 3)), (.readId, .word (idBits (boot 4 []).cfg))] ∧
      2 ^ 256 - 1 < 2 ^ (boot 4 []).cfg.width ∧
      ((boot 4 []).setHost [.writeBuf 4095 [1]]).host = .writeBuf 4095 [1] :: [] ∧
      ((boot 4 []).setHost [.readBuf 4095 1]).host = .readBuf 4095 [(1 : Byte)].length :: [] ∧
      (4095 + 1 ≤ (boot 4 []).cfg.bufBytes → HasBytes ((boot 4 []).writeBytes 4095 [1]) 4095 [1]) := by
  refine ⟨rfl, by decide +kernel, by decide +kernel, rfl, rfl, fun _ => ?_⟩
  unfold HasBytes
  decide +kernel

/-- A host access in range and one past the end, and a read whose second byte holds no value (R402). -/
theorem witness_hostAccessRange :
    nextHas (fun t => t.reply == some (.bytes [1]))
        (step (((boot 4 []).writeBytes 4095 [1]).setHost [.readBuf 4095 1])) = true ∧
      uninitAt 0x21 (step (((boot 4 []).writeBytes 0x20 [0x31]).setHost [.readBuf 0x20 2])) = true ∧
      nextHas (fun t => t.reply == some .refusedAccess) (step ((boot 4 []).setHost [.readBuf 4095 2])) = true := by
  decide +kernel

/-- One operation on an engine with its instance as an argument: LDMAX v0 for `N = 1` (R37, R104). -/
theorem test_stepOf_ldmax :
    (match stepOf (boot 1 []).cfg (.issue 0x05 none) (Engine.ofState (boot 1 []).cfg (boot 1 [])) with
      | .next (e, r) => (e.toState [] none).val 0 == 2 ^ 64 - 1 && r == some .ok
      | _ => false) = true := by decide +kernel

end Sys2Proof.Tests
end

namespace Sys2Proof.Machine

/-! ### What a command can do to the state -/

/-- `t` comes from `s` by the updates of Machine/Ops.lean that commands and host writes make: register, flag and
buffer writes, the buffer's inside its bound, and fault entry. -/
inductive Edits (s : State) : State → Prop where
  | refl : Edits s s
  | setReg {t : State} (r : Reg) (e : Nat) : Edits s t → Edits s (t.setReg r e)
  | setOv {t : State} (b : Bool) : Edits s t → Edits s (t.setOv b)
  | setPerr {t : State} (c : ParseStatus) : Edits s t → Edits s (t.setPerr c)
  | writeBytes {t : State} (a : Nat) (bs : List Byte) :
    a + bs.length ≤ t.cfg.bufBytes → Edits s t → Edits s (t.writeBytes a bs)
  | takeFault {t : State} (c : Cause) (ws : Word × Option Word) : Edits s t → Edits s (t.takeFault c ws)

/-- No edit changes the instance (R8). -/
theorem Edits.cfg_eq {s t : State} (h : Edits s t) : t.cfg = s.cfg := by
  induction h with
  | refl => rfl
  | setReg _ _ _ ih | setOv _ _ ih | setPerr _ _ ih | writeBytes _ _ _ _ ih | takeFault _ _ _ ih => exact ih

/-- Every edit keeps the invariant: a buffer write keeps form and bound, and fault entry leaves nothing to show of
FAULTCMD and FAULTLIT. -/
theorem Edits.inv {s t : State} (h : Edits s t) (hs : Inv s) : Inv t := by
  induction h with
  | refl => exact hs
  | setReg _ _ _ ih | setOv _ _ ih | setPerr _ _ ih =>
    exact ⟨ih.legal, ih.canonical, ih.inBuffer, ih.fresh⟩
  | writeBytes a bs hr _ ih =>
    exact ⟨ih.legal, wf_writeBytes ih.canonical a bs, Memory.bound_writeList ih.inBuffer a bs hr, ih.fresh⟩
  | takeFault _ _ _ ih => exact ⟨ih.legal, ih.canonical, ih.inBuffer, nofun⟩

/-- A next state in `r`, if there is one, comes from `s` by edits. -/
def Edited (s : State) : Result → Prop
  | .next t => Edits s t
  | .fault _ | .refused _ => True

theorem edited_raise (c : Cause) (i : Instr) (s : State) : Edited s (raise c i s) := .takeFault _ _ .refl

theorem edited_raise_or {s : State} {r : Result} (p : Prop) [Decidable p] (c : Cause) (i : Instr) (h : Edited s r) :
    Edited s (if p then raise c i s else r) := by
  split
  · exact edited_raise c i s
  · exact h

theorem edited_writeChecked (rd : Reg) (e : Nat) (ov : Bool) (s : State) : Edited s (writeChecked rd e ov s) := by
  cases ov
  · exact .setOv _ (.setReg _ _ .refl)
  · exact .setOv _ .refl

theorem edited_writeParse (rd : Reg) (k : Except ParseStatus Nat) (s : State) : Edited s (writeParse rd k s) := by
  cases k with
  | ok x => exact .setPerr _ (.setReg _ _ .refl)
  | error e => exact .setPerr _ .refl

theorem edited_withBytes {addr len : Nat} {i : Instr} {s : State} {k : List Byte → Result}
    (hk : ∀ bs, Edited s (k bs)) : Edited s (withBytes addr len i s k) := by
  obtain ⟨-, h⟩ | ⟨-, ⟨bs, -, -, h⟩ | ⟨e, -, -, -, h⟩⟩ := withBytes_cases addr len i s k <;> rw [h]
  · exact edited_raise _ i s
  · exact hk bs
  · trivial

theorem edited_storeBytes {addr : Nat} {bs : List Byte} {i : Instr} {s : State} {k : State → State}
    (hk : ∀ t, Edits s t → Edits s (k t)) : Edited s (storeBytes addr bs i s k) := by
  rcases Nat.lt_or_ge s.cfg.bufBytes (addr + bs.length) with hr | hr
  · rw [storeBytes_range hr]
    exact edited_raise _ i s
  · rw [storeBytes_ok hr]
    exact hk _ (.writeBytes addr bs hr .refl)

/-- Every command's next state comes by edits. -/
theorem exec_edited (i : Instr) (s : State) : Edited s (exec i s) := by
  cases i with
  | nop => exact Edits.refl
  | clrf => exact .setPerr _ (.setOv _ .refl)
  | mov | ldi | ldmax | rdf | cmpEq | cmpNe | cmpLt | cmpLe | cmpGt | cmpGe | isz | addW | addS | subW | subS
  | mulW | mulS | powW | shl | shr | rol | ror | shli | shri | roli | rori | bitAnd | bitOr | bitXor | bitNot
  | clz | ctz | bits | f2u | u2f | isqrt => exact Edits.setReg _ _ .refl
  | narrow | addO | subO | mulO | powO => exact Edits.setOv _ (.setReg _ _ .refl)
  | addC | subC | mulC => exact edited_writeChecked ..
  | ldl | getl | bit | div | rem => exact edited_raise_or _ _ _ (.setReg _ _ .refl)
  | mulWide => exact edited_raise_or _ _ _ (.setReg _ _ (.setReg _ _ .refl))
  | divmod => exact edited_raise_or _ _ _ (edited_raise_or _ _ _ (.setReg _ _ (.setReg _ _ .refl)))
  | ldbe | ldle => exact edited_raise_or _ _ _ (edited_withBytes fun _ => .setReg _ _ .refl)
  | parsedec | parsehex | parser => exact edited_withBytes fun _ => edited_writeParse ..
  | stbe | stle => exact edited_storeBytes fun _ h => h
  | fmtdec | fmthex | fmtr => exact edited_storeBytes fun _ h => .setReg _ _ h

/-- Execution of the issued words, legal or not, makes edits alone. -/
theorem execute_edited (w : Word) (lit : Option Word) (s : State) : Edited s (execute w lit s) := by
  unfold execute
  split
  · exact .takeFault _ _ .refl
  · exact exec_edited _ s

/-! ### What a host operation can do -/

/-- The next state of a host operation is a reply to edits of the state, or to a reset of it (R401, R402). -/
def Answered (s : State) : Result → Prop
  | .next t => ∃ u r, (Edits s u ∨ u = s.restart) ∧ t = u.answer r
  | .fault _ | .refused _ => True

theorem answered_of_edits {s u : State} (h : Edits s u) (r : Reply) : Answered s (.next (u.answer r)) :=
  ⟨u, r, .inl h, rfl⟩

theorem answered_withIssueReply {s : State} {r : Result} (h : Edited s r) : Answered s (withIssueReply r) := by
  cases r with
  | next t => exact answered_of_edits h _
  | fault f | refused f => trivial

theorem issue_answered (w : Word) (lit : Option Word) (s : State) : Answered s (issue w lit s) := by
  obtain ⟨-, h⟩ | ⟨-, h⟩ := issue_cases w lit s <;> rw [h]
  · exact answered_of_edits .refl _
  · exact answered_withIssueReply (execute_edited w lit s)

theorem hostReadBuf_answered (a n : Nat) (s : State) : Answered s (hostReadBuf a n s) := by
  unfold hostReadBuf
  split
  · split
    · trivial
    · exact answered_of_edits .refl _
  · exact answered_of_edits .refl _

theorem hostWriteBuf_answered (a : Nat) (bs : List Byte) (s : State) : Answered s (hostWriteBuf a bs s) := by
  unfold hostWriteBuf
  split
  next hr => exact answered_of_edits (.writeBytes a bs ((State.inRange_iff s a _).1 hr) .refl) _
  · exact answered_of_edits .refl _

theorem hostStep_answered (op : HostOp) (s : State) : Answered s (hostStep op s) := by
  cases op with
  | issue w lit => exact issue_answered w lit s
  | readBuf a n => exact hostReadBuf_answered a n s
  | writeBuf a bs => exact hostWriteBuf_answered a bs s
  | writeReg r x => exact answered_of_edits (.setReg r x .refl) _
  | reset => exact ⟨s.restart, .nothing, .inr rfl, rfl⟩
  | readReg | readFlags | readFault | readFaultCmd | readFaultLit | readId => exact answered_of_edits .refl _

/-- What a host operation that gives a next state did. -/
theorem hostStep_next {op : HostOp} {s t : State} (h : hostStep op s = .next t) :
    ∃ u r, (Edits s u ∨ u = s.restart) ∧ t = u.answer r := by
  have := hostStep_answered op s
  rwa [h] at this

/-- No host operation changes the instance (R8). -/
theorem hostStep_cfg {op : HostOp} {s t : State} (h : hostStep op s = .next t) : t.cfg = s.cfg := by
  obtain ⟨u, r, hu | rfl, rfl⟩ := hostStep_next h
  · exact hu.cfg_eq
  · rfl

/-! ### The invariant -/

theorem Inv.setHost {s : State} (h : Inv s) (ops : List HostOp) : Inv (s.setHost ops) :=
  ⟨h.legal, h.canonical, h.inBuffer, h.fresh⟩

theorem Inv.answer {s : State} (h : Inv s) (r : Reply) : Inv (s.answer r) :=
  ⟨h.legal, h.canonical, h.inBuffer, h.fresh⟩

/-- The engine after Reset meets the invariant if its instance is legal. -/
theorem Inv.restart {s : State} (h : Inv s) : Inv s.restart :=
  ⟨h.legal, wf_resetOf s.cfg, nofun, fun _ => ⟨rfl, rfl⟩⟩

theorem hostStep_inv {op : HostOp} {s t : State} (hs : Inv s) (h : hostStep op s = .next t) : Inv t := by
  obtain ⟨u, r, hu | rfl, rfl⟩ := hostStep_next h
  · exact (hu.inv hs).answer r
  · exact hs.restart.answer r

/-- Settles O45: a step is nothing or a host operation, and each of those makes edits or a reset and replies. -/
theorem everyStepKeepsTheInvariant : Obligations.EveryStepKeepsTheInvariant := by
  intro s t hs h
  obtain ⟨-, h'⟩ | ⟨op, rest, -, h'⟩ := step_cases s <;> rw [h'] at h
  · cases h
    exact ⟨hs, rfl⟩
  · exact ⟨hostStep_inv (hs.setHost rest) h, (hostStep_cfg h).trans (State.setHost_cfg s rest)⟩

end Sys2Proof.Machine

namespace Sys2Proof.Machine

/-! ### The host's list and the last reply are read by no meaning (R37) -/

/-- The same engine with another host list and another last reply. -/
def State.inContext (s : State) (ops : List HostOp) (q : Option Reply) : State := { s with host := ops, reply := q }

/-- `f` applied to the next state, if there is one. -/
def mapNext (f : State → State) : Result → Result
  | .next t => .next (f t)
  | .fault e => .fault e
  | .refused e => .refused e

@[simp] theorem State.inContext_mem (s : State) (ops : List HostOp) (q : Option Reply) :
    (s.inContext ops q).mem = s.mem := rfl
@[simp] theorem State.inContext_inRange (s : State) (ops : List HostOp) (q : Option Reply) (a n : Nat) :
    (s.inContext ops q).inRange a n = s.inRange a n := rfl
@[simp] theorem State.inContext_stopped (s : State) (ops : List HostOp) (q : Option Reply) :
    (s.inContext ops q).stopped = s.stopped := rfl

section Context
variable {ops : List HostOp} {q : Option Reply} {s : State}

theorem raise_or_inContext (p : Prop) [Decidable p] (c : Cause) (i : Instr) {r r' : Result}
    (h : r' = mapNext (·.inContext ops q) r) :
    (if p then raise c i (s.inContext ops q) else r') =
      mapNext (·.inContext ops q) (if p then raise c i s else r) := by
  split
  · rfl
  · exact h

theorem writeChecked_inContext (rd : Reg) (e : Nat) (ov : Bool) :
    writeChecked rd e ov (s.inContext ops q) = mapNext (·.inContext ops q) (writeChecked rd e ov s) := by
  cases ov <;> rfl

theorem writeParse_inContext (rd : Reg) (k : Except ParseStatus Nat) :
    writeParse rd k (s.inContext ops q) = mapNext (·.inContext ops q) (writeParse rd k s) := by
  cases k <;> rfl

theorem withBytes_inContext {addr len : Nat} {i : Instr} {k k' : List Byte → Result}
    (hk : ∀ bs, k' bs = mapNext (·.inContext ops q) (k bs)) :
    withBytes addr len i (s.inContext ops q) k' = mapNext (·.inContext ops q) (withBytes addr len i s k) := by
  by_cases hr : s.inRange addr len = true
  · cases hm : Memory.readList s.mem addr len with
    | error e => simp [withBytes, hr, hm, mapNext]
    | ok bs => simpa [withBytes, hr, hm] using hk bs
  · simp only [withBytes, State.inContext_inRange, hr]
    rfl

theorem storeBytes_inContext {addr : Nat} {bs bs' : List Byte} {i : Instr} {k : State → State} (hb : bs = bs')
    (hk : ∀ t, k (t.inContext ops q) = (k t).inContext ops q) :
    storeBytes addr bs' i (s.inContext ops q) k = mapNext (·.inContext ops q) (storeBytes addr bs i s k) := by
  subst hb
  rcases Nat.lt_or_ge s.cfg.bufBytes (addr + bs.length) with hr | hr
  · rw [storeBytes_range hr, storeBytes_range (s := s.inContext ops q) hr]
    rfl
  · rw [storeBytes_ok hr, storeBytes_ok (s := s.inContext ops q) hr]
    exact congrArg Host.Outcome.next (hk (s.writeBytes addr bs))

end Context

/-- A command's outcome does not depend on the host's list or the last reply, and it leaves both as they are. -/
theorem exec_inContext (i : Instr) (s : State) (ops : List HostOp) (q : Option Reply) :
    exec i (s.inContext ops q) = mapNext (·.inContext ops q) (exec i s) := by
  cases i with
  | nop | clrf | mov | ldi | ldmax | rdf | cmpEq | cmpNe | cmpLt | cmpLe | cmpGt | cmpGe | isz | addW | addS | subW
  | subS | mulW | mulS | powW | shl | shr | rol | ror | shli | shri | roli | rori | bitAnd | bitOr | bitXor | bitNot
  | clz | ctz | bits | f2u | u2f | isqrt | narrow | addO | subO | mulO | powO => rfl
  | addC | subC | mulC => exact writeChecked_inContext ..
  | ldl | getl | bit | div | rem | mulWide => exact raise_or_inContext _ _ _ rfl
  | divmod => exact raise_or_inContext _ _ _ (raise_or_inContext _ _ _ rfl)
  | ldbe | ldle => exact raise_or_inContext _ _ _ (withBytes_inContext fun _ => rfl)
  | parsedec | parsehex | parser => exact withBytes_inContext fun _ => writeParse_inContext ..
  | stbe | stle | fmtdec | fmthex | fmtr =>
    simp only [exec, execStbe, execStle, execFmtdec, execFmthex, execFmtr, storeText]
    apply storeBytes_inContext
    · rfl
    · exact fun _ => rfl

theorem execute_inContext (w : Word) (lit : Option Word) (s : State) (ops : List HostOp) (q : Option Reply) :
    execute w lit (s.inContext ops q) = mapNext (·.inContext ops q) (execute w lit s) := by
  unfold execute
  split
  · rfl
  · exact exec_inContext _ s ops q

/-- The reply of an issue replaces the one before it. -/
theorem withIssueReply_mapNext_inContext (r : Result) (ops : List HostOp) (q : Option Reply) :
    withIssueReply (mapNext (·.inContext ops q) r) = mapNext (·.setHost ops) (withIssueReply r) := by
  cases r <;> rfl

theorem issue_inContext (w : Word) (lit : Option Word) (s : State) (ops : List HostOp) (q : Option Reply) :
    issue w lit (s.inContext ops q) = mapNext (·.setHost ops) (issue w lit s) := by
  simp only [issue, State.inContext_stopped, execute_inContext, withIssueReply_mapNext_inContext]
  split <;> rfl

theorem hostReadBuf_inContext (a n : Nat) (s : State) (ops : List HostOp) (q : Option Reply) :
    hostReadBuf a n (s.inContext ops q) = mapNext (·.setHost ops) (hostReadBuf a n s) := by
  by_cases hr : s.inRange a n = true
  · cases hm : Memory.readList s.mem a n with
    | error e => simp [hostReadBuf, hr, hm, mapNext]
    | ok bs => simp only [hostReadBuf, State.inContext_inRange, State.inContext_mem, hr, hm]; rfl
  · simp only [hostReadBuf, State.inContext_inRange, hr]
    rfl

theorem hostWriteBuf_inContext (a : Nat) (bs : List Byte) (s : State) (ops : List HostOp) (q : Option Reply) :
    hostWriteBuf a bs (s.inContext ops q) = mapNext (·.setHost ops) (hostWriteBuf a bs s) := by
  by_cases hr : s.inRange a bs.length = true <;> simp only [hostWriteBuf, State.inContext_inRange, hr] <;> rfl

/-- A host operation reads neither the rest of the host's list nor the last reply; it keeps the list and replaces the
reply. -/
theorem hostStep_inContext (op : HostOp) (s : State) (ops : List HostOp) (q : Option Reply) :
    hostStep op (s.inContext ops q) = mapNext (·.setHost ops) (hostStep op s) := by
  cases op with
  | issue w lit => exact issue_inContext w lit s ops q
  | readBuf a n => exact hostReadBuf_inContext a n s ops q
  | writeBuf a bs => exact hostWriteBuf_inContext a bs s ops q
  | writeReg | reset | readReg | readFlags | readFault | readFaultCmd | readFaultLit | readId => rfl

/-! ### States as engines of their instance -/

/-- A state is the engine of its instance with the host's list and the last reply. -/
theorem Engine.toState_ofState (s : State) : (Engine.ofState s.cfg s).toState s.host s.reply = s := by
  obtain ⟨c, regs, _⟩ := s
  have hregs : (Vector.ofFn fun r : Reg => BitVec.ofNat c.width (regs[r]).toNat) = regs := by
    ext i hi : 1
    simp
  simp only [Engine.ofState, Engine.toState, State.val, State.mk.injEq, heq_eq_eq, true_and, and_true]
  exact hregs

theorem Engine.toState_ofState_of_cfg {c : Config} {s : State} (h : s.cfg = c) (ops : List HostOp)
    (q : Option Reply) : (Engine.ofState c s).toState ops q = s.inContext ops q := by
  subst h
  exact congrArg (·.inContext ops q) (Engine.toState_ofState s)

/-- Settles O55: a step performs its operation on the engine with the rest of the host's list, which the operation
neither reads nor changes. -/
theorem stepIsTheStepOfTheEngineOfItsInstance : Obligations.StepIsTheStepOfTheEngineOfItsInstance := by
  refine ⟨Engine.toState_ofState, fun c e op ops reply => ?_⟩
  have hstep : step (e.toState (op :: ops) reply) = mapNext (·.setHost ops) (hostStep op (e.toState [] none)) :=
    hostStep_inContext op (e.toState [] none) ops reply
  rw [hstep, stepOf]
  cases h : hostStep op (e.toState [] none) with
  | next t => exact congrArg Host.Outcome.next (Engine.toState_ofState_of_cfg (hostStep_cfg h) ops t.reply).symm
  | fault f | refused f => rfl

end Sys2Proof.Machine

namespace Sys2Proof.Machine

/-! ### What a command leaves of two states that agree but for unwritten registers (R24, R381) -/

section Agree
variable {s s' : State}

theorem AgreeOnWritten.cfg_eq (h : AgreeOnWritten s s') : s'.cfg = s.cfg := h.1

theorem AgreeOnWritten.flags_eq (h : AgreeOnWritten s s') : s'.flags = s.flags := by
  obtain ⟨-, -, -, hflags, -⟩ := h
  exact hflags

theorem AgreeOnWritten.mem_eq (h : AgreeOnWritten s s') : s'.mem = s.mem := by
  obtain ⟨-, -, -, -, -, -, -, hmem, -⟩ := h
  exact hmem

theorem AgreeOnWritten.val_eq (h : AgreeOnWritten s s') {r : Reg} (hr : s.written[r] = true) : s'.val r = s.val r := by
  obtain ⟨-, -, hval, -⟩ := h
  exact hval r hr

theorem AgreeOnWritten.inRange_eq (h : AgreeOnWritten s s') (a n : Nat) : s'.inRange a n = s.inRange a n := by
  simp only [State.inRange, h.cfg_eq]

/-- Writing one value to one register keeps the agreement: that register counts as written and holds the value in
both. -/
theorem AgreeOnWritten.setReg (h : AgreeOnWritten s s') (rd : Reg) {e e' : Nat} (he : e' = e) :
    AgreeOnWritten (s.setReg rd e) (s'.setReg rd e') := by
  subst he
  obtain ⟨hcfg, hwritten, hval, hrest⟩ := h
  refine ⟨hcfg, congrArg (·.set rd.val true rd.isLt) hwritten, fun r hr => ?_, hrest⟩
  rw [State.setReg_val, State.setReg_val, hcfg]
  split
  · rfl
  next hne => exact hval r (by simpa [hne] using hr)

theorem AgreeOnWritten.setOv (h : AgreeOnWritten s s') {b b' : Bool} (hb : b' = b) :
    AgreeOnWritten (s.setOv b) (s'.setOv b') := by
  subst hb
  obtain ⟨hcfg, hwritten, hval, hflags, hrest⟩ := h
  exact ⟨hcfg, hwritten, hval, congrArg (fun f => { f with ov := b' }) hflags, hrest⟩

theorem AgreeOnWritten.setPerr (h : AgreeOnWritten s s') (c : ParseStatus) :
    AgreeOnWritten (s.setPerr c) (s'.setPerr c) := by
  obtain ⟨hcfg, hwritten, hval, hflags, hrest⟩ := h
  exact ⟨hcfg, hwritten, hval, congrArg (fun f => { f with perr := c }) hflags, hrest⟩

theorem AgreeOnWritten.writeBytes (h : AgreeOnWritten s s') (a : Nat) (bs : List Byte) :
    AgreeOnWritten (s.writeBytes a bs) (s'.writeBytes a bs) := by
  obtain ⟨hcfg, hwritten, hval, hflags, hfault, hcmd, hlit, hmem, hrest⟩ := h
  exact ⟨hcfg, hwritten, hval, hflags, hfault, hcmd, hlit, congrArg (Memory.writeList · a bs) hmem, hrest⟩

theorem AgreeOnWritten.takeFault (h : AgreeOnWritten s s') (c : Cause) (ws : Word × Option Word) :
    AgreeOnWritten (s.takeFault c ws) (s'.takeFault c ws) := by
  obtain ⟨hcfg, hwritten, hval, hflags, -, -, -, hrest⟩ := h
  exact ⟨hcfg, hwritten, hval, hflags, rfl, rfl, rfl, hrest⟩

/-- The same outcome, but for what unwritten registers hold in the next states. -/
inductive ResultsAgree : Result → Result → Prop where
  | next {t t' : State} (h : AgreeOnWritten t t') : ResultsAgree (.next t) (.next t')
  | fault (f : Fault) : ResultsAgree (.fault f) (.fault f)
  | refused (r : Refusal) : ResultsAgree (.refused r) (.refused r)

theorem ResultsAgree.of_next {r r' : Result} (h : ResultsAgree r r') {t : State} (hr : r = .next t) :
    ∃ t', r' = .next t' ∧ AgreeOnWritten t t' := by
  cases h with
  | next h =>
    cases hr
    exact ⟨_, rfl, h⟩
  | fault f | refused f => cases hr

theorem ResultsAgree.of_fault {r r' : Result} (h : ResultsAgree r r') {f : Fault} (hr : r = .fault f) :
    r' = .fault f := by
  cases h with
  | next h | refused r => cases hr
  | fault g => exact hr

/-! The shared operations keep the agreement. -/

theorem AgreeOnWritten.raise (h : AgreeOnWritten s s') (c : Cause) (i : Instr) :
    ResultsAgree (raise c i s) (raise c i s') :=
  .next (h.takeFault c (encode i))

theorem AgreeOnWritten.raise_or (h : AgreeOnWritten s s') {p p' : Prop} [Decidable p] [Decidable p'] (hp : p' = p)
    (c : Cause) (i : Instr) {r r' : Result} (hr : ResultsAgree r r') :
    ResultsAgree (if p then Machine.raise c i s else r) (if p' then Machine.raise c i s' else r') := by
  subst hp
  by_cases hp : p'
  · simpa only [if_pos hp] using h.raise c i
  · simpa only [if_neg hp] using hr

theorem AgreeOnWritten.writeChecked (h : AgreeOnWritten s s') (rd : Reg) {e e' : Nat} (he : e' = e) {ov ov' : Bool}
    (hov : ov' = ov) : ResultsAgree (writeChecked rd e ov s) (writeChecked rd e' ov' s') := by
  subst hov
  cases ov' with
  | true => exact .next (h.setOv rfl)
  | false => exact .next ((h.setReg rd he).setOv rfl)

theorem AgreeOnWritten.writeParse (h : AgreeOnWritten s s') (rd : Reg) {k k' : Except ParseStatus Nat} (hk : k' = k) :
    ResultsAgree (writeParse rd k s) (writeParse rd k' s') := by
  subst hk
  cases k' with
  | ok x => exact .next ((h.setReg rd rfl).setPerr .ok)
  | error e => exact .next (h.setPerr e)

theorem AgreeOnWritten.withBytes (h : AgreeOnWritten s s') (addr len : Nat) (i : Instr)
    {k k' : List Byte → Result} (hk : ∀ bs, ResultsAgree (k bs) (k' bs)) :
    ResultsAgree (withBytes addr len i s k) (withBytes addr len i s' k') := by
  simp only [Machine.withBytes, h.inRange_eq, h.mem_eq]
  split
  · split
    · exact .fault _
    · exact hk _
  · exact h.raise _ i

theorem AgreeOnWritten.storeBytes (h : AgreeOnWritten s s') (addr : Nat) {bs bs' : List Byte} (hb : bs' = bs)
    (i : Instr) {k k' : State → State} (hk : ∀ {t t'}, AgreeOnWritten t t' → AgreeOnWritten (k t) (k' t')) :
    ResultsAgree (storeBytes addr bs i s k) (storeBytes addr bs' i s' k') := by
  subst hb
  simp only [Machine.storeBytes, h.inRange_eq]
  split
  · exact .next (hk (h.writeBytes addr bs'))
  · exact h.raise _ i

end Agree

/-! ### The checks made from the command word (R393 step 2) -/

/-- A command whose word fails a check raises that cause and reads nothing. -/
theorem exec_of_operandCheck {i : Instr} {s : State} {c : Cause} (h : operandCheck i s = some c) :
    exec i s = raise c i s := by
  cases i with
  | mulWide | divmod | ldbe | ldle | ldl | getl | bit =>
    simp only [operandCheck, Option.ite_none_right_eq_some, Option.some.injEq] at h
    obtain ⟨hp, rfl⟩ := h
    exact if_pos hp
  | _ => cases h

theorem AgreeOnWritten.operandCheck_eq {s s' : State} (h : AgreeOnWritten s s') (i : Instr) :
    operandCheck i s' = operandCheck i s := by
  simp only [operandCheck, h.cfg_eq]

/-- States that agree, also in the registers a command reads, give it agreeing outcomes. -/
theorem AgreeOnWritten.exec_of_sources {i : Instr} {s s' : State} (h : AgreeOnWritten s s')
    (hv : ∀ r ∈ sources i, s'.val r = s.val r) : ResultsAgree (exec i s) (exec i s') := by
  have hcfg := h.cfg_eq
  have hflags := h.flags_eq
  have hmax : s'.maxVal = s.maxVal := by simp only [State.maxVal, hcfg]
  have hbytes : s'.valueBytes = s.valueBytes := by simp only [State.valueBytes, hcfg]
  cases i <;> simp only [sources, List.forall_mem_cons, List.not_mem_nil, false_imp_iff, implies_true, and_true] at hv
  case nop => exact .next h
  case clrf => exact .next ((h.setOv rfl).setPerr .ok)
  case ldi | ldmax | rdf | mov | cmpEq | cmpNe | cmpLt | cmpLe | cmpGt | cmpGe | isz | addW | addS | subW | subS
    | mulW | mulS | powW | shl | shr | rol | ror | shli | shri | roli | rori | bitAnd | bitOr | bitXor | bitNot
    | clz | ctz | bits | f2u | u2f | isqrt =>
    exact .next (h.setReg _ (by simp only [hcfg, hflags, hmax, hv]))
  case narrow | addO | subO | mulO | powO =>
    exact .next ((h.setReg _ (by simp only [hcfg, hv])).setOv (by simp only [hcfg, hv]))
  case addC | subC | mulC => exact h.writeChecked _ (by simp only [hv]) (by simp only [hcfg, hv])
  case ldl | getl | bit => exact h.raise_or (by simp only [hcfg]) _ _ (.next (h.setReg _ (by simp only [hv])))
  case div | rem => exact h.raise_or (by simp only [hv]) _ _ (.next (h.setReg _ (by simp only [hv])))
  case mulWide =>
    exact h.raise_or rfl _ _ (.next ((h.setReg _ (by simp only [hv])).setReg _ (by simp only [hcfg, hv])))
  case divmod =>
    exact h.raise_or rfl _ _ (h.raise_or (by simp only [hv]) _ _
      (.next ((h.setReg _ (by simp only [hv])).setReg _ (by simp only [hv]))))
  case ldbe | ldle => exact h.raise_or (by simp only [hbytes]) _ _ (h.withBytes _ _ _ fun _ => .next (h.setReg _ rfl))
  case parsedec | parsehex | parser => exact h.withBytes _ _ _ fun _ => h.writeParse _ (by simp only [hcfg])
  case stbe | stle => exact h.storeBytes _ (by simp only [hbytes, hv]) _ id
  case fmtdec | fmthex | fmtr =>
    exact h.storeBytes _ (by simp only [hcfg, hv]) _ fun ht => ht.setReg _ (by simp only [hcfg, hv])

/-- Settles O50: a check on the command word fails in both states, or the command reads written registers alone. -/
theorem unwrittenRegistersDoNotMatter : Obligations.UnwrittenRegistersDoNotMatter := by
  intro i s s' h hread
  have hagree : ResultsAgree (exec i s) (exec i s') := by
    cases hc : operandCheck i s with
    | some c =>
      rw [exec_of_operandCheck hc, exec_of_operandCheck ((h.operandCheck_eq i).trans hc)]
      exact h.raise c i
    | none =>
      refine h.exec_of_sources fun r hr => h.val_eq ?_
      by_contra hw
      exact hread ⟨hc, r, hr, Bool.eq_false_of_not_eq_true hw⟩
  exact ⟨fun t ht => hagree.of_next ht, fun f hf => hagree.of_fault hf⟩

end Sys2Proof.Machine

namespace Sys2Proof.Machine

/-! ### A step that only answers the host (R31, R402) -/

theorem step_of_host {s : State} {op : HostOp} {rest : List HostOp} (h : s.host = op :: rest) :
    step s = hostStep op (s.setHost rest) := by
  simp only [step, h]

/-- In STOPPED a command is discarded before it is decoded (R31). -/
theorem issue_of_stopped {s : State} {c : Cause} (h : s.fault = some c) (w : Word) (lit : Option Word) :
    issue w lit s = .next (s.answer .discarded) :=
  if_pos ((State.stopped_iff s).2 ⟨c, h⟩)

/-- A host operation that gives a reply and does nothing else leaves the engine as it is: the step advances the host's
list and sets the reply. -/
theorem step_only_answers {s : State} {op : HostOp} {rest : List HostOp} {reply : Reply} (hs : s.host = op :: rest)
    (h : hostStep op (s.setHost rest) = .next ((s.setHost rest).answer reply)) :
    ∃ t, step s = .next t ∧ SameRegs s t ∧ t.flags = s.flags ∧ SameBuffer s t ∧ t.fault = s.fault ∧
      t.faultCmd = s.faultCmd ∧ t.faultLit = s.faultLit ∧ t.cfg = s.cfg ∧ t.host = rest ∧ t.reply = some reply :=
  ⟨_, (step_of_host hs).trans h, SameRegs.refl s, rfl, SameBuffer.refl s, rfl, rfl, rfl, rfl, rfl, rfl⟩

/-- Settles O2: the discarded issue only answers. -/
theorem stoppedEngineDiscardsCommands : Obligations.StoppedEngineDiscardsCommands := by
  intro s c w lit rest hs hfault
  exact step_only_answers hs (issue_of_stopped (s := s.setHost rest) hfault w lit)

/-- FLAGS as the sum of its fields' places: OV in bit 0, PERR from bit 1 (R25). -/
theorem Flags.bits_eq_add (f : Flags) :
    f.bits = (if f.ov then 1 else 0) + match f.perr with
      | .ok => 0x00
      | .invalidDigit => 0x02
      | .overflow => 0x04
      | .empty => 0x06 := by
  obtain ⟨ov, perr⟩ := f
  cases ov <;> cases perr <;> rfl

/-- FAULT as FAULTED in bit 0 and the cause's code from bit 8 (R29, R390). -/
theorem State.faultBits_eq_code (s : State) :
    s.faultBits = match s.fault with
      | none => 0x0000
      | some .illegalCommand => 0x0101
      | some .divideByZero => 0x0201
      | some .bufferRange => 0x0301
      | some .badLength => 0x0401
      | some .badIndex => 0x0501
      | some .operandConflict => 0x0601 := by
  unfold State.faultBits
  rcases s.fault with _ | c
  · rfl
  · cases c <;> rfl

/-- Settles O52: each of these reads only answers, with the field in its bits. -/
theorem hostReadsReturnTheStateUnchanged : Obligations.HostReadsReturnTheStateUnchanged := by
  intro s r rest op reply hop hs
  refine step_only_answers hs ?_
  simp only [List.mem_cons, Prod.mk.injEq, List.not_mem_nil, or_false] at hop
  obtain ⟨rfl, rfl⟩ | ⟨rfl, rfl⟩ | ⟨rfl, rfl⟩ | ⟨rfl, rfl⟩ | ⟨rfl, rfl⟩ | ⟨rfl, rfl⟩ := hop
  · rfl
  · exact congrArg (fun b => Host.Outcome.next ((s.setHost rest).answer (.flags b))) (Flags.bits_eq_add s.flags)
  · exact congrArg (fun b => Host.Outcome.next ((s.setHost rest).answer (.fault b))) (State.faultBits_eq_code s)
  · rfl
  · rfl
  · rfl

/-! ### What keeps the fault registers (R31, R396, R397) -/

/-- FAULT, FAULTCMD and FAULTLIT are as before. -/
def SameFault (s t : State) : Prop := t.fault = s.fault ∧ t.faultCmd = s.faultCmd ∧ t.faultLit = s.faultLit

theorem hostReadBuf_next {a n : Nat} {s t : State} (h : hostReadBuf a n s = .next t) : ∃ r, t = s.answer r := by
  unfold hostReadBuf at h
  split at h
  · split at h
    · cases h
    · cases h
      exact ⟨_, rfl⟩
  · cases h
    exact ⟨_, rfl⟩

theorem hostWriteBuf_next {a : Nat} {bs : List Byte} {s t : State} (h : hostWriteBuf a bs s = .next t) :
    t = (s.writeBytes a bs).answer .nothing ∨ t = s.answer .refusedAccess := by
  unfold hostWriteBuf at h
  split at h
  · cases h
    exact .inl rfl
  · cases h
    exact .inr rfl

/-- In STOPPED no host operation but Reset touches the fault registers. -/
theorem hostStep_sameFault_of_stopped {op : HostOp} {s t : State} {c : Cause} (hfault : s.fault = some c)
    (hop : op ≠ .reset) (h : hostStep op s = .next t) : SameFault s t := by
  cases op with
  | reset => exact absurd rfl hop
  | issue w lit =>
    cases (issue_of_stopped hfault w lit).symm.trans h
    exact ⟨rfl, rfl, rfl⟩
  | readBuf a n =>
    obtain ⟨r, rfl⟩ := hostReadBuf_next h
    exact ⟨rfl, rfl, rfl⟩
  | writeBuf a bs =>
    obtain rfl | rfl := hostWriteBuf_next h <;> exact ⟨rfl, rfl, rfl⟩
  | writeReg | readReg | readFlags | readFault | readFaultCmd | readFaultLit | readId =>
    cases h
    exact ⟨rfl, rfl, rfl⟩

/-- Settles O47: a step is nothing or a host operation other than Reset. -/
theorem firstFaultStaysUntilReset : Obligations.FirstFaultStaysUntilReset := by
  intro s t c hfault hhead h
  obtain ⟨-, hstep⟩ | ⟨op, rest, hs, hstep⟩ := step_cases s <;> rw [hstep] at h
  · cases h
    exact ⟨hfault, rfl, rfl⟩
  · have hop : op ≠ .reset := by simpa [hs] using hhead
    obtain ⟨hf, hcmd, hlit⟩ := hostStep_sameFault_of_stopped (s := s.setHost rest) hfault hop h
    exact ⟨hf.trans hfault, hcmd, hlit⟩

end Sys2Proof.Machine

namespace Sys2Proof.Machine

/-! ### Which commands write FLAGS (R26, R27) -/

/-- A next state in the result, if there is one, has the OV and the PERR of `s`, each but for the commands that the
rules name. -/
def KeepsFlags (i : Instr) (s : State) : Result → Prop
  | .next t => (writesOv i = false → t.flags.ov = s.flags.ov) ∧ (writesPerr i = false → t.flags.perr = s.flags.perr)
  | .fault _ | .refused _ => True

section KeepsFlags
variable {i : Instr} {s : State}

theorem keepsFlags_of_eq {t : State} (h : t.flags = s.flags) : KeepsFlags i s (.next t) :=
  ⟨fun _ => congrArg Flags.ov h, fun _ => congrArg Flags.perr h⟩

/-- A command that the rules name for OV alone. -/
theorem keepsFlags_of_writesOv {t : State} (hi : writesOv i = true) (h : t.flags.perr = s.flags.perr) :
    KeepsFlags i s (.next t) :=
  ⟨fun hn => by simp [hi] at hn, fun _ => h⟩

/-- A command that the rules name for PERR alone. -/
theorem keepsFlags_of_writesPerr {t : State} (hi : writesPerr i = true) (h : t.flags.ov = s.flags.ov) :
    KeepsFlags i s (.next t) :=
  ⟨fun _ => h, fun hn => by simp [hi] at hn⟩

theorem keepsFlags_raise (c : Cause) (j : Instr) : KeepsFlags i s (raise c j s) := keepsFlags_of_eq rfl

theorem keepsFlags_raise_or (p : Prop) [Decidable p] (c : Cause) (j : Instr) {r : Result} (h : KeepsFlags i s r) :
    KeepsFlags i s (if p then raise c j s else r) :=
  iteInduction (fun _ => keepsFlags_raise c j) fun _ => h

theorem keepsFlags_writeChecked (hi : writesOv i = true) (rd : Reg) (e : Nat) (ov : Bool) :
    KeepsFlags i s (writeChecked rd e ov s) := by
  cases ov <;> exact keepsFlags_of_writesOv hi rfl

theorem keepsFlags_writeParse (hi : writesPerr i = true) (rd : Reg) (k : Except ParseStatus Nat) :
    KeepsFlags i s (writeParse rd k s) := by
  cases k <;> exact keepsFlags_of_writesPerr hi rfl

theorem keepsFlags_withBytes {addr len : Nat} {j : Instr} {k : List Byte → Result}
    (hk : ∀ bs, KeepsFlags i s (k bs)) : KeepsFlags i s (withBytes addr len j s k) := by
  obtain ⟨-, h⟩ | ⟨-, ⟨bs, -, -, h⟩ | ⟨e, -, -, -, h⟩⟩ := withBytes_cases addr len j s k <;> rw [h]
  · exact keepsFlags_raise _ j
  · exact hk bs
  · trivial

theorem keepsFlags_storeBytes {addr : Nat} {bs : List Byte} {j : Instr} {k : State → State}
    (hk : ∀ t, (k t).flags = t.flags) : KeepsFlags i s (storeBytes addr bs j s k) :=
  iteInduction (fun _ => keepsFlags_of_eq (hk _)) fun _ => keepsFlags_raise _ j

end KeepsFlags

theorem exec_keepsFlags (i : Instr) (s : State) : KeepsFlags i s (exec i s) := by
  cases i with
  | nop | mov | ldi | ldmax | rdf | cmpEq | cmpNe | cmpLt | cmpLe | cmpGt | cmpGe | isz | addW | addS | subW | subS
  | mulW | mulS | powW | shl | shr | rol | ror | shli | shri | roli | rori | bitAnd | bitOr | bitXor | bitNot
  | clz | ctz | bits | f2u | u2f | isqrt => exact keepsFlags_of_eq rfl
  | clrf => exact ⟨nofun, nofun⟩
  | narrow | addO | subO | mulO | powO => exact keepsFlags_of_writesOv rfl rfl
  | addC | subC | mulC => exact keepsFlags_writeChecked rfl ..
  | ldl | getl | bit | div | rem | mulWide => exact keepsFlags_raise_or _ _ _ (keepsFlags_of_eq rfl)
  | divmod => exact keepsFlags_raise_or _ _ _ (keepsFlags_raise_or _ _ _ (keepsFlags_of_eq rfl))
  | ldbe | ldle => exact keepsFlags_raise_or _ _ _ (keepsFlags_withBytes fun _ => keepsFlags_of_eq rfl)
  | parsedec | parsehex | parser => exact keepsFlags_withBytes fun _ => keepsFlags_writeParse rfl ..
  | stbe | stle => exact keepsFlags_storeBytes fun _ => rfl
  | fmtdec | fmthex | fmtr => exact keepsFlags_storeBytes fun _ => State.setReg_flags ..

/-- Settles O48: the statement is what `exec_keepsFlags` says of a next state. -/
theorem onlyNamedCommandsChangeFlags : Obligations.OnlyNamedCommandsChangeFlags := by
  intro i s t h
  have hkeeps := exec_keepsFlags i s
  rwa [h] at hkeeps

end Sys2Proof.Machine

namespace Sys2Proof.Machine

/-! ### Reset (R38, R420) and ID (R33) -/

theorem State.resetOf_written (c : Config) (r : Reg) : (State.resetOf c).written[r] = false :=
  Vector.getElem_replicate r.isLt

theorem State.restart_written (s : State) (r : Reg) : s.restart.written[r] = false :=
  State.resetOf_written s.cfg r

/-- A legal instance meets the invariant right after reset. -/
theorem Inv.resetOf {c : Config} (h : c.Legal) : Inv (State.resetOf c) :=
  ⟨h, wf_resetOf c, nofun, fun _ => ⟨rfl, rfl⟩⟩

/-- Settles O43: the reset state's fields, and the default instance is legal. -/
theorem resetStateIsRunningAndMeetsTheInvariant : Obligations.ResetStateIsRunningAndMeetsTheInvariant :=
  ⟨rfl, rfl, rfl, rfl, State.resetOf_written Config.default, fun _ => rfl, Inv.resetOf (by decide)⟩

/-- Settles O44: the step restarts the engine and replies. -/
theorem resetOperationClearsTheEngine : Obligations.ResetOperationClearsTheEngine := by
  intro s rest hs
  exact ⟨_, step_of_host hs, rfl, rfl, rfl, rfl, State.restart_written s, fun _ => rfl, rfl, rfl, rfl, rfl⟩

/-- On a legal instance `N` and `BUF_BYTES` fit in their fields of ID (R33). -/
theorem idBits_toNat {c : Config} (h : c.Legal) :
    (idBits c).toNat = c.limbs + 2 ^ 16 * 16 + 2 ^ 24 * 1 + 2 ^ 32 * c.bufBytes := by
  obtain ⟨-, hlimbs, -, hbuf⟩ := h
  rw [idBits, BitVec.toNat_ofNat]
  omega

/-- Settles O54: the four fields of `idBits_toNat`. -/
theorem idHoldsTheInstanceParameters : Obligations.IdHoldsTheInstanceParameters := by
  intro c hc
  have hid := idBits_toNat hc
  obtain ⟨-, hlimbs, -, hbuf⟩ := hc
  simp only [slice, hid]
  omega

end Sys2Proof.Machine

namespace Sys2Proof.Machine

/-! ### A byte that holds no value stops the reader (R51, R393 step 5) -/

/-- Settles O27: each of the five commands makes its access through `withBytes`, an import once its length is legal. -/
theorem unwrittenByteStopsTheReader : Obligations.UnwrittenByteStopsTheReader := by
  intro s rd addr len radix e hr h1 h2 h3 h4
  have hstop (i : Instr) (k : List Byte → Result) :
      withBytes addr.toNat len.toNat i s k = .fault (.uninitRead e) := withBytes_uninit hr h1 h2 h3 h4
  refine ⟨fun hlen => ?_, hstop _ _, hstop _ _, hstop _ _⟩
  have hlegal : ¬ s.valueBytes < len.toNat := Nat.not_lt.2 hlen
  exact ⟨(if_neg hlegal).trans (hstop _ _), (if_neg hlegal).trans (hstop _ _)⟩

/-! ### What a command leaves alone (R50, R72) -/

/-- From `s` to `t` no register outside `rds` changes, no byte of the buffer does unless `buf` allows it, and all of
`cfg`, `host` and `reply` stay. -/
structure ChangesOnly (rds : List Reg) (buf : Bool) (s t : State) : Prop where
  buffer : buf = false → SameBuffer s t
  regs   : ∀ r : Reg, r ∉ rds → t.val r = s.val r ∧ t.written[r] = s.written[r]
  cfg    : t.cfg = s.cfg
  host   : t.host = s.host
  reply  : t.reply = s.reply

section ChangesOnly
variable {rds : List Reg} {buf : Bool} {s t : State}

theorem ChangesOnly.refl : ChangesOnly rds buf s s :=
  ⟨fun _ => SameBuffer.refl s, fun r _ => SameRegs.refl s r, rfl, rfl, rfl⟩

theorem ChangesOnly.setReg {rd : Reg} (hrd : rd ∈ rds) (e : Nat) (h : ChangesOnly rds buf s t) :
    ChangesOnly rds buf s (t.setReg rd e) := by
  refine ⟨h.buffer, fun r hr => ?_, h.cfg, h.host, h.reply⟩
  have hne : r ≠ rd := fun heq => hr (heq ▸ hrd)
  obtain ⟨hval, hwritten⟩ := h.regs r hr
  exact ⟨(State.setReg_val_of_ne t rd e r hne).trans hval, by simpa [hne] using hwritten⟩

theorem ChangesOnly.setOv (b : Bool) (h : ChangesOnly rds buf s t) : ChangesOnly rds buf s (t.setOv b) :=
  ⟨h.buffer, h.regs, h.cfg, h.host, h.reply⟩

theorem ChangesOnly.setPerr (c : ParseStatus) (h : ChangesOnly rds buf s t) : ChangesOnly rds buf s (t.setPerr c) :=
  ⟨h.buffer, h.regs, h.cfg, h.host, h.reply⟩

theorem ChangesOnly.takeFault (c : Cause) (ws : Word × Option Word) (h : ChangesOnly rds buf s t) :
    ChangesOnly rds buf s (t.takeFault c ws) :=
  ⟨h.buffer, h.regs, h.cfg, h.host, h.reply⟩

theorem ChangesOnly.writeBytes (a : Nat) (bs : List Byte) (h : ChangesOnly rds true s t) :
    ChangesOnly rds true s (t.writeBytes a bs) :=
  ⟨nofun, h.regs, h.cfg, h.host, h.reply⟩

/-- A next state in the result, if there is one, has only such changes. -/
def ResultChangesOnly (rds : List Reg) (buf : Bool) (s : State) : Result → Prop
  | .next t => ChangesOnly rds buf s t
  | .fault _ | .refused _ => True

theorem changesOnly_raise (c : Cause) (i : Instr) : ResultChangesOnly rds buf s (raise c i s) :=
  ChangesOnly.refl.takeFault c (encode i)

theorem changesOnly_raise_or (p : Prop) [Decidable p] (c : Cause) (i : Instr) {r : Result}
    (h : ResultChangesOnly rds buf s r) : ResultChangesOnly rds buf s (if p then raise c i s else r) :=
  iteInduction (fun _ => changesOnly_raise c i) fun _ => h

theorem changesOnly_setReg (rd : Reg) (e : Nat) : ChangesOnly [rd] buf s (s.setReg rd e) :=
  ChangesOnly.refl.setReg List.mem_cons_self e

theorem changesOnly_setReg_setReg (rd rd2 : Reg) (e e2 : Nat) :
    ChangesOnly [rd, rd2] buf s ((s.setReg rd e).setReg rd2 e2) :=
  (ChangesOnly.refl.setReg List.mem_cons_self e).setReg (List.mem_cons_of_mem _ List.mem_cons_self) e2

theorem changesOnly_writeChecked (rd : Reg) (e : Nat) (ov : Bool) :
    ResultChangesOnly [rd] buf s (writeChecked rd e ov s) := by
  cases ov with
  | true => exact ChangesOnly.refl.setOv true
  | false => exact (changesOnly_setReg rd e).setOv false

theorem changesOnly_writeParse (rd : Reg) (k : Except ParseStatus Nat) :
    ResultChangesOnly [rd] buf s (writeParse rd k s) := by
  cases k with
  | ok x => exact (changesOnly_setReg rd x).setPerr .ok
  | error e => exact ChangesOnly.refl.setPerr e

theorem changesOnly_withBytes {addr len : Nat} {i : Instr} {k : List Byte → Result}
    (hk : ∀ bs, ResultChangesOnly rds buf s (k bs)) : ResultChangesOnly rds buf s (withBytes addr len i s k) := by
  obtain ⟨-, h⟩ | ⟨-, ⟨bs, -, -, h⟩ | ⟨e, -, -, -, h⟩⟩ := withBytes_cases addr len i s k <;> rw [h]
  · exact changesOnly_raise _ i
  · exact hk bs
  · trivial

theorem changesOnly_storeBytes {addr : Nat} {bs : List Byte} {i : Instr} {k : State → State}
    (hk : ∀ t, ChangesOnly rds true s t → ChangesOnly rds true s (k t)) :
    ResultChangesOnly rds true s (storeBytes addr bs i s k) :=
  iteInduction (fun _ => hk _ (ChangesOnly.refl.writeBytes addr bs)) fun _ => changesOnly_raise _ i

end ChangesOnly

/-- Every command changes its destinations alone, and the buffer if it is a store or format command. -/
theorem exec_changesOnly (i : Instr) (s : State) :
    ResultChangesOnly (destinations i) (writesBuffer i) s (exec i s) := by
  cases i with
  | nop => exact ChangesOnly.refl
  | clrf => exact (ChangesOnly.refl.setOv false).setPerr .ok
  | mov | ldi | ldmax | rdf | cmpEq | cmpNe | cmpLt | cmpLe | cmpGt | cmpGe | isz | addW | addS | subW | subS
  | mulW | mulS | powW | shl | shr | rol | ror | shli | shri | roli | rori | bitAnd | bitOr | bitXor | bitNot
  | clz | ctz | bits | f2u | u2f | isqrt => exact changesOnly_setReg ..
  | narrow | addO | subO | mulO | powO => exact (changesOnly_setReg ..).setOv _
  | addC | subC | mulC => exact changesOnly_writeChecked ..
  | ldl | getl | bit | div | rem => exact changesOnly_raise_or _ _ _ (changesOnly_setReg ..)
  | mulWide => exact changesOnly_raise_or _ _ _ (changesOnly_setReg_setReg ..)
  | divmod => exact changesOnly_raise_or _ _ _ (changesOnly_raise_or _ _ _ (changesOnly_setReg_setReg ..))
  | ldbe | ldle => exact changesOnly_raise_or _ _ _ (changesOnly_withBytes fun _ => changesOnly_setReg ..)
  | parsedec | parsehex | parser => exact changesOnly_withBytes fun _ => changesOnly_writeParse ..
  | stbe | stle => exact changesOnly_storeBytes fun _ h => h
  | fmtdec | fmthex | fmtr => exact changesOnly_storeBytes fun _ h => h.setReg List.mem_cons_self _

/-- Settles O49: the parts of what `exec_changesOnly` says of a next state. -/
theorem commandsChangeOnlyTheirDestinations : Obligations.CommandsChangeOnlyTheirDestinations := by
  intro i s t h
  have hchanges := exec_changesOnly i s
  rw [h] at hchanges
  obtain ⟨hbuffer, hregs, hcfg, hhost, hreply⟩ := hchanges
  exact ⟨hbuffer, hregs, hcfg, hhost, hreply⟩

end Sys2Proof.Machine

namespace Sys2Proof.Machine

/-! ### The host's accesses to the buffer (R402) -/

section HostBuffer
variable {s : State} {a n : Nat} {bs : List Byte}

theorem hostReadBuf_ok (hr : a + bs.length ≤ s.cfg.bufBytes) (hb : HasBytes s a bs) :
    hostReadBuf a bs.length s = .next (s.answer (.bytes bs)) := by
  simp only [hostReadBuf, (State.inRange_iff s a _).2 hr, if_true,
    (Memory.readList_ok_iff s.mem a _ bs).2 ⟨rfl, hb⟩]

/-- At the first byte of the access that holds no value (R51). -/
theorem hostReadBuf_uninit {e : Nat} (hr : a + n ≤ s.cfg.bufBytes) (h1 : a ≤ e) (h2 : e < a + n)
    (h3 : s.readByte e = none) (h4 : ∀ k, a ≤ k → k < e → s.readByte k ≠ none) :
    hostReadBuf a n s = .fault (.uninitRead e) := by
  simp only [hostReadBuf, (State.inRange_iff s a n).2 hr, if_true,
    (Memory.readList_error_iff s.mem a n e).2 ⟨h1, h2, h3, h4⟩]

theorem hostReadBuf_range (hr : s.cfg.bufBytes < a + n) : hostReadBuf a n s = .next (s.answer .refusedAccess) := by
  simp [hostReadBuf, State.inRange, Nat.not_le.2 hr]

theorem hostWriteBuf_ok (hr : a + bs.length ≤ s.cfg.bufBytes) :
    hostWriteBuf a bs s = .next ((s.writeBytes a bs).answer .nothing) :=
  if_pos ((State.inRange_iff s a _).2 hr)

theorem hostWriteBuf_range (hr : s.cfg.bufBytes < a + bs.length) :
    hostWriteBuf a bs s = .next (s.answer .refusedAccess) := by
  simp [hostWriteBuf, State.inRange, Nat.not_le.2 hr]

end HostBuffer

/-- WriteReg of a `W`-bit value changes that register alone. -/
theorem step_writeReg {s : State} {r : Reg} {x : Nat} {rest : List HostOp} (hs : s.host = .writeReg r x :: rest)
    (hx : x < 2 ^ s.cfg.width) :
    ∃ t, step s = .next t ∧ OnlyReg s t r x ∧ SameBuffer s t ∧ t.flags = s.flags ∧ t.fault = s.fault ∧
      t.faultCmd = s.faultCmd ∧ t.faultLit = s.faultLit ∧ t.host = rest ∧ t.reply = some .nothing :=
  ⟨_, step_of_host hs, onlyReg_setReg s r (Nat.mod_eq_of_lt hx), SameBuffer.refl s, rfl, rfl, rfl, rfl, rfl, rfl⟩

/-- WriteBuf writes its bytes, or is refused where they are not all inside the buffer. -/
theorem step_writeBuf {s : State} {a : Nat} {bs : List Byte} {rest : List HostOp}
    (hs : s.host = .writeBuf a bs :: rest) :
    ∃ t, step s = .next t ∧ SameRegs s t ∧ t.flags = s.flags ∧ t.fault = s.fault ∧
      t.faultCmd = s.faultCmd ∧ t.faultLit = s.faultLit ∧ t.host = rest ∧
      if a + bs.length ≤ s.cfg.bufBytes then BufferHolds s t a bs ∧ t.reply = some .nothing
      else SameBuffer s t ∧ t.reply = some .refusedAccess := by
  by_cases hr : a + bs.length ≤ s.cfg.bufBytes
  · simp only [if_pos hr]
    exact ⟨_, (step_of_host hs).trans (hostWriteBuf_ok (s := s.setHost rest) hr), SameRegs.refl s, rfl, rfl, rfl, rfl,
      rfl, bufferHolds_writeBytes s a bs, rfl⟩
  · simp only [if_neg hr]
    exact ⟨_, (step_of_host hs).trans (hostWriteBuf_range (s := s.setHost rest) (Nat.lt_of_not_le hr)),
      SameRegs.refl s, rfl, rfl, rfl, rfl, rfl, SameBuffer.refl s, rfl⟩

/-- ReadBuf where no byte in range lacks a value: the reply is the bytes, or a refusal out of range. -/
theorem hostReadBuf_answers {s : State} {a : Nat} {bs : List Byte}
    (hb : a + bs.length ≤ s.cfg.bufBytes → HasBytes s a bs) :
    hostReadBuf a bs.length s =
      .next (s.answer (if a + bs.length ≤ s.cfg.bufBytes then .bytes bs else .refusedAccess)) := by
  by_cases hr : a + bs.length ≤ s.cfg.bufBytes
  · rw [if_pos hr, hostReadBuf_ok hr (hb hr)]
  · rw [if_neg hr, hostReadBuf_range (Nat.lt_of_not_le hr)]

/-- Settles O53: WriteReg and WriteBuf by their step lemmas, ReadBuf as an operation that only answers or stops. -/
theorem hostWritesAndBufferAccesses : Obligations.HostWritesAndBufferAccesses := by
  intro s r x a bs rest
  refine ⟨step_writeReg, step_writeBuf, fun hs hb => ?_, fun n e hs hr h1 h2 h3 h4 => ?_⟩
  · obtain ⟨t, hstep, hregs, hflags, hbuffer, hfault, hcmd, hlit, -, hhost, hreply⟩ :=
      step_only_answers hs (hostReadBuf_answers (s := s.setHost rest) hb)
    exact ⟨t, hstep, hregs, hbuffer, hflags, hfault, hcmd, hlit, hhost, hreply⟩
  · exact (step_of_host hs).trans (hostReadBuf_uninit (s := s.setHost rest) hr h1 h2 h3 h4)

end Sys2Proof.Machine

namespace Sys2Proof

/-! ### What the decoder accepts (R79) -/

/-- The decoder accepts exactly the rows of the opcode map, with the unused fields zero and the row's word count. -/
theorem decode_eq_ok_iff {w : Word} {lit : Option Word} {i : Instr} :
    decode w lit = .ok i ↔
      ∃ f, opcodeRow (opcField w) (fnField w) (fieldsOf w (lit.getD 0)) = some (f, i) ∧
        f.unusedZero w = true ∧ lit.isSome = isTwoWords w := by
  unfold decode
  cases opcodeRow (opcField w) (fnField w) (fieldsOf w (lit.getD 0)) with
  | none => simp
  | some row =>
    obtain ⟨f, j⟩ := row
    by_cases hu : f.unusedZero w <;> by_cases hc : lit.isSome = isTwoWords w <;> simp [hu, hc]

theorem opcField_eq_mod (w : Word) : opcField w = w.toNat % 256 := by simp [opcField, slice]

/-- Settles O7: the word count is one of the decoder's tests. -/
theorem onlyLdlHasTwoWords : Obligations.OnlyLdlHasTwoWords := by
  intro w lit i h
  obtain ⟨f, -, -, hcount⟩ := decode_eq_ok_iff.1 h
  rw [hcount, isTwoWords, beq_iff_eq, opcField_eq_mod]

/-! ### The words of a format (R71, R72) -/

/-- No operand: every field zero. -/
def Fields.zero : Fields := { rd := 0, rs1 := 0, rs2 := 0, rd2 := 0, imm := 0, addr := 0, len := 0, lit := 0 }

/-- The operands a format uses; the fields it does not use are zero. -/
def Format.mask (f : Format) (x : Fields) : Fields :=
  match f with
  | .n => .zero
  | .d => { Fields.zero with rd := x.rd }
  | .r2 | .r2f => { Fields.zero with rd := x.rd, rs1 := x.rs1 }
  | .r3 => { Fields.zero with rd := x.rd, rs1 := x.rs1, rs2 := x.rs2 }
  | .r4 => { Fields.zero with rd := x.rd, rs1 := x.rs1, rs2 := x.rs2, rd2 := x.rd2 }
  | .ri => { Fields.zero with rd := x.rd, rs1 := x.rs1, imm := x.imm }
  | .i => { Fields.zero with rd := x.rd, imm := x.imm }
  | .l => { Fields.zero with rd := x.rd, rs1 := x.rs1, imm := x.imm, lit := x.lit }
  | .md | .mdf => { Fields.zero with rd := x.rd, addr := x.addr, len := x.len }
  | .ms => { Fields.zero with rs1 := x.rs1, addr := x.addr }
  | .mf | .mff => { Fields.zero with rd := x.rd, rs1 := x.rs1, addr := x.addr }

/-- The `FN` field of a format: zero where the format has none. -/
def Format.maskFn : Format → Nat → Nat
  | .r2f, fn | .r3, fn | .mdf, fn | .mff, fn => fn
  | _, _ => 0

/-- The bits 63:32 of a format's word: `IMM`, or `ADDR` and `LEN`, whose unused ones are zero. -/
def Format.upper (f : Format) (x : Fields) : Nat :=
  match f with
  | .ri | .i | .l => x.imm.toNat
  | .md | .mdf => packMem x.addr x.len
  | .ms | .mf | .mff => x.addr.toNat
  | .n | .d | .r2 | .r2f | .r3 | .r4 => 0

/-- The first word of format `f` with the operands `x`. -/
def Format.pack (f : Format) (opc fn : Nat) (x : Fields) : Word :=
  packWord opc (f.mask x).rd (f.mask x).rs1 (f.mask x).rs2 (f.mask x).rd2 (f.maskFn fn) (f.upper x)

/-- The second word of a format (R73, R75). -/
def Format.second (f : Format) (x : Fields) : Option Word := if f = .l then some x.lit else none

theorem Format.maskFn_lt (f : Format) {fn : Nat} (h : fn < 256) : f.maskFn fn < 256 := by
  cases f with
  | r2f | r3 | mdf | mff => exact h
  | _ => exact Nat.zero_lt_succ 255

theorem Format.upper_lt (f : Format) (x : Fields) : f.upper x < 2 ^ 32 := by
  have := x.imm.isLt
  have := x.addr.isLt
  have := packMem_lt x.addr x.len
  cases f <;> simp only [Format.upper] <;> omega

section Pack
variable {opc fn : Nat} (f : Format) (x : Fields)

theorem Format.opcField_pack (ho : opc < 256) (hf : fn < 256) : opcField (f.pack opc fn x) = opc :=
  opcField_packWord ho (f.maskFn_lt hf) (f.upper_lt x)

theorem Format.fnField_pack (ho : opc < 256) (hf : fn < 256) : fnField (f.pack opc fn x) = f.maskFn fn :=
  fnField_packWord ho (f.maskFn_lt hf) (f.upper_lt x)

/-- The fields a format uses are read back from its words. -/
theorem Format.mask_fieldsOf_pack (ho : opc < 256) (hf : fn < 256) :
    f.mask (fieldsOf (f.pack opc fn x) ((f.second x).getD 0)) = f.mask x := by
  rw [Format.pack, fieldsOf_packWord ho (f.maskFn_lt hf) (f.upper_lt x)]
  cases f <;> simp [Format.mask, Format.upper, Format.second, -Nat.reducePow]

/-- The fields a format does not use are zero in its word. -/
theorem Format.unusedZero_pack (ho : opc < 256) (hf : fn < 256) : f.unusedZero (f.pack opc fn x) = true := by
  rw [Format.pack, unusedZero_packWord f ho (f.maskFn_lt hf) (f.upper_lt x)]
  cases f <;> simp [Format.mask, Format.maskFn, Format.upper, Fields.zero, BitVec.isLt, -Nat.reducePow]

end Pack

/-- `ADDR` and `LEN` together are `IMM` (R71). -/
theorem packMem_slices (w : Word) :
    packMem (BitVec.ofNat 16 (slice w 47 32)) (BitVec.ofNat 16 (slice w 63 48)) = slice w 63 32 := by
  have := w.isLt
  simp only [packMem, slice, BitVec.toNat_ofNat]
  omega

/-- A word whose unused fields are zero is packed from its own fields: field by field, one the format uses is read from
the word, and one it does not use is zero by the check. -/
theorem Format.pack_fieldsOf {f : Format} {w : Word} (h : f.unusedZero w = true) (lit : Word) :
    f.pack (opcField w) (fnField w) (fieldsOf w lit) = w := by
  refine Eq.trans ?_ (packWord_slices w)
  have := w.isLt
  cases f <;>
    simp only [Format.unusedZero, Bool.and_eq_true, beq_iff_eq] at h <;>
    simp only [Format.pack, Format.mask, Format.maskFn, Format.upper, Fields.zero, fieldsOf, regField_val,
      packMem_slices, BitVec.toNat_ofNat, Fin.val_zero] <;>
    congr 1 <;> simp only [fnField, slice] at h ⊢ <;> omega

/-- A second word, issued exactly where the format has one, is the format's. -/
theorem Format.second_fieldsOf {f : Format} {w : Word} {lit : Option Word}
    (h : lit.isSome = (f.second (fieldsOf w (lit.getD 0))).isSome) : f.second (fieldsOf w (lit.getD 0)) = lit := by
  unfold Format.second at h ⊢
  cases lit <;> split <;> simp_all [fieldsOf]

/-! ### The rows of the opcode map (R74, R75, R77) -/

/-- What the row of `opc` and `fn` with the operands `x` says, `f` its format and `i` its command. -/
structure RowSpec (opc fn : Nat) (x : Fields) (f : Format) (i : Instr) : Prop where
  /-- The encoder gives the words of the format. -/
  encode_eq : encode i = (f.pack opc fn x, f.second x)
  wellFormed : i.wellFormed = true
  /-- A format without `FN` stands for `FN` = 0 alone (R74). -/
  fn_eq : f.maskFn fn = fn
  /-- Two words exactly for the `OPC` of `LDL` (R75). -/
  length : (f.second x).isSome = (opc == 0x04)
  /-- The row depends on the fields its format uses alone. -/
  mask_eq : ∀ y, opcodeRow opc fn (f.mask y) = opcodeRow opc fn y

/-- The row, if there is one, meets its specification. -/
def RowMeets (opc fn : Nat) (x : Fields) : Option (Format × Instr) → Prop
  | some (f, i) => RowSpec opc fn x f i
  | none => True

section Rows
variable {opc fn : Nat} {x : Fields}

theorem rowMeets_onlyFnZero {row : Format × Instr} (h : RowMeets opc 0 x (some row)) :
    RowMeets opc fn x (onlyFnZero fn row) := by
  unfold onlyFnZero
  split
  next hfn => exact hfn ▸ h
  · trivial

theorem rowMeets_onlyRadix {row : Format × Instr} (h : radixOk fn = true → RowMeets opc fn x (some row)) :
    RowMeets opc fn x (onlyRadix fn row) := by
  unfold onlyRadix
  split
  next hfn => exact h hfn
  · trivial

theorem rowMeets_map {α : Type} {code : Option α} {row : α → Format × Instr}
    (h : ∀ c, code = some c → RowMeets opc fn x (some (row c))) : RowMeets opc fn x (code.map row) := by
  cases code with
  | none => trivial
  | some c => exact h c rfl

theorem NarrowWidth.fn_of_ofFn {c : NarrowWidth} (h : NarrowWidth.ofFn fn = some c) : c.fn = fn := by
  unfold NarrowWidth.ofFn at h
  split at h <;> cases h <;> rfl

theorem HexOptions.fn_of_ofFn {o : HexOptions} (h : HexOptions.ofFn fn = some o) : o.fn = fn := by
  unfold HexOptions.ofFn at h
  split at h <;> cases h <;> rfl

end Rows

theorem opcodeRow_meets (opc fn : Nat) (x : Fields) : RowMeets opc fn x (opcodeRow opc fn x) := by
  unfold opcodeRow
  split
  any_goals exact rowMeets_onlyFnZero ⟨rfl, rfl, rfl, rfl, fun _ => rfl⟩
  · -- NARROW
    refine rowMeets_map fun c hc => ?_
    obtain rfl := NarrowWidth.fn_of_ofFn hc
    exact ⟨rfl, rfl, rfl, rfl, fun _ => rfl⟩
  iterate 5 -- the operations with a relation or an overflow mode in `FN`
    · split
      on_goal -1 => trivial
      all_goals exact ⟨rfl, rfl, rfl, rfl, fun _ => rfl⟩
  · -- PARSER
    exact rowMeets_onlyRadix fun hr => ⟨rfl, hr, rfl, rfl, fun _ => rfl⟩
  · -- FMTHEX
    refine rowMeets_map fun o ho => ?_
    obtain rfl := HexOptions.fn_of_ofFn ho
    exact ⟨rfl, rfl, rfl, rfl, fun _ => rfl⟩
  · -- FMTR
    exact rowMeets_onlyRadix fun hr => ⟨rfl, hr, rfl, rfl, fun _ => rfl⟩
  · trivial

theorem rowSpec_of_opcodeRow {opc fn : Nat} {x : Fields} {f : Format} {i : Instr}
    (h : opcodeRow opc fn x = some (f, i)) : RowSpec opc fn x f i := by
  have := opcodeRow_meets opc fn x
  rwa [h] at this

/-- Settles O6: the words issued are those of the format of the row the decoder reads. -/
theorem encodeUndoesDecode : Obligations.EncodeUndoesDecode := by
  intro w lit i h
  obtain ⟨f, hrow, hunused, hcount⟩ := decode_eq_ok_iff.1 h
  have hspec := rowSpec_of_opcodeRow hrow
  have hfirst := Format.pack_fieldsOf hunused (lit.getD 0)
  have hsecond := Format.second_fieldsOf (hcount.trans hspec.length.symm)
  exact ⟨hspec.encode_eq.trans (Prod.ext hfirst hsecond), hspec.wellFormed⟩

/-- The decoder reads a row's command from its encoding. -/
theorem decode_encode_of_row {opc fn : Nat} {x : Fields} {f : Format} {i : Instr} (ho : opc < 256) (hf : fn < 256)
    (h : opcodeRow opc fn x = some (f, i)) : decode (encode i).1 (encode i).2 = .ok i := by
  have hspec := rowSpec_of_opcodeRow h
  rw [hspec.encode_eq]
  refine decode_eq_ok_iff.2 ⟨f, ?_, f.unusedZero_pack x ho hf, ?_⟩
  · rw [f.opcField_pack x ho hf, f.fnField_pack x ho hf, hspec.fn_eq, ← hspec.mask_eq,
      f.mask_fieldsOf_pack x ho hf, hspec.mask_eq, h]
  · rw [hspec.length, isTwoWords, f.opcField_pack x ho hf]

theorem lt_of_radixOk {b : Nat} (h : radixOk b = true) : b < 256 :=
  Nat.lt_of_le_of_lt ((radixOk_iff b).1 h).2 (by decide)

/-- Every well-formed command has its row in the opcode map. -/
theorem exists_opcodeRow (i : Instr) (hi : i.wellFormed = true) :
    ∃ fn x f, fn < 256 ∧ opcodeRow (Laws.OpcodeField.opcodeOf i) fn x = some (f, i) := by
  cases i with
  | nop | clrf => exact ⟨0, .zero, .n, by decide, rfl⟩
  | ldmax | rdf => exact ⟨0, { Fields.zero with rd := _ }, .d, by decide, rfl⟩
  | mov | isz | bitNot | clz | ctz | bits | f2u | u2f | isqrt =>
    exact ⟨0, { Fields.zero with rd := _, rs1 := _ }, .r2, by decide, rfl⟩
  | narrow rd rs1 c =>
    exact ⟨c.fn, { Fields.zero with rd := rd, rs1 := rs1 }, .r2f, c.fn_lt,
      by simp [opcodeRow, Laws.OpcodeField.opcodeOf]⟩
  | cmpEq | addW | subW | mulW | powW | div | rem | shl | shr | rol | ror | bitAnd | bitOr | bitXor =>
    exact ⟨0, { Fields.zero with rd := _, rs1 := _, rs2 := _ }, .r3, by decide, rfl⟩
  | cmpNe | addO | subO | mulO | powO =>
    exact ⟨1, { Fields.zero with rd := _, rs1 := _, rs2 := _ }, .r3, by decide, rfl⟩
  | cmpLt | addC | subC | mulC => exact ⟨2, { Fields.zero with rd := _, rs1 := _, rs2 := _ }, .r3, by decide, rfl⟩
  | cmpLe | addS | subS | mulS => exact ⟨3, { Fields.zero with rd := _, rs1 := _, rs2 := _ }, .r3, by decide, rfl⟩
  | cmpGt => exact ⟨4, { Fields.zero with rd := _, rs1 := _, rs2 := _ }, .r3, by decide, rfl⟩
  | cmpGe => exact ⟨5, { Fields.zero with rd := _, rs1 := _, rs2 := _ }, .r3, by decide, rfl⟩
  | mulWide | divmod =>
    exact ⟨0, { Fields.zero with rd := _, rs1 := _, rs2 := _, rd2 := _ }, .r4, by decide, rfl⟩
  | getl | shli | shri | roli | rori | bit =>
    exact ⟨0, { Fields.zero with rd := _, rs1 := _, imm := _ }, .ri, by decide, rfl⟩
  | ldi => exact ⟨0, { Fields.zero with rd := _, imm := _ }, .i, by decide, rfl⟩
  | ldl => exact ⟨0, { Fields.zero with rd := _, rs1 := _, imm := _, lit := _ }, .l, by decide, rfl⟩
  | ldbe | ldle | parsedec | parsehex =>
    exact ⟨0, { Fields.zero with rd := _, addr := _, len := _ }, .md, by decide, rfl⟩
  | parser rd addr len radix =>
    exact ⟨radix, { Fields.zero with rd := rd, addr := addr, len := len }, .mdf, lt_of_radixOk hi, if_pos hi⟩
  | stbe | stle => exact ⟨0, { Fields.zero with rs1 := _, addr := _ }, .ms, by decide, rfl⟩
  | fmtdec => exact ⟨0, { Fields.zero with rd := _, rs1 := _, addr := _ }, .mf, by decide, rfl⟩
  | fmthex rd rs1 addr o =>
    exact ⟨o.fn, { Fields.zero with rd := rd, rs1 := rs1, addr := addr }, .mff, o.fn_lt,
      by simp [opcodeRow, Laws.OpcodeField.opcodeOf]⟩
  | fmtr rd rs1 addr radix =>
    exact ⟨radix, { Fields.zero with rd := rd, rs1 := rs1, addr := addr }, .mff, lt_of_radixOk hi, if_pos hi⟩

/-- Settles O5: every well-formed command has a row, and a row's words are read back. -/
theorem decodeUndoesEncode : Obligations.DecodeUndoesEncode := by
  intro i hi
  obtain ⟨fn, x, f, hfn, hrow⟩ := exists_opcodeRow i hi
  exact decode_encode_of_row (Laws.OpcodeField.opcodeOf_lt i) hfn hrow

end Sys2Proof

namespace Sys2Proof.Machine

/-- Words that encode a well-formed command are that command's words: the decoder reads it back. -/
theorem commandWords_of_encode {i : Instr} {w : Word} {lit : Option Word} (hi : i.wellFormed = true)
    (he : encode i = (w, lit)) : CommandWords i w lit := by
  have hdecode := decodeUndoesEncode i hi
  rw [he] at hdecode
  exact ⟨hdecode, he⟩

/-- Settles O4: the encoder gives these words. -/
theorem workedEncodingsDecode : Obligations.WorkedEncodingsDecode :=
  ⟨commandWords_of_encode rfl rfl, commandWords_of_encode rfl rfl, commandWords_of_encode rfl rfl,
    commandWords_of_encode rfl rfl⟩

/-- In RUNNING, illegal words make the engine take the fault and reply its cause (R390, R401). -/
theorem issue_of_illegal {s : State} {w : Word} {lit : Option Word} {e : Illegal} (hrun : s.fault = none)
    (he : decode w lit = .error e) :
    issue w lit s = .next ((s.takeFault .illegalCommand (w, lit)).answer (.faulted .illegalCommand)) := by
  simp only [issue, State.stopped, hrun, execute, he]
  rfl

/-- Settles O3: the whole effect of fault entry is `faultEntered_takeFault`. -/
theorem illegalWordsRaiseIllegalCommand : Obligations.IllegalWordsRaiseIllegalCommand := by
  intro s w lit rest e hs hrun he
  obtain ⟨hfault, hcmd, hlit, hregs, hflags, hbuffer, hcfg, hhost, -⟩ :=
    faultEntered_takeFault (s.setHost rest) .illegalCommand (w, lit)
  have hissue := issue_of_illegal (s := s.setHost rest) hrun he
  exact ⟨_, (step_of_host hs).trans hissue, hfault, hcmd, hlit, hregs, hflags, hbuffer, hcfg, hhost, rfl⟩

end Sys2Proof.Machine

namespace Sys2Proof.Machine

/-! ### The limbs of a value (R9, R10) -/

theorem two_pow_limb_succ (n : Nat) : 2 ^ (64 * (n + 1)) = 2 ^ (64 * n) * 2 ^ 64 := by
  rw [Nat.mul_succ, Nat.pow_add]

theorem limb_lt (x i : Nat) : limb x i < 2 ^ 64 := Nat.mod_lt _ (Nat.two_pow_pos 64)

/-- Limb `n` continues the value of the limbs below it. -/
theorem mod_two_pow_limb_succ (x n : Nat) :
    x % 2 ^ (64 * (n + 1)) = x % 2 ^ (64 * n) + 2 ^ (64 * n) * limb x n := by
  rw [two_pow_limb_succ, Nat.mod_mul]
  rfl

/-- A limb below `n` depends on the value of the `n` low limbs alone. -/
theorem limb_mod_of_lt {k n : Nat} (h : k < n) (x : Nat) : limb (x % 2 ^ (64 * n)) k = limb x k := by
  have hsplit : 2 ^ (64 * n) = 2 ^ (64 * k) * 2 ^ (64 * (n - k)) := by
    rw [← Nat.pow_add]
    congr 1
    omega
  rw [limb, hsplit, Nat.mod_mul_right_div_self, Nat.mod_mod_of_dvd _ (Nat.pow_dvd_pow 2 (by omega)), limb]

/-- A limb from `n` on depends on the value above the `n` low limbs alone. -/
theorem limb_div_of_le {k n : Nat} (h : n ≤ k) (x : Nat) : limb (x / 2 ^ (64 * n)) (k - n) = limb x k := by
  rw [limb, limb, Nat.div_div_eq_div_mul, ← Nat.pow_add, ← Nat.mul_add, Nat.add_sub_cancel' h]

/-- The low limbs are all zero exactly when their value is. -/
theorem mod_eq_zero_iff_limbs (x n : Nat) : x % 2 ^ (64 * n) = 0 ↔ ∀ k, k < n → limb x k = 0 := by
  induction n with
  | zero => simp [Nat.mod_one]
  | succ n ih =>
    rw [mod_two_pow_limb_succ, Nat.add_eq_zero_iff, ih, Nat.mul_eq_zero, Nat.forall_lt_succ_right]
    simp

theorem State.val_eq_zero_iff_limbs (s : State) (r : Reg) :
    s.val r = 0 ↔ ∀ k, k < s.cfg.limbs → limb (s.val r) k = 0 := by
  rw [← mod_eq_zero_iff_limbs, Nat.mod_eq_of_lt (s.val_lt r)]

/-! ### A limb replaced (R103) -/

theorem setLimb_mod (x i l : Nat) : setLimb x i l % 2 ^ (64 * i) = x % 2 ^ (64 * i) := by
  rw [setLimb, two_pow_limb_succ, Nat.mul_assoc, Nat.add_assoc, ← Nat.mul_add, Nat.add_mul_mod_self_left, Nat.mod_mod]

theorem setLimb_div (x i l : Nat) :
    setLimb x i l / 2 ^ (64 * i) = l + 2 ^ 64 * (x / 2 ^ (64 * (i + 1))) := by
  have hpos := Nat.two_pow_pos (64 * i)
  rw [setLimb, two_pow_limb_succ, Nat.mul_assoc, Nat.add_assoc, ← Nat.mul_add, Nat.add_mul_div_left _ _ hpos,
    Nat.div_eq_of_lt (Nat.mod_lt _ hpos), Nat.zero_add]

theorem setLimb_div_succ (x i : Nat) {l : Nat} (hl : l < 2 ^ 64) :
    setLimb x i l / 2 ^ (64 * (i + 1)) = x / 2 ^ (64 * (i + 1)) := by
  rw [two_pow_limb_succ, ← Nat.div_div_eq_div_mul, setLimb_div, Nat.add_mul_div_left _ _ (Nat.two_pow_pos 64),
    Nat.div_eq_of_lt hl, Nat.zero_add, two_pow_limb_succ]

/-- The limb replaced is the new one, the limbs below and above it stay. -/
theorem limb_setLimb (x i k : Nat) {l : Nat} (hl : l < 2 ^ 64) :
    limb (setLimb x i l) k = if k = i then l else limb x k := by
  obtain hlt | rfl | hgt := Nat.lt_trichotomy k i
  · rw [if_neg hlt.ne, ← limb_mod_of_lt hlt, setLimb_mod, limb_mod_of_lt hlt]
  · rw [if_pos rfl, limb, setLimb_div, Nat.add_mul_mod_self_left, Nat.mod_eq_of_lt hl]
  · rw [if_neg hgt.ne', ← limb_div_of_le hgt, setLimb_div_succ x i hl, limb_div_of_le hgt]

/-! ### The comparator (R109) -/

theorem compareMostFirst_cons (a b : Word) (as bs : List Word) :
    compareMostFirst (a :: as) (b :: bs) = (compare a.toNat b.toNat).then (compareMostFirst as bs) := by
  rw [compareMostFirst, Nat.compare_eq_ite_lt]
  split
  · rfl
  · split <;> rfl

theorem limbsOf_succ (n x : Nat) : limbsOf (n + 1) x = limbsOf n x ++ [BitVec.ofNat 64 (limb x n)] := by
  simp [limbsOf, List.range_succ]

/-- The comparator looks at the top limbs first. -/
theorem compareLimbs_limbsOf_succ (n x y : Nat) :
    compareLimbs (limbsOf (n + 1) x) (limbsOf (n + 1) y) =
      (compare (limb x n) (limb y n)).then (compareLimbs (limbsOf n x) (limbsOf n y)) := by
  simp only [compareLimbs, limbsOf_succ, List.reverse_append, List.reverse_singleton, List.singleton_append,
    compareMostFirst_cons, BitVec.toNat_ofNat, Nat.mod_eq_of_lt (limb_lt _ _)]

/-- Of two numbers in radix `p` the top digits decide, and the rest where they are equal. -/
theorem compare_add_mul {p a b : Nat} (ha : a < p) (hb : b < p) (l m : Nat) :
    compare (a + p * l) (b + p * m) = (compare l m).then (compare a b) := by
  obtain hlt | rfl | hgt := Nat.lt_trichotomy l m
  · have : a + p * l < b + p * m := by nlinarith
    rw [Nat.compare_eq_lt.2 this, Nat.compare_eq_lt.2 hlt]
    rfl
  · simp only [Nat.compare_eq_ite_lt, Nat.add_lt_add_iff_right, lt_irrefl, if_false]
    rfl
  · have : b + p * m < a + p * l := by nlinarith
    rw [Nat.compare_eq_gt.2 this, Nat.compare_eq_gt.2 hgt]
    rfl

/-- The comparator on the `n` low limbs compares the values of these limbs. -/
theorem compareLimbs_limbsOf (n x y : Nat) :
    compareLimbs (limbsOf n x) (limbsOf n y) = compare (x % 2 ^ (64 * n)) (y % 2 ^ (64 * n)) := by
  induction n with
  | zero => simp [compareLimbs, limbsOf, compareMostFirst, Nat.mod_one]
  | succ n ih =>
    have hpos := Nat.two_pow_pos (64 * n)
    rw [compareLimbs_limbsOf_succ, ih, mod_two_pow_limb_succ, mod_two_pow_limb_succ,
      compare_add_mul (Nat.mod_lt _ hpos) (Nat.mod_lt _ hpos)]

/-- Settles O39: all limbs of a register make its value. -/
theorem limbComparatorIsTheOrderOfTheValues : Obligations.LimbComparatorIsTheOrderOfTheValues := by
  intro s rs1 rs2
  rw [compareLimbs_limbsOf, Nat.mod_eq_of_lt (s.val_lt rs1), Nat.mod_eq_of_lt (s.val_lt rs2)]

end Sys2Proof.Machine

namespace Sys2Proof.Machine

/-! ### The limb store (R100 to R108) -/

/-- A register of at least one limb takes a 64-bit number unchanged. -/
theorem mod_two_pow_width_of_lt {c : Config} (hc : 1 ≤ c.limbs) {x : Nat} (hx : x < 2 ^ 64) : x % 2 ^ c.width = x := by
  refine Nat.mod_eq_of_lt (hx.trans_le (Nat.pow_le_pow_right Nat.zero_lt_two ?_))
  rw [Config.width]
  omega

/-- Settles O8: each of the three writes is one register write of a value that fits. -/
theorem movesAndConstantsWriteTheirValue : Obligations.MovesAndConstantsWriteTheirValue := by
  intro s rd rs1 imm hlegal
  have hval := Nat.mod_eq_of_lt (s.val_lt rs1)
  have himm := mod_two_pow_width_of_lt hlegal.1 (imm.isLt.trans (by decide))
  have hmax : s.maxVal % 2 ^ s.cfg.width = s.maxVal :=
    Nat.mod_eq_of_lt (Nat.sub_one_lt (Nat.two_pow_pos s.cfg.width).ne')
  exact ⟨⟨commandWords_of_encode rfl rfl, s, rfl, SameRegs.refl s, rfl, SameBuffer.refl s, SameControl.refl s⟩,
    ⟨commandWords_of_encode rfl rfl, _, rfl, writesReg_setReg s rd hval⟩,
    ⟨commandWords_of_encode rfl rfl, _, rfl, writesReg_setReg s rd himm⟩,
    ⟨commandWords_of_encode rfl rfl, _, rfl, writesReg_setReg s rd hmax⟩⟩

/-- Settles O9: both commands check the index first; below `N` they write by `limb_setLimb` and `limb_lt`. -/
theorem limbCommandsReplaceAndReadOneLimb : Obligations.LimbCommandsReplaceAndReadOneLimb := by
  intro s rd rs1 imm lit
  refine ⟨commandWords_of_encode rfl rfl, commandWords_of_encode rfl rfl, fun hlt => ?_, fun hge => ?_⟩
  · have hindex : ¬ s.cfg.limbs ≤ imm.toNat := Nat.not_le.2 hlt
    refine ⟨⟨_, _, if_neg hindex, writesReg_setReg s rd rfl, fun k hk => ?_⟩, _, if_neg hindex, writesReg_setReg s rd ?_⟩
    · exact (limb_mod_of_lt hk _).trans (limb_setLimb (s.val rs1) imm.toNat k lit.isLt)
    · exact mod_two_pow_width_of_lt (Nat.one_le_of_lt hlt) (limb_lt (s.val rs1) imm.toNat)
  · exact ⟨⟨_, if_pos hge, faultEntered_takeFault ..⟩, _, if_pos hge, faultEntered_takeFault ..⟩

/-- NARROW writes the low bits, which fit, and OV; a value that is no wider than the target stays (R106). -/
theorem exec_narrow_spec (s : State) (rd rs1 : Reg) (c : NarrowWidth) :
    ∃ t, exec (.narrow rd rs1 c) s = .next t ∧
      WritesRegAndOv s t rd (s.val rs1 % 2 ^ narrowBits c) (decide (2 ^ narrowBits c ≤ s.val rs1)) ∧
      (s.cfg.width ≤ narrowBits c → t.val rd = s.val rs1 ∧ t.flags.ov = false) := by
  obtain ⟨t, hnext, hwrites⟩ := writeOverflowing_spec rd (s.val rs1 % 2 ^ narrowBits c)
    (ovfNarrow (narrowBits c) (s.val rs1)) s
  rw [Nat.mod_eq_of_lt ((Nat.mod_le _ _).trans_lt (s.val_lt rs1))] at hwrites
  refine ⟨t, hnext, hwrites, fun hwidth => ?_⟩
  have hfits : s.val rs1 < 2 ^ narrowBits c := (s.val_lt rs1).trans_le (Nat.pow_le_pow_right Nat.zero_lt_two hwidth)
  obtain ⟨⟨hval, -⟩, hov, -⟩ := hwrites
  exact ⟨hval.trans (Nat.mod_eq_of_lt hfits), hov.trans (decide_eq_false (Nat.not_le.2 hfits))⟩

/-- Settles O10: the five triples are the width codes with their `FN` and their number of bits. -/
theorem narrowKeepsLowBitsAndReportsLoss : Obligations.NarrowKeepsLowBitsAndReportsLoss := by
  intro s rd rs1 c fn n hmem
  have hcode : c.fn = fn ∧ narrowBits c = n := by
    simp only [List.mem_cons, Prod.mk.injEq, List.not_mem_nil, or_false] at hmem
    obtain ⟨rfl, rfl, rfl⟩ | ⟨rfl, rfl, rfl⟩ | ⟨rfl, rfl, rfl⟩ | ⟨rfl, rfl, rfl⟩ | ⟨rfl, rfl, rfl⟩ := hmem <;>
      exact ⟨rfl, rfl⟩
  obtain ⟨rfl, rfl⟩ := hcode
  exact ⟨commandWords_of_encode rfl rfl, exec_narrow_spec s rd rs1 c⟩

/-- FLAGS as a number: `OV + 2*PERR` (R25). -/
theorem Flags.bits_toNat (f : Flags) : f.bits.toNat = (if f.ov then 1 else 0) + 2 * f.perr.code := by
  obtain ⟨ov, perr⟩ := f
  cases ov <;> cases perr <;> rfl

/-- Settles O11: RDF writes the eight bits of FLAGS, which fit; CLRF sets both fields. -/
theorem flagCommandsReadAndClearFlags : Obligations.FlagCommandsReadAndClearFlags := by
  intro s rd hlegal
  have hbits := mod_two_pow_width_of_lt hlegal.1 (s.flags.bits.isLt.trans (by decide))
  exact ⟨⟨commandWords_of_encode rfl rfl, _, rfl, writesReg_setReg s rd (hbits.trans s.flags.bits_toNat)⟩,
    commandWords_of_encode rfl rfl, _, rfl, SameRegs.refl s, rfl, SameBuffer.refl s, SameControl.refl s⟩

/-! ### Comparisons (R110 to R116) -/

/-- On a register of at least one limb the truth of `p` is written as 1 or 0. -/
theorem writeTruth_of_iff {s : State} (hc : 1 ≤ s.cfg.limbs) (rd : Reg) {b : Bool} {p : Prop} [Decidable p]
    (h : b = true ↔ p) : ∃ t, writeTruth rd b s = .next t ∧ WritesReg s t rd (if p then 1 else 0) := by
  obtain ⟨t, hnext, hwrites⟩ := writeTruth_spec rd b s
  have htruth : b.toNat = if p then 1 else 0 := by simp only [← h, Bool.toNat, Bool.cond_eq_ite]
  rw [mod_two_pow_width_of_lt hc (b.toNat_lt.trans (by decide)), htruth] at hwrites
  exact ⟨t, hnext, hwrites⟩

/-- Settles O12: each command writes the truth of its relation; ISZ's is that no limb is set. -/
theorem comparisonsWriteTheTruthOfTheirRelation : Obligations.ComparisonsWriteTheTruthOfTheirRelation := by
  intro s rd rs1 rs2 hlegal
  have hne := writeTruth_of_iff hlegal.1 rd (bne_iff_ne (a := s.val rs1) (b := s.val rs2))
  simp only [ne_eq, ite_not] at hne
  exact ⟨⟨commandWords_of_encode rfl rfl, writeTruth_of_iff hlegal.1 rd beq_iff_eq⟩,
    ⟨commandWords_of_encode rfl rfl, hne⟩,
    ⟨commandWords_of_encode rfl rfl, writeTruth_of_iff hlegal.1 rd decide_eq_true_iff⟩,
    ⟨commandWords_of_encode rfl rfl, writeTruth_of_iff hlegal.1 rd decide_eq_true_iff⟩,
    ⟨commandWords_of_encode rfl rfl, writeTruth_of_iff hlegal.1 rd decide_eq_true_iff⟩,
    ⟨commandWords_of_encode rfl rfl, writeTruth_of_iff hlegal.1 rd decide_eq_true_iff⟩,
    commandWords_of_encode rfl rfl, writeTruth_of_iff hlegal.1 rd (beq_iff_eq.trans (s.val_eq_zero_iff_limbs rs1))⟩

end Sys2Proof.Machine

namespace Sys2Proof.Machine

/-! ### The adder and subtractor in their four modes (R142 to R149) -/

section Modes
variable {s : State} {p : Prop} [Decidable p] {e : Nat}

/-- Mode `.C` where overflow is `p` and the result fits unless it overflows. -/
theorem writeChecked_decide (rd : Reg) (hfits : ¬ p → e < 2 ^ s.cfg.width) :
    ∃ t, writeChecked rd e (decide p) s = .next t ∧
      if p then WritesOv s t true else WritesRegAndOv s t rd e false := by
  obtain ⟨t, hnext, hwrites⟩ := writeChecked_spec rd e (decide p) s
  refine ⟨t, hnext, ?_⟩
  by_cases hp : p
  · simpa [hp] using hwrites
  · simpa [hp, Nat.mod_eq_of_lt (hfits hp)] using hwrites

/-- Mode `.S` where overflow is `p`: the bound fits, and so does the result unless it overflows. -/
theorem writeSaturating_decide (rd : Reg) {sat : Nat} (hsat : sat < 2 ^ s.cfg.width)
    (hfits : ¬ p → e < 2 ^ s.cfg.width) :
    ∃ t, writeSaturating rd e (decide p) sat s = .next t ∧ WritesReg s t rd (if p then sat else e) := by
  refine ⟨_, rfl, writesReg_setReg s rd ?_⟩
  by_cases hp : p
  · simp [hp, Nat.mod_eq_of_lt hsat]
  · simp [hp, Nat.mod_eq_of_lt (hfits hp)]

end Modes

theorem State.maxVal_lt (s : State) : s.maxVal < 2 ^ s.cfg.width := Nat.lt_of_succ_le s.maxVal_succ.le

/-- Settles O13: each mode writes the sum, which fits exactly where it does not overflow. -/
theorem additionsInTheirFourModes : Obligations.AdditionsInTheirFourModes := by
  rintro s rd rs1 rs2 _ _ rfl rfl
  exact ⟨⟨commandWords_of_encode rfl rfl, writeWrapping_spec ..⟩,
    ⟨commandWords_of_encode rfl rfl, writeOverflowing_spec ..⟩,
    ⟨commandWords_of_encode rfl rfl, writeChecked_decide rd Nat.lt_of_not_le⟩,
    commandWords_of_encode rfl rfl, writeSaturating_decide rd s.maxVal_lt Nat.lt_of_not_le⟩

/-- `wrapSub` is the difference in the integers modulo `2^W` (R146). -/
theorem wrapSub_eq_toNat_emod {w b : Nat} (hb : b < 2 ^ w) (a : Nat) :
    wrapSub w a b = (((a : Int) - b) % 2 ^ w).toNat := by
  have hshift : ((a + 2 ^ w - b : Nat) : Int) = (a - b) + 2 ^ w := by
    rw [Nat.cast_sub (by omega)]
    push_cast
    ring
  have hcast : ((wrapSub w a b : Nat) : Int) = ((a : Int) - b) % 2 ^ w := by
    rw [wrapSub, Int.natCast_emod, hshift, Nat.cast_pow, Nat.cast_ofNat, Int.add_emod_right]
  rw [← hcast, Int.toNat_natCast]

theorem wrapSub_mod (w a b : Nat) : wrapSub w a b % 2 ^ w = wrapSub w a b := Nat.mod_mod _ _

/-- Settles O14: the wrapped difference is the one in the integers, and a difference that does not underflow fits. -/
theorem subtractionsInTheirFourModes : Obligations.SubtractionsInTheirFourModes := by
  rintro s rd rs1 rs2 _ _ rfl rfl
  have hfits : s.val rs1 - s.val rs2 < 2 ^ s.cfg.width := (Nat.sub_le _ _).trans_lt (s.val_lt rs1)
  rw [← wrapSub_eq_toNat_emod (s.val_lt rs2), ← wrapSub_mod]
  exact ⟨⟨commandWords_of_encode rfl rfl, writeWrapping_spec ..⟩,
    ⟨commandWords_of_encode rfl rfl, writeOverflowing_spec ..⟩,
    ⟨commandWords_of_encode rfl rfl, writeChecked_decide rd fun _ => hfits⟩,
    commandWords_of_encode rfl rfl, writeSaturating_decide rd (Nat.two_pow_pos _) fun _ => hfits⟩

/-! ### The ripple chains over the limbs (R140, R141) -/

/-- The lowest limb, and the limbs of the value above it. -/
theorem limbsOf_succ_eq_cons (n x : Nat) : limbsOf (n + 1) x = BitVec.ofNat 64 x :: limbsOf n (x / 2 ^ 64) := by
  have hlow : BitVec.ofNat 64 (limb x 0) = BitVec.ofNat 64 x := BitVec.eq_of_toNat_eq (by simp [limb])
  have hhigh (i : Nat) : limb x (i + 1) = limb (x / 2 ^ 64) i := (limb_div_of_le (Nat.le_add_left 1 i) x).symm
  simp only [limbsOf, List.range_succ_eq_map, List.map_cons, List.map_map, Function.comp_def, hlow, Nat.succ_eq_add_one,
    hhigh]

/-- The limbs of a value are those of its low bits (R9). -/
theorem limbsOf_mod (n x : Nat) : limbsOf n (x % 2 ^ (64 * n)) = limbsOf n x :=
  List.map_congr_left fun i hi => by rw [limb_mod_of_lt (List.mem_range.1 hi)]

/-- From carry `c` the chain gives the limbs of `x + y + c`, and carries out where that has more than `n` limbs
(R140). -/
theorem rippleAdd_limbsOf {n x y c : Nat} (hx : x < 2 ^ (64 * n)) (hy : y < 2 ^ (64 * n)) (hc : c ≤ 1) :
    rippleAdd c (limbsOf n x) (limbsOf n y) =
      (limbsOf n (x + y + c), if 2 ^ (64 * n) ≤ x + y + c then 1 else 0) := by
  induction n generalizing x y c with
  | zero =>
    obtain rfl : x = 0 := by simpa using hx
    obtain rfl : y = 0 := by simpa using hy
    obtain rfl | rfl := Nat.le_one_iff_eq_zero_or_eq_one.1 hc <;> rfl
  | succ n ih =>
    rw [two_pow_limb_succ] at hx hy ⊢
    have hcarry : (x % 2 ^ 64 + y % 2 ^ 64 + c) / 2 ^ 64 ≤ 1 := by omega
    have hhead : BitVec.ofNat 64 (x % 2 ^ 64 + y % 2 ^ 64 + c) = BitVec.ofNat 64 (x + y + c) := by bv_omega
    have htail : x / 2 ^ 64 + y / 2 ^ 64 + (x % 2 ^ 64 + y % 2 ^ 64 + c) / 2 ^ 64 = (x + y + c) / 2 ^ 64 := by omega
    have hout : 2 ^ (64 * n) ≤ (x + y + c) / 2 ^ 64 ↔ 2 ^ (64 * n) * 2 ^ 64 ≤ x + y + c :=
      Nat.le_div_iff_mul_le (Nat.two_pow_pos 64)
    simp only [limbsOf_succ_eq_cons, rippleAdd, BitVec.toNat_ofNat, ih (x := x / 2 ^ 64) (y := y / 2 ^ 64)
      (Nat.div_lt_of_lt_mul (by omega)) (Nat.div_lt_of_lt_mul (by omega)) hcarry, htail, hout, hhead]

/-- From borrow `c` the chain gives the limbs of `x - y - c` modulo `2^(64*n)`, and borrows where that is below 0
(R141). -/
theorem rippleSub_limbsOf {n x y c : Nat} (hx : x < 2 ^ (64 * n)) (hy : y < 2 ^ (64 * n)) (hc : c ≤ 1) :
    rippleSub c (limbsOf n x) (limbsOf n y) =
      (limbsOf n (x + 2 ^ (64 * n) - y - c), if x < y + c then 1 else 0) := by
  induction n generalizing x y c with
  | zero =>
    obtain rfl : x = 0 := by simpa using hx
    obtain rfl : y = 0 := by simpa using hy
    obtain rfl | rfl := Nat.le_one_iff_eq_zero_or_eq_one.1 hc <;> rfl
  | succ n ih =>
    rw [two_pow_limb_succ] at hx hy ⊢
    have hborrow : (if x % 2 ^ 64 < y % 2 ^ 64 + c then 1 else 0) ≤ 1 := by split <;> omega
    have hhead : BitVec.ofNat 64 (x % 2 ^ 64 + 2 ^ 64 - y % 2 ^ 64 - c) =
        BitVec.ofNat 64 (x + 2 ^ (64 * n) * 2 ^ 64 - y - c) := by
      bv_omega
    have htail : x / 2 ^ 64 + 2 ^ (64 * n) - y / 2 ^ 64 - (if x % 2 ^ 64 < y % 2 ^ 64 + c then 1 else 0) =
        (x + 2 ^ (64 * n) * 2 ^ 64 - y - c) / 2 ^ 64 := by
      split <;> omega
    have hout : x / 2 ^ 64 < y / 2 ^ 64 + (if x % 2 ^ 64 < y % 2 ^ 64 + c then 1 else 0) ↔ x < y + c := by
      split <;> omega
    simp only [limbsOf_succ_eq_cons, rippleSub, BitVec.toNat_ofNat, ih (x := x / 2 ^ 64) (y := y / 2 ^ 64)
      (Nat.div_lt_of_lt_mul (by omega)) (Nat.div_lt_of_lt_mul (by omega)) hborrow, htail, hout, hhead]

/-- Mode `.O` where overflow is `p`: the limbs of the result, and OV as a carry. -/
theorem writeOverflowing_decide_limbs (rd : Reg) (e : Nat) (p : Prop) [Decidable p] (s : State) :
    ∃ t, writeOverflowing rd e (decide p) s = .next t ∧ limbsOf s.cfg.limbs (t.val rd) = limbsOf s.cfg.limbs e ∧
      (if p then 1 else 0) = t.flags.ov.toNat := by
  obtain ⟨t, hnext, ⟨hval, -⟩, hov, -⟩ := writeOverflowing_spec rd e (decide p) s
  exact ⟨t, hnext, by rw [hval, limbsOf_mod], by rw [hov, Bool.toNat, Bool.cond_decide]⟩

/-- Settles O36: from carry 0 the chain gives the limbs of the sum, and its carry is the overflow. -/
theorem rippleCarryAdderGivesAddO : Obligations.RippleCarryAdderGivesAddO := by
  intro s rd rs1 rs2 ls c hchain
  rw [rippleAdd_limbsOf (s.val_lt rs1) (s.val_lt rs2) (Nat.zero_le 1)] at hchain
  obtain ⟨rfl, rfl⟩ := Prod.mk.inj hchain
  exact writeOverflowing_decide_limbs ..

/-- Settles O37: from borrow 0 the chain gives the limbs of the difference, and its borrow is the underflow. -/
theorem rippleBorrowSubtractorGivesSubO : Obligations.RippleBorrowSubtractorGivesSubO := by
  intro s rd rs1 rs2 ls c hchain
  rw [rippleSub_limbsOf (s.val_lt rs1) (s.val_lt rs2) (Nat.zero_le 1)] at hchain
  obtain ⟨rfl, rfl⟩ := Prod.mk.inj hchain
  rw [← limbsOf_mod]
  exact writeOverflowing_decide_limbs ..

end Sys2Proof.Machine

namespace Sys2Proof.Machine

/-! ### The multiplier (R172 to R177) -/

/-- Settles O15: each mode writes the product, which fits exactly where it does not overflow. -/
theorem multiplicationsInTheirFourModes : Obligations.MultiplicationsInTheirFourModes := by
  rintro s rd rs1 rs2 _ _ rfl rfl
  exact ⟨⟨commandWords_of_encode rfl rfl, writeWrapping_spec ..⟩,
    ⟨commandWords_of_encode rfl rfl, writeOverflowing_spec ..⟩,
    ⟨commandWords_of_encode rfl rfl, writeChecked_decide rd Nat.lt_of_not_le⟩,
    commandWords_of_encode rfl rfl, writeSaturating_decide rd s.maxVal_lt Nat.lt_of_not_le⟩

/-- The high half of a product of two register values fits a register (R171). -/
theorem State.mul_val_div_lt (s : State) (r r2 : Reg) : s.val r * s.val r2 / 2 ^ s.cfg.width < 2 ^ s.cfg.width :=
  Nat.div_lt_of_lt_mul (Nat.mul_lt_mul'' (s.val_lt r) (s.val_lt r2))

/-- MULW with two destinations writes the low and the high half of the product (R177). -/
theorem exec_mulWide_spec (s : State) {rd rd2 : Reg} (hne : rd ≠ rd2) (rs1 rs2 : Reg) :
    ∃ t, exec (.mulWide rd rd2 rs1 rs2) s = .next t ∧
      WritesTwoRegs s t rd rd2 (s.val rs1 * s.val rs2 % 2 ^ s.cfg.width) (s.val rs1 * s.val rs2 / 2 ^ s.cfg.width) :=
  ⟨_, if_neg hne, writesTwoRegs_setReg s hne rfl (Nat.mod_eq_of_lt (s.mul_val_div_lt rs1 rs2))⟩

/-- Settles O16: the halves are remainder and quotient by `2^W`; the check for one destination comes first. -/
theorem mulwGivesBothHalvesOfTheProduct : Obligations.MulwGivesBothHalvesOfTheProduct := by
  intro s rd rd2 rs1 rs2
  refine ⟨commandWords_of_encode rfl rfl, fun hne => ?_, fun heq => ⟨_, if_pos heq, faultEntered_takeFault ..⟩⟩
  obtain ⟨t, hnext, hwrites⟩ := exec_mulWide_spec s hne rs1 rs2
  exact ⟨t, _, _, hnext, hwrites, Nat.mod_lt _ (Nat.two_pow_pos _), Nat.mod_add_div _ _⟩

/-! ### The power unit (R178 to R180) -/

/-- The bounded overflow test decides whether the true power fits: from base 2 on, an exponent of at least `W` is
enough for it to overflow (R178). -/
theorem ovfPow_eq_decide {w : Nat} (hw : 0 < w) (x e : Nat) : ovfPow w x e = decide (2 ^ w ≤ x ^ e) := by
  rw [ovfPow, Bool.eq_iff_iff]
  simp only [Bool.and_eq_true, Bool.or_eq_true, decide_eq_true_eq]
  constructor
  · rintro ⟨hx, hwe | hle⟩
    · calc 2 ^ w ≤ 2 ^ e := Nat.pow_le_pow_right Nat.zero_lt_two hwe
        _ ≤ x ^ e := Nat.pow_le_pow_left hx e
    · exact hle
  · intro hle
    refine ⟨Nat.lt_of_not_le fun hx : x ≤ 1 => ?_, .inr hle⟩
    have hpow : x ^ e ≤ 1 := pow_le_one' hx e
    exact absurd (hle.trans hpow) (Nat.not_le.2 (Nat.one_lt_two_pow hw.ne'))

/-- Repeated squaring over the `W` bits of the exponent register gives the power modulo `2^W` (R179). -/
theorem State.powMod_val_mod (s : State) (r r2 : Reg) :
    powMod (2 ^ s.cfg.width) s.cfg.width (s.val r) (s.val r2) % 2 ^ s.cfg.width =
      s.val r ^ s.val r2 % 2 ^ s.cfg.width := by
  rw [powMod_eq _ _ _ _ (s.val_lt r2), Nat.mod_mod]

/-- Settles O17: what is written is the true power modulo `2^W`, and OV is the comparison of the true power. -/
theorem powerIsTheTruePower : Obligations.PowerIsTheTruePower := by
  intro s rd rs1 rs2 hlegal
  have hwidth : 0 < s.cfg.width := Nat.mul_pos (by decide) hlegal.1
  simp only [ge_iff_le, ← ovfPow_eq_decide hwidth, ← s.powMod_val_mod]
  exact ⟨⟨commandWords_of_encode rfl rfl, writeWrapping_spec ..⟩,
    commandWords_of_encode rfl rfl, writeOverflowing_spec ..⟩

/-! ### The schoolbook multipliers over the limbs (R170, R171) -/

/-- The low limbs, then those of the value above them. -/
theorem limbsOf_append (m n x : Nat) : limbsOf m x ++ limbsOf n (x / 2 ^ (64 * m)) = limbsOf (m + n) x := by
  have hhigh (i : Nat) : limb (x / 2 ^ (64 * m)) i = limb x (m + i) := by
    rw [← limb_div_of_le (Nat.le_add_right m i), Nat.add_sub_cancel_left]
  simp only [limbsOf, List.range_add, List.map_append, List.map_map, Function.comp_def, hhigh]

theorem limbsOf_zero_right (n : Nat) : limbsOf n 0 = List.replicate n 0 := by
  simp [limbsOf, limb, List.map_const']

/-- A product by the low limb and the limbs above it of one factor. -/
theorem mul_eq_low_add_high (a y : Nat) : a * y = a * (y % 2 ^ 64) + 2 ^ 64 * (a * (y / 2 ^ 64)) := by
  conv_lhs => rw [← Nat.mod_add_div y (2 ^ 64)]
  ring

/-- The limb that a step of a row leaves is the lowest of the row's whole sum: the step sees all that counts there. -/
theorem rowStep_limb (a c r y : Nat) :
    BitVec.ofNat 64 (r % 2 ^ 64 + a * (y % 2 ^ 64) + c) = BitVec.ofNat 64 (r + a * y + c) := by
  rw [mul_eq_low_add_high a y]
  bv_omega

/-- The carry out of a step of a row continues the row's whole sum. -/
theorem rowStep_carry (a c r y : Nat) :
    r / 2 ^ 64 + a * (y / 2 ^ 64) + (r % 2 ^ 64 + a * (y % 2 ^ 64) + c) / 2 ^ 64 = (r + a * y + c) / 2 ^ 64 := by
  rw [mul_eq_low_add_high a y]
  omega

/-- The carry out of a step of a row is one limb (R171: `t < 2^128`). -/
theorem rowStep_carry_lt {a c : Nat} (ha : a < 2 ^ 64) (hc : c < 2 ^ 64) (r y : Nat) :
    (r % 2 ^ 64 + a * (y % 2 ^ 64) + c) / 2 ^ 64 < 2 ^ 64 := by
  have hprod : a * (y % 2 ^ 64) ≤ (2 ^ 64 - 1) * (2 ^ 64 - 1) := Nat.mul_le_mul (by omega) (by omega)
  omega

/-- The lowest limb of a product is settled by the row of the lowest limb of a factor. -/
theorem firstRow_limb (r x y : Nat) : BitVec.ofNat 64 (r + x % 2 ^ 64 * y) = BitVec.ofNat 64 (r + x * y) := by
  rw [Nat.mul_comm x y, Nat.mul_comm _ y, mul_eq_low_add_high y x]
  bv_omega

/-- Above its lowest limb a product is what the first row leaves there and the product by the factor's other limbs. -/
theorem firstRow_rest (r x y : Nat) :
    (r + x % 2 ^ 64 * y) / 2 ^ 64 + x / 2 ^ 64 * y = (r + x * y) / 2 ^ 64 := by
  rw [Nat.mul_comm x y, Nat.mul_comm _ y, Nat.mul_comm _ y, mul_eq_low_add_high y x]
  omega

/-- From carry `c` a narrow row gives the limbs of `r + a*y + c`, as many as there are result limbs (R170). -/
theorem mulRowNarrow_limbsOf {m n : Nat} (h : m ≤ n) (a c r y : Nat) :
    mulRowNarrow a c (limbsOf n y) (limbsOf m r) = limbsOf m (r + a * y + c) := by
  induction m generalizing n c r y with
  | zero => cases limbsOf n y <;> rfl
  | succ m ih =>
    obtain ⟨n, rfl⟩ := Nat.exists_eq_succ_of_ne_zero (Nat.ne_zero_of_lt h)
    simp only [Nat.succ_eq_add_one, limbsOf_succ_eq_cons, mulRowNarrow, BitVec.toNat_ofNat,
      ih (Nat.le_of_succ_le_succ h), rowStep_limb, rowStep_carry]

/-- The narrow multiplier's rows add the product to the result limbs, as many as there are (R170). -/
theorem mulNarrowFrom_limbsOf {m n : Nat} (h : m ≤ n) (r x y : Nat) :
    mulNarrowFrom (limbsOf n y) (limbsOf m x) (limbsOf m r) = limbsOf m (r + x * y) := by
  induction m generalizing r x with
  | zero => rfl
  | succ m ih =>
    rw [limbsOf_succ_eq_cons m x, mulNarrowFrom, BitVec.toNat_ofNat, mulRowNarrow_limbsOf h]
    simp only [limbsOf_succ_eq_cons, Nat.add_zero, ih (Nat.le_of_succ_le h), firstRow_limb, firstRow_rest]

/-- R170: the narrow multiplier gives the low limbs of the product. -/
theorem mulNarrow_limbsOf (n x y : Nat) : mulNarrow n (limbsOf n x) (limbsOf n y) = limbsOf n (x * y) := by
  rw [mulNarrow, ← limbsOf_zero_right, mulNarrowFrom_limbsOf le_rfl, Nat.zero_add]

/-- From carry `c` a widening row over the `k` limbs of `y` gives the limbs of `r + a*y + c`. The result limb that takes
the carry out of the row is free, since `r` has only `k` limbs (R171). -/
theorem mulRowWide_limbsOf {k l a c r y : Nat} (h : k < l) (ha : a < 2 ^ 64) (hc : c < 2 ^ 64) (hr : r < 2 ^ (64 * k))
    (hy : y < 2 ^ (64 * k)) : mulRowWide a c (limbsOf k y) (limbsOf l r) = limbsOf l (r + a * y + c) := by
  obtain ⟨l, rfl⟩ := Nat.exists_eq_succ_of_ne_zero (Nat.ne_zero_of_lt h)
  induction k generalizing l c r y with
  | zero =>
    obtain rfl : r = 0 := by simpa using hr
    obtain rfl : y = 0 := by simpa using hy
    have hnil : limbsOf 0 0 = [] := rfl
    simp only [Nat.succ_eq_add_one, Nat.zero_add, Nat.mul_zero, limbsOf_succ_eq_cons, hnil, mulRowWide, Nat.zero_div,
      Nat.div_eq_of_lt hc]
  | succ k ih =>
    obtain ⟨l, rfl⟩ := Nat.exists_eq_succ_of_ne_zero (Nat.ne_zero_of_lt (Nat.lt_of_succ_lt_succ h))
    rw [two_pow_limb_succ] at hr hy
    have hrest := ih (rowStep_carry_lt ha hc r y) (r := r / 2 ^ 64) (y := y / 2 ^ 64)
      (Nat.div_lt_of_lt_mul (by omega)) (Nat.div_lt_of_lt_mul (by omega)) l (Nat.lt_of_succ_lt_succ h)
    rw [limbsOf_succ_eq_cons, limbsOf_succ_eq_cons, mulRowWide, BitVec.toNat_ofNat, BitVec.toNat_ofNat, hrest,
      rowStep_limb, rowStep_carry, ← limbsOf_succ_eq_cons]

/-- The widening multiplier's rows add the product to the result limbs: each row leaves `n` limbs above its lowest
(R171). -/
theorem mulWideFrom_limbsOf {n m r x y : Nat} (hr : r < 2 ^ (64 * n)) (hx : x < 2 ^ (64 * m)) (hy : y < 2 ^ (64 * n)) :
    mulWideFrom (limbsOf n y) (limbsOf m x) (limbsOf (n + m) r) = limbsOf (n + m) (r + x * y) := by
  induction m generalizing r x with
  | zero =>
    obtain rfl : x = 0 := by simpa using hx
    rw [Nat.zero_mul]
    rfl
  | succ m ih =>
    rw [two_pow_limb_succ] at hx
    have hlow : x % 2 ^ 64 < 2 ^ 64 := Nat.mod_lt _ (Nat.two_pow_pos 64)
    have hfits : (r + x % 2 ^ 64 * y) / 2 ^ 64 < 2 ^ (64 * n) := by
      have hprod : x % 2 ^ 64 * y ≤ (2 ^ 64 - 1) * y := Nat.mul_le_mul_right y (by omega)
      exact Nat.div_lt_of_lt_mul (by omega)
    have hrest := ih hfits (x := x / 2 ^ 64) (Nat.div_lt_of_lt_mul (by omega))
    rw [limbsOf_succ_eq_cons m x, mulWideFrom, BitVec.toNat_ofNat,
      mulRowWide_limbsOf (show n < n + (m + 1) by omega) hlow (Nat.two_pow_pos 64) hr hy]
    simp only [← Nat.add_assoc, limbsOf_succ_eq_cons, Nat.add_zero, hrest, firstRow_limb, firstRow_rest]

/-- R171: the widening multiplier gives all limbs of the product of two values of `n` limbs. -/
theorem mulWideLimbs_limbsOf {n x y : Nat} (hx : x < 2 ^ (64 * n)) (hy : y < 2 ^ (64 * n)) :
    mulWideLimbs n (limbsOf n x) (limbsOf n y) = limbsOf (n + n) (x * y) := by
  rw [mulWideLimbs, ← limbsOf_zero_right, Nat.two_mul, mulWideFrom_limbsOf (Nat.two_pow_pos _) hx hy, Nat.zero_add]

/-- Settles O38: MUL.W writes the low limbs of the product, MULW all of them in two registers. -/
theorem schoolbookMultipliersGiveMulwAndMulW : Obligations.SchoolbookMultipliersGiveMulwAndMulW := by
  rintro s rd rd2 rs1 rs2 _ _ hne rfl rfl
  constructor
  · obtain ⟨t, hnext, ⟨hval, -⟩, -⟩ := writeWrapping_spec rd (s.val rs1 * s.val rs2) s
    exact ⟨t, hnext, by rw [hval, limbsOf_mod, mulNarrow_limbsOf]⟩
  · obtain ⟨t, hnext, hlow, hhigh, -⟩ := exec_mulWide_spec s hne rs1 rs2
    refine ⟨t, hnext, ?_⟩
    rw [hlow, hhigh, limbsOf_mod, limbsOf_append, mulWideLimbs_limbsOf (s.val_lt rs1) (s.val_lt rs2)]

end Sys2Proof.Machine

namespace Sys2Proof.Machine

/-! ### The division commands (R200, R201, R205 to R207) -/

section Divide
variable {s : State} {rs2 : Reg}

/-- A quotient of two register values fits a register (R200). -/
theorem State.val_div_mod_width (s : State) (r r2 : Reg) : s.val r / s.val r2 % 2 ^ s.cfg.width = s.val r / s.val r2 :=
  Nat.mod_eq_of_lt ((Nat.div_le_self _ _).trans_lt (s.val_lt r))

/-- A remainder of two register values fits a register (R200). -/
theorem State.val_mod_mod_width (s : State) (r r2 : Reg) : s.val r % s.val r2 % 2 ^ s.cfg.width = s.val r % s.val r2 :=
  Nat.mod_eq_of_lt ((Nat.mod_le _ _).trans_lt (s.val_lt r))

/-- DIVMOD with two destinations and a divisor other than 0 writes quotient and remainder (R205). -/
theorem exec_divmod_spec {rd rd2 : Reg} (hne : rd ≠ rd2) (rs1 : Reg) (hy : s.val rs2 ≠ 0) :
    ∃ t, exec (.divmod rd rd2 rs1 rs2) s = .next t ∧
      WritesTwoRegs s t rd rd2 (s.val rs1 / s.val rs2) (s.val rs1 % s.val rs2) :=
  ⟨_, (if_neg hne).trans (if_neg hy), writesTwoRegs_setReg s hne (s.val_div_mod_width ..) (s.val_mod_mod_width ..)⟩

/-- DIV by a divisor other than 0 writes the quotient (R206). -/
theorem exec_div_spec (rd rs1 : Reg) (hy : s.val rs2 ≠ 0) :
    ∃ t, exec (.div rd rs1 rs2) s = .next t ∧ WritesReg s t rd (s.val rs1 / s.val rs2) :=
  ⟨_, if_neg hy, writesReg_setReg s rd (s.val_div_mod_width ..)⟩

/-- REM by a divisor other than 0 writes the remainder (R207). -/
theorem exec_rem_spec (rd rs1 : Reg) (hy : s.val rs2 ≠ 0) :
    ∃ t, exec (.rem rd rs1 rs2) s = .next t ∧ WritesReg s t rd (s.val rs1 % s.val rs2) :=
  ⟨_, if_neg hy, writesReg_setReg s rd (s.val_mod_mod_width ..)⟩

end Divide

/-- Settles O18: the quotient and remainder are the library's; the check for one destination comes first, then that for
the divisor 0. -/
theorem divisionGivesQuotientAndRemainder : Obligations.DivisionGivesQuotientAndRemainder := by
  intro s rd rd2 rs1 rs2
  refine ⟨commandWords_of_encode rfl rfl, commandWords_of_encode rfl rfl, commandWords_of_encode rfl rfl,
    fun hy => ?_, fun hzero => ?_, fun heq => ⟨_, if_pos heq, faultEntered_takeFault ..⟩⟩
  · exact ⟨_, _, (Nat.div_add_mod' _ _).symm, Nat.mod_lt _ (Nat.pos_of_ne_zero hy),
      fun hne => exec_divmod_spec hne rs1 hy, exec_div_spec rd rs1 hy, exec_rem_spec rd rs1 hy⟩
  · exact ⟨fun hne => ⟨_, (if_neg hne).trans (if_pos hzero), faultEntered_takeFault ..⟩,
      ⟨_, if_pos hzero, faultEntered_takeFault ..⟩, _, if_pos hzero, faultEntered_takeFault ..⟩

/-! ### The single-limb path (R202, R203) -/

/-- The limbs of a value below one more limb. -/
theorem limbsOf_succ_add {n low : Nat} (hlow : low < 2 ^ (64 * n)) (high : Nat) :
    limbsOf (n + 1) (low + 2 ^ (64 * n) * high) = limbsOf n low ++ [BitVec.ofNat 64 high] := by
  have hlimb : limb (low + 2 ^ (64 * n) * high) n = high % 2 ^ 64 := by
    rw [limb, Nat.add_mul_div_left _ _ (Nat.two_pow_pos _), Nat.div_eq_of_lt hlow, Nat.zero_add]
  rw [limbsOf_succ, hlimb, ← limbsOf_mod, Nat.add_mul_mod_self_left, Nat.mod_eq_of_lt hlow]
  congr 2
  exact BitVec.eq_of_toNat_eq (by simp)

/-- Long division in radix `b`: the digit is divided first, and its remainder goes on with what is below it. -/
theorem mul_add_eq_digit_add (a b c d : Nat) : a * b + c = a % d * b + c + d * (b * (a / d)) := by
  conv_lhs => rw [← Nat.mod_add_div a d]
  ring

/-- From remainder `r < d` the pass over the `n` limbs of `x` divides `r * 2^(64n) + x` by `d`. -/
theorem divSingle_limbsOf {d r : Nat} (hr : r < d) (n x : Nat) :
    divSingle d r (limbsOf n x).reverse =
      ((limbsOf n ((r * 2 ^ (64 * n) + x % 2 ^ (64 * n)) / d)).reverse,
        (r * 2 ^ (64 * n) + x % 2 ^ (64 * n)) % d) := by
  induction n generalizing r with
  | zero => simp [limbsOf, divSingle, Nat.mod_one, Nat.mod_eq_of_lt hr]
  | succ n ih =>
    have hd : 0 < d := Nat.zero_lt_of_lt hr
    have hrem : (r * 2 ^ 64 + limb x n) % d < d := Nat.mod_lt _ hd
    have hnum : r * 2 ^ (64 * (n + 1)) + x % 2 ^ (64 * (n + 1)) =
        (r * 2 ^ 64 + limb x n) * 2 ^ (64 * n) + x % 2 ^ (64 * n) := by
      rw [mod_two_pow_limb_succ, two_pow_limb_succ]
      ring
    have hlow : ((r * 2 ^ 64 + limb x n) % d * 2 ^ (64 * n) + x % 2 ^ (64 * n)) / d < 2 ^ (64 * n) := by
      refine Nat.div_lt_of_lt_mul ?_
      calc _ < (r * 2 ^ 64 + limb x n) % d * 2 ^ (64 * n) + 2 ^ (64 * n) :=
            Nat.add_lt_add_left (Nat.mod_lt _ (Nat.two_pow_pos _)) _
        _ = ((r * 2 ^ 64 + limb x n) % d + 1) * 2 ^ (64 * n) := (Nat.succ_mul _ _).symm
        _ ≤ d * 2 ^ (64 * n) := Nat.mul_le_mul_right _ hrem
    rw [hnum, mul_add_eq_digit_add _ _ _ d, Nat.add_mul_div_left _ _ hd, Nat.add_mul_mod_self_left,
      limbsOf_succ_add hlow, limbsOf_succ, List.reverse_concat, List.reverse_concat, divSingle, divWord,
      BitVec.toNat_ofNat, Nat.mod_eq_of_lt (limb_lt x n), ih hrem]

/-- Settles O40: the pass starts with remainder 0. -/
theorem singleLimbDivisionGivesDivmod : Obligations.SingleLimbDivisionGivesDivmod := by
  intro s rd rd2 rs1 rs2 qs r hne hpos _ hpass
  obtain ⟨t, hnext, hquotient, hremainder, -⟩ := exec_divmod_spec hne rs1 hpos.ne'
  rw [divSingle_limbsOf hpos, Nat.zero_mul, Nat.zero_add, Nat.mod_eq_of_lt (s.val_lt rs1), Prod.mk.injEq] at hpass
  obtain ⟨rfl, rfl⟩ := hpass
  exact ⟨t, hnext, by rw [hquotient, List.reverse_reverse], hremainder⟩

end Sys2Proof.Machine

namespace Sys2Proof.Machine

/-! ### The multi-limb path (R204) -/

section Correction
variable {v1 v2 u2 qhat rhat : Nat}

/-- What the correction test decides: whether the estimate is at most the quotient of the dividend's three top limbs by
the divisor's two. -/
theorem le_div_iff_correctionTest (hv1 : 0 < v1) :
    qhat ≤ ((qhat * v1 + rhat) * 2 ^ 64 + u2) / (v1 * 2 ^ 64 + v2) ↔ qhat * v2 ≤ rhat * 2 ^ 64 + u2 := by
  have hprod : qhat * (v1 * 2 ^ 64 + v2) = qhat * v1 * 2 ^ 64 + qhat * v2 := by ring
  rw [Nat.le_div_iff_mul_le (by omega), hprod]
  omega

/-- Where `rhat` is no limb any more the test would pass: R204 need not make it there. -/
theorem correctionTest_of_le (hv2 : v2 < 2 ^ 64) (hqhat : qhat < 2 ^ 64) (hrhat : 2 ^ 64 ≤ rhat) :
    qhat * v2 ≤ rhat * 2 ^ 64 + u2 := by
  have hprod : qhat * v2 ≤ 2 ^ 64 * 2 ^ 64 := Nat.mul_le_mul hqhat.le hv2.le
  omega

/-- The correction loop gives the lesser of the estimate and the quotient of the dividend's three top limbs by the
divisor's two, where it has iterations enough: `k` of them bring `rhat` out of a limb's range. -/
theorem correctDigit_eq_min {k : Nat} (hv1 : 0 < v1) (hv2 : v2 < 2 ^ 64) (hqhat : qhat < 2 ^ 64)
    (hrhat : 2 ^ 64 ≤ rhat + k * v1) :
    correctDigit v1 v2 u2 k qhat rhat = min qhat (((qhat * v1 + rhat) * 2 ^ 64 + u2) / (v1 * 2 ^ 64 + v2)) := by
  induction k generalizing qhat rhat with
  | zero =>
    rw [Nat.zero_mul, Nat.add_zero] at hrhat
    rw [correctDigit, min_eq_left ((le_div_iff_correctionTest hv1).2 (correctionTest_of_le hv2 hqhat hrhat))]
  | succ k ih =>
    rw [correctDigit]
    split
    next hlarge =>
      obtain ⟨q, rfl⟩ : ∃ q, qhat = q + 1 := Nat.exists_eq_add_one_of_ne_zero (by rintro rfl; omega)
      have hnum : q * v1 + (rhat + v1) = (q + 1) * v1 + rhat := by ring
      have hlt : (((q + 1) * v1 + rhat) * 2 ^ 64 + u2) / (v1 * 2 ^ 64 + v2) < q + 1 :=
        Nat.lt_of_not_le fun hle => hlarge.2.not_ge ((le_div_iff_correctionTest hv1).1 hle)
      rw [Nat.add_sub_cancel, ih (Nat.lt_of_succ_lt hqhat) (by linarith), hnum, min_eq_right hlt.le,
        min_eq_right (Nat.le_of_lt_succ hlt)]
    next hfits =>
      have htest : qhat * v2 ≤ rhat * 2 ^ 64 + u2 := by
        by_cases hrange : rhat < 2 ^ 64
        · exact Nat.le_of_not_lt fun h => hfits ⟨hrange, h⟩
        · exact correctionTest_of_le hv2 hqhat (Nat.le_of_not_lt hrange)
      rw [min_eq_left ((le_div_iff_correctionTest hv1).2 htest)]

/-- Two corrections are enough for a divisor whose top limb has its highest bit set. -/
theorem correctDigit_estimate (hv1 : 2 ^ 63 ≤ v1) (hv2 : v2 < 2 ^ 64) (hu2 : u2 < 2 ^ 64) (num : Nat) :
    correctDigit v1 v2 u2 2 (min (num / v1) (2 ^ 64 - 1)) (num - min (num / v1) (2 ^ 64 - 1) * v1) =
      min ((num * 2 ^ 64 + u2) / (v1 * 2 ^ 64 + v2)) (2 ^ 64 - 1) := by
  have hle : min (num / v1) (2 ^ 64 - 1) * v1 ≤ num :=
    (Nat.mul_le_mul_right v1 (min_le_left ..)).trans (Nat.div_mul_le_self num v1)
  have hquot : (num * 2 ^ 64 + u2) / (v1 * 2 ^ 64 + v2) ≤ num / v1 := by
    calc (num * 2 ^ 64 + u2) / (v1 * 2 ^ 64 + v2) ≤ (num * 2 ^ 64 + u2) / (2 ^ 64 * v1) :=
          Nat.div_le_div_left (by omega) (by omega)
      _ = (num * 2 ^ 64 + u2) / 2 ^ 64 / v1 := (Nat.div_div_eq_div_mul ..).symm
      _ = num / v1 := by congr 1; omega
  rw [correctDigit_eq_min (by omega) hv2 (by omega) (by omega), Nat.add_sub_cancel' hle, min_comm (num / v1), min_assoc,
    min_eq_right hquot, min_comm]

end Correction

/-- The quotient of the top parts of dividend and divisor is no less than the quotient. -/
theorem div_le_div_top {p v : Nat} (hp : 0 < p) (hv : 0 < v / p) (u : Nat) : u / v ≤ u / p / (v / p) := by
  rw [Nat.div_div_eq_div_mul]
  exact Nat.div_le_div_left (Nat.mul_div_le v p) (Nat.mul_pos hp hv)

/-- A digit no greater than the quotient of the top parts, nor than the divisor's top part, is too large by one at most:
its product with the divisor passes the dividend by at most the divisor. -/
theorem mul_le_add_of_le_div_top {p q u v : Nat} (hp : 0 < p) (hq : q ≤ u / p / (v / p)) (hlt : q ≤ v / p) :
    q * v ≤ u + v := by
  have htop : q * (v / p) ≤ u / p := (Nat.mul_le_mul_right _ hq).trans (Nat.div_mul_le_self _ _)
  calc q * v = p * (q * (v / p)) + q * (v % p) := by
        conv_lhs => rw [← Nat.div_add_mod v p]
        ring
    _ ≤ p * (u / p) + v / p * p :=
        Nat.add_le_add (Nat.mul_le_mul_left p htop) (Nat.mul_le_mul hlt (Nat.mod_lt v hp).le)
    _ ≤ u + v := Nat.add_le_add (Nat.mul_div_le u p) (Nat.div_mul_le_self v p)

/-- Quotient and remainder from a multiple of the divisor that is below the dividend by less than the divisor. -/
theorem div_mod_eq_of_mul_le {d u v : Nat} (hle : d * v ≤ u) (hlt : u < d * v + v) :
    u / v = d ∧ u % v = u - d * v :=
  (Nat.div_mod_unique (by omega)).2 ⟨by rw [Nat.mul_comm v]; omega, by omega⟩

/-- Subtraction and add-back: from a digit that is right or one too large they give quotient and remainder. -/
theorem subtract_addBack {q u v : Nat} (hv : 0 < v) (hlow : u / v ≤ q) (hhigh : q * v ≤ u + v) (kept scale : Nat) :
    (if u < q * v then (q - 1, kept + scale * (u + v - q * v)) else (q, kept + scale * (u - q * v))) =
      (u / v, kept + scale * (u % v)) := by
  split
  next hover =>
    obtain ⟨d, rfl⟩ : ∃ d, q = d + 1 := Nat.exists_eq_add_one_of_ne_zero (by rintro rfl; omega)
    rw [Nat.succ_mul] at hover hhigh ⊢
    obtain ⟨hdiv, hmod⟩ := div_mod_eq_of_mul_le (Nat.le_of_add_le_add_right hhigh) hover
    rw [hdiv, hmod, Nat.add_sub_cancel, Nat.add_sub_add_right]
  next hfits =>
    have hlt : u < q * v + v := by
      rw [← Nat.succ_mul]
      exact (Nat.div_lt_iff_lt_mul hv).1 (Nat.lt_succ_of_le hlow)
    obtain ⟨hdiv, hmod⟩ := div_mod_eq_of_mul_le (Nat.le_of_not_lt hfits) hlt
    rw [hdiv, hmod]

/-- A value from limb `n` on is the value from the next limb on and limb `n`. -/
theorem div_two_pow_limb (x n : Nat) : x / 2 ^ (64 * n) = x / 2 ^ (64 * (n + 1)) * 2 ^ 64 + limb x n := by
  rw [two_pow_limb_succ, ← Nat.div_div_eq_div_mul, limb, Nat.div_add_mod']

/-- The top limb of a value is what stands above the other limbs. -/
theorem limb_eq_div {n x : Nat} (hx : x < 2 ^ (64 * (n + 1))) : limb x n = x / 2 ^ (64 * n) := by
  rw [div_two_pow_limb, Nat.div_eq_of_lt hx, Nat.zero_mul, Nat.zero_add]

theorem limb_div_two_pow (x n k : Nat) : limb (x / 2 ^ (64 * n)) k = limb x (n + k) := by
  rw [← limb_div_of_le (Nat.le_add_right n k), Nat.add_sub_cancel_left]

/-- A divisor of `n` limbs, two or more, whose highest bit is set (R204: after normalization). -/
structure Normalized (n v : Nat) : Prop where
  two_le : 2 ≤ n
  lt : v < 2 ^ (64 * n)
  top : 2 ^ 63 ≤ limb v (n - 1)

section Normalized
variable {n v : Nat}

/-- The two top limbs of a normalized divisor. -/
theorem Normalized.div_eq (h : Normalized n v) :
    v / 2 ^ (64 * (n - 2)) = limb v (n - 1) * 2 ^ 64 + limb v (n - 2) := by
  obtain ⟨m, rfl⟩ := Nat.exists_eq_add_of_le' h.two_le
  rw [Nat.add_sub_cancel, div_two_pow_limb, ← limb_eq_div h.lt]
  rfl

theorem Normalized.two_pow_le_div (h : Normalized n v) : 2 ^ 64 ≤ v / 2 ^ (64 * (n - 2)) := by
  have htop := h.top
  rw [h.div_eq]
  omega

theorem Normalized.pos (h : Normalized n v) : 0 < v :=
  Nat.pos_of_ne_zero (by rintro rfl; simpa [limb] using h.top)

/-- The three limbs that a digit is estimated from are all that the dividend has there. -/
theorem Normalized.dividend_div_eq (h : Normalized n v) {j u : Nat} (hu : u / 2 ^ (64 * j) < 2 ^ (64 * (n + 1))) :
    u / 2 ^ (64 * j) / 2 ^ (64 * (n - 2)) =
      (limb u (j + n) * 2 ^ 64 + limb u (j + n - 1)) * 2 ^ 64 + limb u (j + n - 2) := by
  obtain ⟨m, rfl⟩ := Nat.exists_eq_add_of_le' h.two_le
  rw [Nat.add_sub_cancel, div_two_pow_limb, div_two_pow_limb, ← limb_eq_div hu, limb_div_two_pow, limb_div_two_pow,
    limb_div_two_pow]
  rfl

/-- The digit estimated for a part of the dividend with a quotient of one limb is right or one too large. -/
theorem Normalized.estimate_bounds (h : Normalized n v) {u : Nat} (hu : u < 2 ^ 64 * v) :
    u / v ≤ min (u / 2 ^ (64 * (n - 2)) / (v / 2 ^ (64 * (n - 2)))) (2 ^ 64 - 1) ∧
      min (u / 2 ^ (64 * (n - 2)) / (v / 2 ^ (64 * (n - 2)))) (2 ^ 64 - 1) * v ≤ u + v := by
  have hscale := Nat.two_pow_pos (64 * (n - 2))
  have htop : 2 ^ 64 - 1 ≤ v / 2 ^ (64 * (n - 2)) := (Nat.sub_le ..).trans h.two_pow_le_div
  have hdigit : u / v < 2 ^ 64 := (Nat.div_lt_iff_lt_mul h.pos).2 hu
  have htopPos : 0 < v / 2 ^ (64 * (n - 2)) := (Nat.two_pow_pos 64).trans_le h.two_pow_le_div
  exact ⟨le_min (div_le_div_top hscale htopPos u) (Nat.le_sub_one_of_lt hdigit),
    mul_le_add_of_le_div_top hscale (min_le_left ..) ((min_le_right ..).trans htop)⟩

/-- One step takes the digit at position `j`: it divides by the divisor moved up to that position. -/
theorem Normalized.divStep_eq (h : Normalized n v) {j u : Nat} (hu : u < 2 ^ (64 * (j + 1)) * v) :
    divStep n v j u = (u / (2 ^ (64 * j) * v), u % (2 ^ (64 * j) * v)) := by
  have hpart : u / 2 ^ (64 * j) < 2 ^ 64 * v := by
    rw [two_pow_limb_succ, Nat.mul_assoc] at hu
    exact Nat.div_lt_of_lt_mul hu
  have hlimbs : u / 2 ^ (64 * j) < 2 ^ (64 * (n + 1)) := by
    rw [two_pow_limb_succ, Nat.mul_comm _ (2 ^ 64)]
    exact hpart.trans_le (Nat.mul_le_mul_left _ h.lt.le)
  have hkept : u - 2 ^ (64 * j) * (u / 2 ^ (64 * j)) = u % 2 ^ (64 * j) := (Nat.mod_eq_sub_mul_div ..).symm
  obtain ⟨hlow, hhigh⟩ := h.estimate_bounds hpart
  simp only [divStep, correctDigit_estimate h.top (limb_lt ..) (limb_lt ..), ← h.div_eq, ← h.dividend_div_eq hlimbs,
    Nat.mod_eq_of_lt hlimbs, subtract_addBack h.pos hlow hhigh, hkept]
  rw [Nat.div_div_eq_div_mul, Nat.mod_mul]

/-- The loop over the positions below `j` divides a dividend whose quotient has at most `j` digits. -/
theorem Normalized.divLoop_eq (h : Normalized n v) {j u : Nat} (hu : u < 2 ^ (64 * j) * v) :
    divLoop n v j u = (u / v, u % v) := by
  induction j generalizing u with
  | zero =>
    have hlt : u < v := by simpa using hu
    rw [divLoop, Nat.div_eq_of_lt hlt, Nat.mod_eq_of_lt hlt]
  | succ j ih =>
    rw [divLoop, h.divStep_eq hu]
    dsimp only
    rw [ih (Nat.mod_lt _ (Nat.mul_pos (Nat.two_pow_pos _) h.pos)), Nat.mul_comm _ v, Nat.mod_mul_right_div_self,
      ← Nat.div_div_eq_div_mul, Nat.div_add_mod', Nat.mod_mul_right_mod]

end Normalized

/-- Shifted by its leading zeros a limb other than 0 has its highest bit set, and still fits. -/
theorem mul_two_pow_clz_bounds {t : Nat} (hpos : 0 < t) (hlt : t < 2 ^ 64) :
    2 ^ 63 ≤ t * 2 ^ clzW 64 t ∧ (t + 1) * 2 ^ clzW 64 t ≤ 2 ^ 64 := by
  have hlen : bitLen t ≤ 64 := bitLen_le_of_lt hlt
  have hbelow : t < 2 ^ bitLen t := (bitLen_le_iff t _).1 le_rfl
  obtain ⟨l, hl⟩ : ∃ l, bitLen t = l + 1 :=
    Nat.exists_eq_add_one_of_ne_zero fun h => hpos.ne' (by simpa [h] using hbelow)
  have habove : 2 ^ l ≤ t := Nat.le_of_not_lt fun h => absurd ((bitLen_le_iff t l).2 h) (by omega)
  rw [clzW, hl]
  rw [hl] at hbelow
  constructor
  · calc 2 ^ 63 = 2 ^ l * 2 ^ (64 - (l + 1)) := by rw [← Nat.pow_add]; congr 1; omega
      _ ≤ _ := Nat.mul_le_mul_right _ habove
  · calc (t + 1) * 2 ^ (64 - (l + 1)) ≤ 2 ^ (l + 1) * 2 ^ (64 - (l + 1)) := Nat.mul_le_mul_right _ hbelow
      _ = 2 ^ 64 := by rw [← Nat.pow_add]; congr 1; omega

/-- A divisor of `n` significant limbs is normalized by the leading zeros of its top limb. -/
theorem normalized_mul_clz {n y : Nat} (hn : 2 ≤ n) (hlow : 2 ^ (64 * (n - 1)) ≤ y) (hhigh : y < 2 ^ (64 * n)) :
    Normalized n (y * 2 ^ clzW 64 (limb y (n - 1))) := by
  obtain ⟨m, rfl⟩ : ∃ m, n = m + 1 := Nat.exists_eq_add_one_of_ne_zero (by omega)
  rw [Nat.add_sub_cancel] at hlow ⊢
  have hscale := Nat.two_pow_pos (64 * m)
  have hpos : 0 < limb y m := limb_eq_div hhigh ▸ Nat.div_pos hlow hscale
  obtain ⟨htop, hfits⟩ := mul_two_pow_clz_bounds hpos (limb_lt y m)
  have hc := Nat.two_pow_pos (clzW 64 (limb y m))
  generalize 2 ^ clzW 64 (limb y m) = c at *
  rw [limb_eq_div hhigh] at htop hfits
  have hlt : y * c < 2 ^ (64 * (m + 1)) := by
    have hy : y < 2 ^ (64 * m) * (y / 2 ^ (64 * m) + 1) := Nat.lt_mul_div_succ y hscale
    calc y * c < 2 ^ (64 * m) * (y / 2 ^ (64 * m) + 1) * c := Nat.mul_lt_mul_of_pos_right hy hc
      _ = 2 ^ (64 * m) * ((y / 2 ^ (64 * m) + 1) * c) := Nat.mul_assoc ..
      _ ≤ 2 ^ (64 * m) * 2 ^ 64 := Nat.mul_le_mul_left _ hfits
      _ = 2 ^ (64 * (m + 1)) := (two_pow_limb_succ m).symm
  refine ⟨hn, hlt, ?_⟩
  rw [Nat.add_sub_cancel, limb_eq_div hlt, Nat.mul_comm]
  rw [Nat.mul_comm] at htop
  exact htop.trans (Nat.mul_div_le_mul_div_assoc ..)

/-- R204 gives the quotient and the remainder, for values of `nl` limbs. -/
theorem divMulti_eq {nl n x y : Nat} (hn : 2 ≤ n) (hlow : 2 ^ (64 * (n - 1)) ≤ y) (hhigh : y < 2 ^ (64 * n))
    (hx : x < 2 ^ (64 * nl)) (hle : n ≤ nl) : divMulti nl n x y = (x / y, x % y) := by
  rw [divMulti]
  split
  next hlt => rw [Nat.div_eq_of_lt hlt, Nat.mod_eq_of_lt hlt]
  next =>
    have hscale := Nat.two_pow_pos (clzW 64 (limb y (n - 1)))
    have hquot : x < 2 ^ (64 * (nl - n + 1)) * y := by
      calc x < 2 ^ (64 * nl) := hx
        _ = 2 ^ (64 * (nl - n + 1)) * 2 ^ (64 * (n - 1)) := by rw [← Nat.pow_add]; congr 1; omega
        _ ≤ _ := Nat.mul_le_mul_left _ hlow
    have hshifted := Nat.mul_lt_mul_of_pos_right hquot hscale
    rw [Nat.mul_assoc] at hshifted
    dsimp only
    rw [(normalized_mul_clz hn hlow hhigh).divLoop_eq hshifted, Nat.mul_div_mul_right _ _ hscale,
      Nat.mul_mod_mul_right, Nat.mul_div_cancel _ hscale]

/-- Settles O41: `divMulti_eq`, where a divisor of `n` significant limbs that a register holds has at most the register's
limbs. -/
theorem multiLimbDivisionGivesDivmod : Obligations.MultiLimbDivisionGivesDivmod := by
  intro s rd rd2 rs1 rs2 n hne hn hlow hhigh
  have hy : s.val rs2 ≠ 0 := ((Nat.two_pow_pos _).trans_le hlow).ne'
  obtain ⟨t, hnext, hquotient, hremainder, -⟩ := exec_divmod_spec hne rs1 hy
  have hle : n ≤ s.cfg.limbs := by
    have := (Nat.pow_lt_pow_iff_right (by decide)).1 (hlow.trans_lt (s.val_lt rs2))
    rw [Config.width] at this
    omega
  exact ⟨t, hnext, by rw [divMulti_eq hn hlow hhigh (s.val_lt rs1) hle, hquotient, hremainder]⟩

end Sys2Proof.Machine

namespace Sys2Proof.Machine

/-! ### Shifts (R230, R232, R233, R236, R237) -/

/-- The shift of `W` places or more, which gives 0, is the power formula too. -/
theorem shlW_eq (w x k : Nat) : shlW w x k = x * 2 ^ k % 2 ^ w := by
  rw [shlW]
  split
  · next hk => exact (Nat.mod_eq_zero_of_dvd (Dvd.dvd.mul_left (Nat.pow_dvd_pow 2 hk) x)).symm
  · rfl

theorem shrW_eq {w x : Nat} (hx : x < 2 ^ w) (k : Nat) : shrW w x k = x / 2 ^ k := by
  rw [shrW]
  split
  · next hk => exact (Nat.div_eq_of_lt (hx.trans_le (Nat.pow_le_pow_right Nat.zero_lt_two hk))).symm
  · rfl

theorem shlW_lt (w x k : Nat) : shlW w x k < 2 ^ w := by
  rw [shlW_eq]
  exact Nat.mod_lt _ (Nat.two_pow_pos w)

theorem shrW_lt {w x : Nat} (hx : x < 2 ^ w) (k : Nat) : shrW w x k < 2 ^ w := by
  rw [shrW_eq hx]
  exact (Nat.div_le_self _ _).trans_lt hx

/-- The register write of the two left shifts. -/
theorem writesReg_shlW (s : State) (rd rs1 : Reg) (k : Nat) :
    WritesReg s (s.setReg rd (shlW s.cfg.width (s.val rs1) k)) rd (s.val rs1 * 2 ^ k % 2 ^ s.cfg.width) :=
  writesReg_setReg s rd ((Nat.mod_eq_of_lt (shlW_lt ..)).trans (shlW_eq ..))

/-- The register write of the two right shifts. -/
theorem writesReg_shrW (s : State) (rd rs1 : Reg) (k : Nat) :
    WritesReg s (s.setReg rd (shrW s.cfg.width (s.val rs1) k)) rd (s.val rs1 / 2 ^ k) :=
  writesReg_setReg s rd ((Nat.mod_eq_of_lt (shrW_lt (s.val_lt rs1) k)).trans (shrW_eq (s.val_lt rs1) k))

/-- Settles O19: a register and an immediate are amounts alike. -/
theorem shiftsMultiplyAndDivideByPowersOfTwo : Obligations.ShiftsMultiplyAndDivideByPowersOfTwo := by
  intro s rd rs1 rs2 imm
  exact ⟨⟨commandWords_of_encode rfl rfl, _, rfl, writesReg_shlW s rd rs1 (s.val rs2)⟩,
    ⟨commandWords_of_encode rfl rfl, _, rfl, writesReg_shrW s rd rs1 (s.val rs2)⟩,
    ⟨commandWords_of_encode rfl rfl, _, rfl, writesReg_shlW s rd rs1 imm.toNat⟩,
    commandWords_of_encode rfl rfl, _, rfl, writesReg_shrW s rd rs1 imm.toNat⟩

/-! ### Rotations (R231, R234, R235, R238, R239) -/

section Rotate
variable {w x : Nat} (hx : x < 2 ^ w)
include hx

/-- A right and a left shift whose amounts add up to `w` make a rotation right. -/
theorem testBit_shrW_or_shlW {k j : Nat} (hk : k ≤ w) (hj : j < w) :
    (shrW w x k ||| shlW w x (w - k)).testBit j = x.testBit ((j + k) % w) := by
  rw [Nat.testBit_or, shrW_eq hx, shlW_eq, Nat.testBit_div_two_pow, Nat.testBit_mod_two_pow, Nat.testBit_mul_two_pow,
    decide_eq_true hj, Bool.true_and]
  obtain hlt | hge := Nat.lt_or_ge (j + k) w
  · rw [decide_eq_false (by omega : ¬ w - k ≤ j), Bool.false_and, Bool.or_false, Nat.mod_eq_of_lt hlt]
  · have hhigh : x.testBit (j + k) = false :=
      Nat.testBit_lt_two_pow (hx.trans_le (Nat.pow_le_pow_right Nat.zero_lt_two hge))
    rw [hhigh, Bool.false_or, decide_eq_true (by omega : w - k ≤ j), Bool.true_and, Nat.mod_eq_sub_mod hge,
      Nat.mod_eq_of_lt (by omega)]
    congr 1
    omega

/-- The rotation right by 0, which R231 sets apart, follows the formula of the others. -/
theorem rorW_eq (k : Nat) : rorW w x k = shrW w x (k % w) ||| shlW w x (w - k % w) := by
  rw [rorW]
  split
  · next hzero => simp [hzero, shrW_eq hx, shlW_eq]
  · rfl

/-- A rotation left by `k` is a rotation right by the rest of the width. -/
theorem rolW_eq (hw : 0 < w) (k : Nat) : rolW w x k = shrW w x (w - k % w) ||| shlW w x (w - (w - k % w)) := by
  rw [Nat.sub_sub_self (Nat.mod_lt k hw).le, rolW]
  split
  · next hzero => simp [hzero, shrW_eq hx, shlW_eq, Nat.mod_eq_of_lt hx, Nat.div_eq_of_lt hx]
  · rw [Nat.or_comm]

theorem rorW_lt (k : Nat) : rorW w x k < 2 ^ w := by
  rw [rorW_eq hx]
  exact Nat.or_lt_two_pow (shrW_lt hx _) (shlW_lt ..)

theorem rolW_lt (hw : 0 < w) (k : Nat) : rolW w x k < 2 ^ w := by
  rw [rolW_eq hx hw]
  exact Nat.or_lt_two_pow (shrW_lt hx _) (shlW_lt ..)

theorem testBit_rorW {j : Nat} (hj : j < w) (k : Nat) : (rorW w x k).testBit j = x.testBit ((j + k) % w) := by
  rw [rorW_eq hx, testBit_shrW_or_shlW hx (Nat.mod_lt k (Nat.zero_lt_of_lt hj)).le hj, Nat.add_mod_mod]

theorem testBit_rolW {j : Nat} (hj : j < w) (k : Nat) : (rolW w x k).testBit ((j + k) % w) = x.testBit j := by
  have hw := Nat.zero_lt_of_lt hj
  have hback : ((j + k) % w + (w - k % w)) % w = j := by
    have hk := Nat.mod_lt k hw
    calc ((j + k) % w + (w - k % w)) % w
        = (j + k % w + (w - k % w)) % w := by rw [← Nat.add_mod_mod j k, Nat.mod_add_mod]
      _ = (j + w) % w := by rw [Nat.add_assoc, Nat.add_sub_cancel' hk.le]
      _ = j := by rw [Nat.add_mod_right, Nat.mod_eq_of_lt hj]
  rw [rolW_eq hx hw, testBit_shrW_or_shlW hx (Nat.sub_le ..) (Nat.mod_lt _ hw), hback]

end Rotate

/-- Settles O20: rotated values fit, and their bits are those of `testBit_rolW` and `testBit_rorW`. -/
theorem rotationsMoveEveryBitRoundTheValue : Obligations.RotationsMoveEveryBitRoundTheValue := by
  intro s rd rs1 rs2 imm hlegal
  have hw : 0 < s.cfg.width := Nat.mul_pos (by decide) hlegal.1
  have hx := s.val_lt rs1
  have hrol (k : Nat) := writesReg_setReg s rd (Nat.mod_eq_of_lt (rolW_lt hx hw k))
  have hror (k : Nat) := writesReg_setReg s rd (Nat.mod_eq_of_lt (rorW_lt hx k))
  exact ⟨⟨commandWords_of_encode rfl rfl, _, _, rfl, hrol (s.val rs2), fun _ hj => testBit_rolW hx hj _⟩,
    ⟨commandWords_of_encode rfl rfl, _, _, rfl, hror (s.val rs2), fun _ hj => testBit_rorW hx hj _⟩,
    ⟨commandWords_of_encode rfl rfl, _, _, rfl, hrol imm.toNat, fun _ hj => testBit_rolW hx hj _⟩,
    commandWords_of_encode rfl rfl, _, _, rfl, hror imm.toNat, fun _ hj => testBit_rorW hx hj _⟩

/-! ### Bitwise logic (R240 to R243) -/

/-- The value NOT writes has every bit of the register inverted (R243). -/
theorem testBit_maxVal_sub {s : State} {j : Nat} (hj : j < s.cfg.width) (r : Reg) :
    (s.maxVal - s.val r).testBit j = !(s.val r).testBit j := by
  rw [State.maxVal, Nat.sub_sub, Nat.add_comm, Nat.testBit_two_pow_sub_succ (s.val_lt r), decide_eq_true hj,
    Bool.true_and]

/-- Settles O21: each result fits, and the library has the bits of AND, OR and XOR. -/
theorem bitwiseCommandsWorkOnEveryBit : Obligations.BitwiseCommandsWorkOnEveryBit := by
  intro s rd rs1 rs2
  have hx := s.val_lt rs1
  have hy := s.val_lt rs2
  have hand := writesReg_setReg s rd (Nat.mod_eq_of_lt (Nat.and_lt_two_pow (s.val rs1) hy))
  have hor := writesReg_setReg s rd (Nat.mod_eq_of_lt (Nat.or_lt_two_pow hx hy))
  have hxor := writesReg_setReg s rd (Nat.mod_eq_of_lt (Nat.xor_lt_two_pow hx hy))
  have hnot := writesReg_setReg s rd (Nat.mod_eq_of_lt ((Nat.sub_le s.maxVal (s.val rs1)).trans_lt s.maxVal_lt))
  exact ⟨⟨commandWords_of_encode rfl rfl, _, _, rfl, hand, fun _ _ => Nat.testBit_and ..⟩,
    ⟨commandWords_of_encode rfl rfl, _, _, rfl, hor, fun _ _ => Nat.testBit_or ..⟩,
    ⟨commandWords_of_encode rfl rfl, _, _, rfl, hxor, fun _ _ => Nat.testBit_xor ..⟩,
    commandWords_of_encode rfl rfl, _, _, rfl, hnot, rfl, fun _ hj => testBit_maxVal_sub hj rs1⟩

/-! ### Bit counting and bit access (R244 to R248) -/

/-- A register of `W` bits takes every count up to `W`. -/
theorem writesReg_setReg_of_le_width (s : State) (rd : Reg) {n : Nat} (hn : n ≤ s.cfg.width) :
    WritesReg s (s.setReg rd n) rd n :=
  writesReg_setReg s rd (Nat.mod_eq_of_lt (hn.trans_lt Nat.lt_two_pow_self))

theorem countTrailing_le (k x : Nat) : countTrailing k x ≤ k := by
  induction k generalizing x with
  | zero => exact le_rfl
  | succ k ih =>
    rw [countTrailing]
    split
    · exact Nat.zero_le _
    · exact Nat.succ_le_succ (ih _)

/-- Settles O22: what each counter gives is `bitLen_le_iff`, `countTrailing_zero` or `le_countTrailing_iff`, and the
count fits. -/
theorem bitCountersCountBits : Obligations.BitCountersCountBits := by
  intro s rd rs1
  have hx := s.val_lt rs1
  have hlen : bitLen (s.val rs1) ≤ s.cfg.width := bitLen_le_of_lt hx
  exact ⟨⟨commandWords_of_encode rfl rfl, _, _, rfl, writesReg_setReg_of_le_width s rd hlen, bitLen_le_iff _⟩,
    ⟨commandWords_of_encode rfl rfl, _, _, rfl, hlen, writesReg_setReg_of_le_width s rd (Nat.sub_le ..),
      bitLen_le_iff _⟩,
    commandWords_of_encode rfl rfl, _, _, rfl, writesReg_setReg_of_le_width s rd (countTrailing_le ..),
    fun hzero => (congrArg _ hzero).trans (countTrailing_zero _),
    fun hne k => (le_countTrailing_iff _ _ k hne hx).symm⟩

/-- Settles O23: BIT checks the index first. -/
theorem bitReadsOneBit : Obligations.BitReadsOneBit := by
  intro s rd rs1 imm
  refine ⟨commandWords_of_encode rfl rfl, fun hlt => ?_, fun hge => ⟨_, if_pos hge, faultEntered_takeFault ..⟩⟩
  have hbit : s.val rs1 / 2 ^ imm.toNat % 2 = ((s.val rs1).testBit imm.toNat).toNat := (Nat.toNat_testBit ..).symm
  have hfits : s.val rs1 / 2 ^ imm.toNat % 2 ≤ s.cfg.width :=
    (Nat.le_of_lt_succ (Nat.mod_lt _ Nat.zero_lt_two)).trans (Nat.one_le_of_lt hlt)
  exact ⟨_, if_neg (Nat.not_le.2 hlt), hbit ▸ writesReg_setReg_of_le_width s rd hfits⟩

/-! ### The limb formulas of the shifts (R230) -/

theorem limbBelow_lt (x i k : Nat) : limbBelow x i k < 2 ^ 64 := by
  rw [limbBelow]
  split
  · exact limb_lt _ _
  · exact Nat.two_pow_pos 64

/-- The 64 bits from bit `r` on are the top bits of the lowest limb and, above them, the low bits of the next one. -/
theorem div_two_pow_mod_limb {r : Nat} (hr : r ≤ 64) (y : Nat) :
    y / 2 ^ r % 2 ^ 64 = y % 2 ^ 64 / 2 ^ r + y / 2 ^ 64 % 2 ^ 64 * 2 ^ (64 - r) % 2 ^ 64 := by
  have hsplit : 2 ^ 64 = 2 ^ r * 2 ^ (64 - r) := by rw [← Nat.pow_add, Nat.add_sub_cancel' hr]
  have hlow : y % 2 ^ 64 / 2 ^ r = y / 2 ^ r % 2 ^ (64 - r) := by rw [hsplit, Nat.mod_mul_right_div_self]
  have hhigh : y / 2 ^ 64 % 2 ^ 64 * 2 ^ (64 - r) % 2 ^ 64 = 2 ^ (64 - r) * (y / 2 ^ 64 % 2 ^ r) := by
    rw [Nat.mod_mul_mod, Nat.mul_comm, hsplit, Nat.mul_comm (2 ^ r), Nat.mul_mod_mul_left]
  calc y / 2 ^ r % 2 ^ 64
      = y / 2 ^ r % (2 ^ (64 - r) * 2 ^ r) := by rw [hsplit, Nat.mul_comm]
    _ = y / 2 ^ r % 2 ^ (64 - r) + 2 ^ (64 - r) * (y / 2 ^ 64 % 2 ^ r) := by
        rw [Nat.mod_mul, Nat.div_div_eq_div_mul, ← hsplit]
    _ = y % 2 ^ 64 / 2 ^ r + y / 2 ^ 64 % 2 ^ 64 * 2 ^ (64 - r) % 2 ^ 64 := by rw [hlow, hhigh]

/-- The sub-limb shift right combines two adjacent limbs. -/
theorem limb_div_sub_limb {r : Nat} (hr : r ≤ 64) (x i : Nat) :
    limb (x / 2 ^ r) i = limb x i / 2 ^ r + limb x (i + 1) * 2 ^ (64 - r) % 2 ^ 64 := by
  have hswap : x / 2 ^ r / 2 ^ (64 * i) = x / 2 ^ (64 * i) / 2 ^ r := by
    rw [Nat.div_div_eq_div_mul, Nat.div_div_eq_div_mul, Nat.mul_comm]
  rw [limb, limb, limb, hswap, div_two_pow_mod_limb hr, two_pow_limb_succ, Nat.div_div_eq_div_mul]

/-- The sub-limb shift left takes the bits that leave the limb below; it is a shift right seen from that limb. -/
theorem limb_mul_sub_limb_succ {r : Nat} (hr : r ≤ 64) (x i : Nat) :
    limb (x * 2 ^ r) (i + 1) = (limb x (i + 1) * 2 ^ r + limb x i / 2 ^ (64 - r)) % 2 ^ 64 := by
  have hsplit : 2 ^ (64 * (i + 1)) = 2 ^ (64 - r) * 2 ^ (64 * i) * 2 ^ r := by
    rw [← Nat.pow_add, ← Nat.pow_add]
    congr 1
    omega
  have hback : limb (x * 2 ^ r) (i + 1) = limb (x / 2 ^ (64 - r)) i := by
    rw [limb, limb, hsplit, Nat.mul_div_mul_right _ _ (Nat.two_pow_pos r), Nat.div_div_eq_div_mul]
  calc limb (x * 2 ^ r) (i + 1)
      = limb (x / 2 ^ (64 - r)) i % 2 ^ 64 := by rw [hback, Nat.mod_eq_of_lt (limb_lt _ _)]
    _ = (limb x (i + 1) * 2 ^ r + limb x i / 2 ^ (64 - r)) % 2 ^ 64 := by
        rw [limb_div_sub_limb (Nat.sub_le ..), Nat.sub_sub_self hr, Nat.add_mod_mod, Nat.add_comm]

/-- The whole-limb move left. -/
theorem limb_mul_whole_limbs (x q i : Nat) : limb (x * 2 ^ (64 * q)) i = limbBelow x i q := by
  rw [limbBelow]
  split
  · next hle => rw [← limb_div_of_le hle, Nat.mul_div_cancel _ (Nat.two_pow_pos _)]
  · next hlt => exact (mod_eq_zero_iff_limbs _ q).1 (Nat.mul_mod_left ..) i (Nat.lt_of_not_le hlt)

/-- The sub-limb shift left of the limbs moved. -/
theorem limbBelow_mul_sub_limb {r : Nat} (hr : r ≤ 64) (x i q : Nat) :
    limbBelow (x * 2 ^ r) i q = (limbBelow x i q * 2 ^ r + limbBelow x i (q + 1) / 2 ^ (64 - r)) % 2 ^ 64 := by
  obtain hlt | rfl | hgt := Nat.lt_trichotomy i q
  · simp [limbBelow, Nat.not_le.2 hlt, Nat.not_le.2 (Nat.lt_succ_of_lt hlt)]
  · simp [limbBelow, limb]
  · obtain ⟨d, rfl⟩ := Nat.exists_eq_add_of_lt hgt
    have hthis : q + d + 1 - q = d + 1 := by omega
    have hbelow : q + d + 1 - (q + 1) = d := by omega
    rw [limbBelow, limbBelow, limbBelow, if_pos hgt.le, if_pos hgt.le, if_pos (Nat.succ_le_of_lt hgt), hthis, hbelow,
      limb_mul_sub_limb_succ hr]

/-- The limb formula of the shift left; for a whole-limb move its test of `k mod 64` leaves out a term that is 0. -/
theorem limb_mul_two_pow (x k i : Nat) : limb (x * 2 ^ k) i = shlLimb x k i := by
  have hr : k % 64 < 64 := Nat.mod_lt _ (by decide)
  have hterm : (if 0 < k % 64 then limbBelow x i (k / 64 + 1) / 2 ^ (64 - k % 64) else 0) =
      limbBelow x i (k / 64 + 1) / 2 ^ (64 - k % 64) := by
    split
    · rfl
    · next hzero => rw [Nat.eq_zero_of_not_pos hzero, Nat.div_eq_of_lt (limbBelow_lt ..)]
  calc limb (x * 2 ^ k) i
      = limb (x * 2 ^ (k % 64) * 2 ^ (64 * (k / 64))) i := by rw [Nat.mul_assoc, ← Nat.pow_add, Nat.mod_add_div]
    _ = shlLimb x k i := by rw [limb_mul_whole_limbs, limbBelow_mul_sub_limb hr.le, shlLimb, hterm]

/-- The limb formula of the shift right; for a whole-limb move its test of `k mod 64` leaves out a term that is 0. -/
theorem limb_div_two_pow_eq_shrLimb (x k i : Nat) : limb (x / 2 ^ k) i = shrLimb x k i := by
  have hr : k % 64 < 64 := Nat.mod_lt _ (by decide)
  have hterm : (if 0 < k % 64 then limb x (i + k / 64 + 1) * 2 ^ (64 - k % 64) % 2 ^ 64 else 0) =
      limb x (i + k / 64 + 1) * 2 ^ (64 - k % 64) % 2 ^ 64 := by
    split
    · rfl
    · next hzero => rw [Nat.eq_zero_of_not_pos hzero, Nat.sub_zero, Nat.mul_mod_left]
  calc limb (x / 2 ^ k) i
      = limb (x / 2 ^ (k % 64) / 2 ^ (64 * (k / 64))) i := by
        rw [Nat.div_div_eq_div_mul, ← Nat.pow_add, Nat.mod_add_div]
    _ = shrLimb x k i := by
        rw [limb_div_two_pow, Nat.add_comm (k / 64), limb_div_sub_limb hr.le, shrLimb, hterm]

/-- Settles O42: the limb formulas give the limbs of the values O19 says the two commands write. -/
theorem limbShiftFormulasGiveShliAndShri : Obligations.LimbShiftFormulasGiveShliAndShri := by
  intro s rd rs1 imm _
  obtain ⟨-, -, ⟨-, t, hleft, ⟨hshl, -⟩, -⟩, -, u, hright, ⟨hshr, -⟩, -⟩ :=
    shiftsMultiplyAndDivideByPowersOfTwo s rd rs1 rs1 imm
  refine ⟨⟨t, hleft, fun j hj => ?_⟩, u, hright, fun j _ => ?_⟩
  · rw [hshl, Config.width, limb_mod_of_lt hj, limb_mul_two_pow]
  · rw [hshr, limb_div_two_pow_eq_shrLimb]

end Sys2Proof.Machine

namespace Sys2Proof.Machine

/-! ### Byte imports and exports (R280 to R284) -/

/-- The little-endian value as the sum R281 writes. -/
theorem fromLittleEndian_eq_sum (bs : List Byte) :
    fromLittleEndian bs = ∑ j : Fin bs.length, bs[j].toNat * 2 ^ (8 * (j : Nat)) := by
  induction bs with
  | nil => rfl
  | cons b bs ih =>
    have hcons : fromLittleEndian (b :: bs) = b.toNat + 256 * fromLittleEndian bs := rfl
    have hpow (j : Nat) : 2 ^ (8 * (j + 1)) = 256 * 2 ^ (8 * j) := by rw [Nat.mul_succ, Nat.pow_add, Nat.mul_comm]
    simp [hcons, ih, Fin.sum_univ_succ, hpow, Finset.mul_sum, Nat.mul_left_comm]

/-- The big-endian value as the sum R280 writes: the reversed bytes, each at the mirrored index. -/
theorem fromBigEndian_eq_sum (bs : List Byte) :
    fromBigEndian bs = ∑ j : Fin bs.length, bs[j].toNat * 2 ^ (8 * (bs.length - 1 - j)) := by
  rw [fromBigEndian_eq_reverse, fromLittleEndian_eq_sum]
  refine Fintype.sum_equiv ((finCongr (List.length_reverse ..)).trans Fin.revPerm) _ _ fun j => ?_
  have hj : (j : Nat) < bs.length := by simpa using j.isLt
  have hback : bs.length - 1 - (bs.length - (j + 1)) = (j : Nat) := by omega
  simp [Fin.val_rev, hback, Nat.sub_sub, Nat.add_comm 1]

theorem fromLittleEndian_lt (bs : List Byte) : fromLittleEndian bs < 2 ^ (8 * bs.length) := by
  induction bs with
  | nil => exact Nat.one_pos
  | cons b bs ih =>
    have hb := b.isLt
    change b.toNat + 256 * fromLittleEndian bs < 2 ^ (8 * (bs.length + 1))
    rw [Nat.mul_succ, Nat.pow_add]
    omega

theorem fromBigEndian_lt (bs : List Byte) : fromBigEndian bs < 2 ^ (8 * bs.length) := by
  rw [fromBigEndian_eq_reverse, ← List.length_reverse]
  exact fromLittleEndian_lt bs.reverse

/-- At most `8N` bytes make a value of `W` bits. -/
theorem mod_two_pow_width_of_lt_bytes {c : Config} {n x : Nat} (hn : n ≤ 8 * c.limbs) (hx : x < 2 ^ (8 * n)) :
    x % 2 ^ c.width = x := by
  refine Nat.mod_eq_of_lt (hx.trans_le (Nat.pow_le_pow_right Nat.zero_lt_two ?_))
  rw [Config.width]
  omega

section Imports
variable {s : State} {addr len : BitVec 16} {bs : List Byte} (hlen : len.toNat ≤ 8 * s.cfg.limbs)
  (hr : addr.toNat + len.toNat ≤ s.cfg.bufBytes) (hl : bs.length = len.toNat) (hb : HasBytes s addr.toNat bs)
include hlen hr hl hb

/-- LDBE of bytes that hold a value, of a legal length and inside the buffer (R280). -/
theorem exec_ldbe_ok (rd : Reg) : exec (.ldbe rd addr len) s = .next (s.setReg rd (fromBigEndian bs)) :=
  (if_neg (Nat.not_lt.2 hlen)).trans (withBytes_ok hr hl hb)

/-- LDLE of bytes that hold a value, of a legal length and inside the buffer (R281). -/
theorem exec_ldle_ok (rd : Reg) : exec (.ldle rd addr len) s = .next (s.setReg rd (fromLittleEndian bs)) :=
  (if_neg (Nat.not_lt.2 hlen)).trans (withBytes_ok hr hl hb)

end Imports

section Exports
variable {s : State} {addr : BitVec 16}

/-- STBE inside the buffer (R282). -/
theorem exec_stbe_ok (hr : addr.toNat + 8 * s.cfg.limbs ≤ s.cfg.bufBytes) (rs1 : Reg) :
    exec (.stbe rs1 addr) s = .next (s.writeBytes addr.toNat (bigEndianBytes s.valueBytes (s.val rs1))) :=
  storeBytes_ok (k := fun t => t) ((length_bigEndianBytes ..).symm ▸ hr)

/-- STLE inside the buffer (R283). -/
theorem exec_stle_ok (hr : addr.toNat + 8 * s.cfg.limbs ≤ s.cfg.bufBytes) (rs1 : Reg) :
    exec (.stle rs1 addr) s = .next (s.writeBytes addr.toNat (littleEndianBytes s.valueBytes (s.val rs1))) :=
  storeBytes_ok (k := fun t => t) ((length_littleEndianBytes ..).symm ▸ hr)

theorem exec_stbe_range (hr : s.cfg.bufBytes < addr.toNat + 8 * s.cfg.limbs) (rs1 : Reg) :
    exec (.stbe rs1 addr) s = raise .bufferRange (.stbe rs1 addr) s :=
  storeBytes_range (k := fun t => t) ((length_bigEndianBytes ..).symm ▸ hr)

theorem exec_stle_range (hr : s.cfg.bufBytes < addr.toNat + 8 * s.cfg.limbs) (rs1 : Reg) :
    exec (.stle rs1 addr) s = raise .bufferRange (.stle rs1 addr) s :=
  storeBytes_range (k := fun t => t) ((length_littleEndianBytes ..).symm ▸ hr)

end Exports

/-- Settles O24: an import checks its length, then the range; the sums are `fromBigEndian_eq_sum` and
`fromLittleEndian_eq_sum`, and they fit. -/
theorem importsSumTheBytesInTheirOrder : Obligations.ImportsSumTheBytesInTheirOrder := by
  rintro s rd addr len _ _ rfl rfl
  refine ⟨commandWords_of_encode rfl rfl, commandWords_of_encode rfl rfl, fun hlong => ?_, fun hlen hr => ?_,
    fun bs hlen hr hl hb => ?_⟩
  · exact ⟨⟨_, if_pos hlong, faultEntered_takeFault ..⟩, _, if_pos hlong, faultEntered_takeFault ..⟩
  · have hlegal : ¬ s.valueBytes < len.toNat := Nat.not_lt.2 hlen
    exact ⟨⟨_, (if_neg hlegal).trans (withBytes_range hr), faultEntered_takeFault ..⟩,
      _, (if_neg hlegal).trans (withBytes_range hr), faultEntered_takeFault ..⟩
  · have hbytes : bs.length ≤ 8 * s.cfg.limbs := hl.trans_le hlen
    rw [← fromBigEndian_eq_sum, ← fromLittleEndian_eq_sum]
    exact ⟨⟨_, exec_ldbe_ok hlen hr hl hb rd,
        writesReg_setReg s rd (mod_two_pow_width_of_lt_bytes hbytes (fromBigEndian_lt bs))⟩,
      _, exec_ldle_ok hlen hr hl hb rd,
        writesReg_setReg s rd (mod_two_pow_width_of_lt_bytes hbytes (fromLittleEndian_lt bs))⟩

/-- What STBE and STLE leave in the buffer: byte `f j` at the `j`-th place of the view, and nothing else outside it. -/
theorem readByte_writeBytes_view (s : State) (a : Nat) {n : Nat} {bs : List Byte} (f : Nat → Byte)
    (hl : bs.length = n) (hbs : ∀ j (h : j < bs.length), bs[j] = f j) :
    (∀ j, j < n → (s.writeBytes a bs).readByte (a + j) = some (f j)) ∧
      ∀ q, (q < a ∨ a + n ≤ q) → (s.writeBytes a bs).readByte q = s.readByte q := by
  subst hl
  obtain ⟨hin, hout⟩ := bufferHolds_writeBytes s a bs
  exact ⟨fun j hj => (hin j hj).trans (congrArg some (hbs j hj)), hout⟩

/-- Settles O25: both exports write the buffer alone, at each place the byte of `bigEndianBytes` or
`littleEndianBytes`. -/
theorem exportsWriteAllBytesInTheirOrder : Obligations.ExportsWriteAllBytesInTheirOrder := by
  intro s rs1 addr
  refine ⟨commandWords_of_encode rfl rfl, commandWords_of_encode rfl rfl, fun hr => ?_, fun hr => ?_⟩
  · exact ⟨⟨_, exec_stbe_ok hr rs1, SameRegs.refl s, rfl, SameControl.refl s,
        readByte_writeBytes_view s _ _ (length_bigEndianBytes ..) fun j _ => by
          simp [bigEndianBytes, byteOf, State.valueBytes]⟩,
      _, exec_stle_ok hr rs1, SameRegs.refl s, rfl, SameControl.refl s,
        readByte_writeBytes_view s _ _ (length_littleEndianBytes ..) fun j _ => by simp [littleEndianBytes, byteOf]⟩
  · exact ⟨⟨_, exec_stbe_range hr rs1, faultEntered_takeFault ..⟩,
      _, exec_stle_range hr rs1, faultEntered_takeFault ..⟩

/-- Settles O26: the load reads the bytes the store wrote, whose value is the register's by `fromLittleEndian_bytes`. -/
theorem importUndoesExport : Obligations.ImportUndoesExport := by
  intro s rs1 rd addr len hlen hr
  have hval : fromLittleEndian (littleEndianBytes s.valueBytes (s.val rs1)) % 2 ^ s.cfg.width = s.val rs1 := by
    have hbits : 8 * s.valueBytes = s.cfg.width := by rw [State.valueBytes, ← Nat.mul_assoc]
    rw [fromLittleEndian_bytes, hbits, Nat.mod_mod, Nat.mod_eq_of_lt (s.val_lt rs1)]
  have hread : addr.toNat + len.toNat ≤ s.cfg.bufBytes := hlen ▸ hr
  have hbytes (bs : List Byte) : HasBytes (s.writeBytes addr.toNat bs) addr.toNat bs :=
    (bufferHolds_writeBytes s addr.toNat bs).1
  refine ⟨⟨_, _, exec_stbe_ok hr rs1,
      exec_ldbe_ok (s := s.writeBytes _ _) hlen.le hread ((length_bigEndianBytes ..).trans hlen.symm) (hbytes _) rd,
      ?_⟩,
    _, _, exec_stle_ok hr rs1,
      exec_ldle_ok (s := s.writeBytes _ _) hlen.le hread ((length_littleEndianBytes ..).trans hlen.symm) (hbytes _) rd,
      ?_⟩
  · rw [State.setReg_val_self, bigEndianBytes_eq_reverse, fromBigEndian_eq_reverse, List.reverse_reverse]
    exact hval
  · rw [State.setReg_val_self]
    exact hval

end Sys2Proof.Machine

namespace Sys2Proof.Machine

/-! ### Digits of a text (R290) -/

/-- The digit of each of the 36 characters, letters in either case (R290). -/
theorem digitOfByte_eq_some_iff (c : Byte) (d : Nat) :
    digitOfByte c = some d ↔
      (d < 10 ∧ c.toNat = 0x30 + d) ∨
        (10 ≤ d ∧ d < 36 ∧ (c.toNat = 0x61 + (d - 10) ∨ c.toNat = 0x41 + (d - 10))) := by
  unfold digitOfByte
  split_ifs <;> simp only [Option.some.injEq, false_iff] <;> omega

theorem digitVal_eq_some_iff (c : Byte) (b d : Nat) : digitVal c b = some d ↔ digitOfByte c = some d ∧ d < b := by
  unfold digitVal
  cases digitOfByte c with
  | none => simp
  | some e =>
    simp only [Option.ite_none_right_eq_some, Option.some.injEq]
    exact ⟨fun ⟨hlt, heq⟩ => ⟨heq, heq ▸ hlt⟩, fun ⟨heq, hlt⟩ => ⟨heq ▸ hlt, heq⟩⟩

/-- Settles O28: the character is `digitOfByte_eq_some_iff`, and a digit at or above the radix is none. -/
theorem digitValuesAreThoseOfTheThirtySixCharacters : Obligations.DigitValuesAreThoseOfTheThirtySixCharacters := by
  intro c b d
  rw [digitVal_eq_some_iff, digitOfByte_eq_some_iff, and_comm]

/-! ### The value of a text and its parse (R291) -/

@[simp] theorem textValue_nil (b : Nat) : textValue b [] = 0 := rfl

/-- One more digit at the end of a text. -/
@[simp] theorem textValue_concat (b : Nat) (ds : List Byte) (c : Byte) :
    textValue b (ds ++ [c]) = textValue b ds * b + (digitVal c b).getD 0 := by
  simp [textValue]

theorem allDigits_concat {b d : Nat} {ds : List Byte} {c : Byte} (h : AllDigits b ds) (hc : digitVal c b = some d) :
    AllDigits b (ds ++ [c]) := by
  simpa [AllDigits, hc, or_imp, forall_and] using h

/-- A text is worth at least what any text it begins with is. -/
theorem textValue_le_append {b : Nat} (hb : 0 < b) (pre suf : List Byte) :
    textValue b pre ≤ textValue b (pre ++ suf) := by
  induction suf using List.reverseRecOn with
  | nil => simp
  | append_singleton suf c ih =>
    rw [← List.append_assoc, textValue_concat]
    exact (ih.trans (Nat.le_mul_of_pos_right _ hb)).trans (Nat.le_add_right _ _)

/-- From the value of the digits `pre` already read, the loop of `Parse` ends as R291 says of the whole text. -/
theorem parseFrom_outcome {w b : Nat} {pre suf : List Byte} (hne : pre ++ suf ≠ []) (hdigits : AllDigits b pre)
    (hfits : textValue b pre < 2 ^ w) : ParseOutcome w b (pre ++ suf) (parseFrom w b (textValue b pre) suf) := by
  induction suf generalizing pre with
  | nil =>
    rw [List.append_nil] at hne ⊢
    exact ⟨hne, hdigits, rfl, hfits⟩
  | cons c cs ih =>
    have hlt : pre.length < (pre ++ c :: cs).length := by simp
    have hcons : pre ++ c :: cs = (pre ++ [c]) ++ cs := by simp
    have htake : (pre ++ c :: cs).take (pre.length + 1) = pre ++ [c] := by
      rw [hcons, List.take_left' (by simp)]
    rw [parseFrom]
    cases hc : digitVal c b with
    | none => exact ⟨pre.length, hlt, by simpa using hdigits, by simpa using hfits, by simpa using hc⟩
    | some d =>
      have hvalue : textValue b (pre ++ [c]) = textValue b pre * b + d := by simp [hc]
      simp only [← hvalue]
      split
      · next hover =>
        exact ⟨pre.length, hlt, htake ▸ allDigits_concat hdigits hc, by simpa using hfits, htake ▸ hover⟩
      · next hunder =>
        rw [hcons] at hne ⊢
        exact ih hne (allDigits_concat hdigits hc) (Nat.lt_of_not_le hunder)

/-- `Parse` ends as R291 says. -/
theorem parseText_outcome (w b : Nat) (ds : List Byte) : ParseOutcome w b ds (parseText w b ds) := by
  cases ds with
  | nil => rfl
  | cons c cs =>
    exact parseFrom_outcome (pre := []) (List.cons_ne_nil c cs) (fun _ h => absurd h List.not_mem_nil)
      (Nat.two_pow_pos w)

/-- A non-empty text of digits that fits has no other outcome than its value (R291). -/
theorem ParseOutcome.eq_ok {w b : Nat} {ds : List Byte} {k : Except ParseStatus Nat} (h : ParseOutcome w b ds k)
    (hb : 0 < b) (hne : ds ≠ []) (hdigits : AllDigits b ds) (hfits : textValue b ds < 2 ^ w) :
    k = .ok (textValue b ds) := by
  match k, h with
  | .ok x, ⟨_, _, hx, _⟩ => rw [hx]
  | .error .empty, hempty => exact absurd hempty hne
  | .error .invalidDigit, ⟨_, hn, _, _, hinvalid⟩ => exact absurd hinvalid (hdigits _ (List.getElem_mem hn))
  | .error .overflow, ⟨n, _, _, _, hover⟩ =>
    have hle := textValue_le_append hb (ds.take (n + 1)) (ds.drop (n + 1))
    rw [List.take_append_drop] at hle
    exact absurd (hover.trans hle) (Nat.not_le.2 hfits)

/-! ### The parse commands (R292 to R294) -/

/-- The end of a parse command on the text `ds`. -/
theorem writeParse_parseText_spec (rd : Reg) (b : Nat) (ds : List Byte) (s : State) :
    ∃ k t, ParseOutcome s.cfg.width b ds k ∧ writeParse rd (parseText s.cfg.width b ds) s = .next t ∧
      ParseEffect s t rd k := by
  have houtcome := parseText_outcome s.cfg.width b ds
  obtain ⟨t, hnext, heffect⟩ := writeParse_spec rd (parseText s.cfg.width b ds) s fun x hx => by
    rw [hx] at houtcome
    obtain ⟨-, -, -, hlt⟩ := houtcome
    exact hlt
  exact ⟨_, t, houtcome, hnext, heffect⟩

/-- Only a leading `0x` is taken off (R293). -/
theorem stripHexPrefix_of_ne {ds : List Byte} (h : ∀ rest, ds ≠ 0x30 :: 0x78 :: rest) : stripHexPrefix ds = ds := by
  unfold stripHexPrefix
  split
  · next c0 c1 rest =>
    refine if_neg ?_
    rintro ⟨rfl, rfl⟩
    exact h rest rfl
  · rfl

/-- Settles O29: each command parses the bytes it reads, PARSEHEX what is after a leading `0x`. -/
theorem parseCommandsWriteTheValueOrTheFirstError : Obligations.ParseCommandsWriteTheValueOrTheFirstError := by
  rintro s rd addr len radix _ _ _ hradix rfl rfl rfl
  refine ⟨commandWords_of_encode rfl rfl, commandWords_of_encode rfl rfl, commandWords_of_encode hradix rfl,
    fun hr => ?_, fun ds body hr hl hb hbody => ?_⟩
  · exact ⟨⟨_, withBytes_range hr, faultEntered_takeFault ..⟩, ⟨_, withBytes_range hr, faultEntered_takeFault ..⟩,
      _, withBytes_range hr, faultEntered_takeFault ..⟩
  · have hstrip : stripHexPrefix ds = body := by
      obtain rfl | ⟨rfl, hne⟩ := hbody
      · rfl
      · exact stripHexPrefix_of_ne hne
    have hread (i : Instr) (k : List Byte → Result) : withBytes addr.toNat len.toNat i s k = k ds :=
      withBytes_ok hr hl hb
    simp only [exec, execParsedec, execParsehex, execParser, hread, hstrip]
    exact ⟨writeParse_parseText_spec .., writeParse_parseText_spec .., writeParse_parseText_spec ..⟩

end Sys2Proof.Machine

namespace Sys2Proof.Machine

/-! ### The format commands (R300 to R304) -/

/-- On a legal instance a format command writes its text and the text's length, or raises `BUFFER_RANGE`: a text inside
the buffer has a length that fits a register (R301). -/
theorem storeText_spec {s : State} (hlegal : s.cfg.Legal) (rd : Reg) (addr : Nat) {text : List Byte} {n : Nat}
    (hn : text.length = n) (i : Instr) :
    ∃ t, storeText rd addr text i s = .next t ∧
      if addr + n ≤ s.cfg.bufBytes then FormatEffect s t rd addr text
      else FaultEntered s t .bufferRange (encode i).1 ((encode i).2.getD 0) := by
  subst hn
  by_cases hr : addr + text.length ≤ s.cfg.bufBytes
  · obtain ⟨hlimbs, -, -, hbuf⟩ := hlegal
    have hlt : text.length < 2 ^ 64 := Nat.lt_of_le_of_lt ((Nat.le_add_left ..).trans (hr.trans hbuf)) (by decide)
    have hfits : text.length < 2 ^ s.cfg.width := by
      rw [← mod_two_pow_width_of_lt hlimbs hlt]
      exact Nat.mod_lt _ (Nat.two_pow_pos _)
    simpa only [if_pos hr] using storeText_ok hr hfits
  · simpa only [if_neg hr, storeText_range (Nat.lt_of_not_le hr)] using raise_spec .bufferRange i s

theorem length_digits {w x b : Nat} (hb : 2 ≤ b) (hx : x < 2 ^ w) (upper : Bool) :
    (digits w x b upper).length = digitCount b x := by
  rw [digits_eq_digitText w x b hb upper hx, length_digitText]

/-- The text FMTHEX writes: `0x`, if asked for, and the digits (R303). -/
theorem hexText_eq {w x : Nat} (hx : x < 2 ^ w) (o : HexOptions) :
    hexText w x o = (if o.zeroX then [0x30, 0x78] else []) ++ digitText 16 x o.upper := by
  rw [hexText, digits_eq_digitText w x 16 (by decide) o.upper hx]
  cases o.zeroX <;> rfl

theorem length_hexText {w x : Nat} (hx : x < 2 ^ w) (o : HexOptions) :
    (hexText w x o).length = digitCount 16 x + 2 * o.zeroX.toNat := by
  rw [hexText_eq hx, List.length_append, length_digitText, Nat.add_comm]
  cases o.zeroX <;> rfl

/-- Settles O30: each command stores the library's digits by `digits_eq_digitText`, FMTHEX after the `0x` it may
begin with. -/
theorem formatCommandsWriteTheDigitsAndTheirCount : Obligations.FormatCommandsWriteTheDigitsAndTheirCount := by
  rintro s rd rs1 addr radix _ o hlegal hradix rfl
  have hx := s.val_lt rs1
  obtain ⟨htwo, -⟩ := (radixOk_iff radix).1 hradix
  rw [← hexText_eq hx, ← digits_eq_digitText _ _ 10 (by decide) false hx,
    ← digits_eq_digitText _ _ radix htwo false hx]
  exact ⟨⟨commandWords_of_encode rfl rfl, storeText_spec hlegal rd _ (length_digits (by decide) hx _) _⟩,
    ⟨commandWords_of_encode rfl rfl, storeText_spec hlegal rd _ (length_hexText hx o) _⟩,
    commandWords_of_encode hradix rfl, storeText_spec hlegal rd _ (length_digits htwo hx _) _⟩

end Sys2Proof.Machine

namespace Sys2Proof.Machine

/-! ### Parsing a formatted text (R305) -/

/-- A digit below the radix is the value of its character, in either case. -/
theorem digitVal_asciiDigit {b d : Nat} (hb : b ≤ 36) (hd : d < b) (upper : Bool) :
    digitVal (asciiDigit d upper) b = some d := by
  refine (digitVal_eq_some_iff _ b d).2 ⟨(digitOfByte_eq_some_iff _ d).2 ?_, hd⟩
  unfold asciiDigit
  split
  · next hlt => exact .inl ⟨hlt, by rw [BitVec.toNat_ofNat]; omega⟩
  · next hge =>
    refine .inr ⟨Nat.le_of_not_lt hge, hd.trans_le hb, ?_⟩
    cases upper with
    | true => exact .inr (by simp only [if_true, BitVec.toNat_ofNat]; omega)
    | false => exact .inl (by simp only [Bool.false_eq_true, if_false, BitVec.toNat_ofNat]; omega)

/-- The characters of a list of digits, the least significant digit first in the list: they are digits, and their value
is that of the list. -/
theorem textValue_asciiDigits {b : Nat} (hb : b ≤ 36) (upper : Bool) {l : List Nat} (hl : ∀ d ∈ l, d < b) :
    AllDigits b (l.map fun d => asciiDigit d upper).reverse ∧
      textValue b (l.map fun d => asciiDigit d upper).reverse = Nat.ofDigits b l := by
  induction l with
  | nil => exact ⟨fun _ h => absurd h List.not_mem_nil, rfl⟩
  | cons d l ih =>
    obtain ⟨hd, hrest⟩ := List.forall_mem_cons.1 hl
    obtain ⟨hdigits, hvalue⟩ := ih hrest
    have hchar := digitVal_asciiDigit hb hd upper
    rw [List.map_cons, List.reverse_cons]
    refine ⟨allDigits_concat hdigits hchar, ?_⟩
    rw [textValue_concat, hvalue, hchar, Nat.ofDigits_cons, Option.getD_some, Nat.mul_comm, Nat.add_comm]

theorem digitText_ne_nil (b x : Nat) (upper : Bool) : digitText b x upper ≠ [] := by
  rw [digitText]
  split
  · exact List.cons_ne_nil _ _
  · next hne => simpa using Nat.digits_ne_nil_iff_ne_zero.2 hne

section DigitText
variable {b : Nat} (hb2 : 2 ≤ b) (hb36 : b ≤ 36) (x : Nat) (upper : Bool)
include hb2 hb36

/-- A digit text is made of digits, and its value is the number it was made from. -/
theorem textValue_digitText : AllDigits b (digitText b x upper) ∧ textValue b (digitText b x upper) = x := by
  rw [digitText]
  split
  · next hzero =>
    have hzeroDigit : ∀ d ∈ [0], d < b := List.forall_mem_singleton.2 (Nat.zero_lt_of_lt hb2)
    simpa [hzero, asciiDigit] using textValue_asciiDigits hb36 upper hzeroDigit
  · have hspec := textValue_asciiDigits hb36 upper fun d hd => Nat.digits_lt_base (m := x) hb2 hd
    rwa [Nat.ofDigits_digits] at hspec

/-- Parsing a digit text gives the number it was made from. -/
theorem parseText_digitText {w : Nat} (hx : x < 2 ^ w) : parseText w b (digitText b x upper) = .ok x := by
  obtain ⟨hdigits, hvalue⟩ := textValue_digitText hb2 hb36 x upper
  have houtcome := (parseText_outcome w b (digitText b x upper)).eq_ok (Nat.zero_lt_of_lt hb2)
    (digitText_ne_nil b x upper) hdigits (hvalue.symm ▸ hx)
  rwa [hvalue] at houtcome

end DigitText

/-- No text of hexadecimal digits begins with `0x`. -/
theorem stripHexPrefix_of_allDigits {ds : List Byte} (h : AllDigits 16 ds) : stripHexPrefix ds = ds := by
  refine stripHexPrefix_of_ne ?_
  rintro rest rfl
  exact h 0x78 (by simp) rfl

/-- PARSEHEX parses what FMTHEX wrote, with any options. -/
theorem parseText_hexText {w x : Nat} (hx : x < 2 ^ w) (o : HexOptions) :
    parseText w 16 (stripHexPrefix ((if o.zeroX then [0x30, 0x78] else []) ++ digitText 16 x o.upper)) = .ok x := by
  have hparse := parseText_digitText (b := 16) (by decide) (by decide) x o.upper hx
  cases o.zeroX with
  | true => exact hparse
  | false =>
    obtain ⟨hdigits, -⟩ := textValue_digitText (b := 16) (by decide) (by decide) x o.upper
    rwa [if_neg Bool.false_ne_true, List.nil_append, stripHexPrefix_of_allDigits hdigits]

/-- After a format command with the outcome O30 gives it, a parse command that reads as many bytes as the text has gets
the text, and writes what it parses to. -/
theorem parse_of_formatted {s : State} {rl ry : Reg} {addr len n x : Nat} {text : List Byte} {format : Result}
    {range : State → Prop} {i : Instr} (parse : Nat → List Byte → Except ParseStatus Nat)
    (h : ∃ t, format = .next t ∧ if addr + n ≤ s.cfg.bufBytes then FormatEffect s t rl addr text else range t)
    (hn : text.length = n) (hparse : parse s.cfg.width text = .ok x) (hx : x < 2 ^ s.cfg.width) (hlen : len = n)
    (hr : addr + len ≤ s.cfg.bufBytes) :
    ∃ t u, format = .next t ∧ t.val rl = len ∧
      withBytes addr len i t (fun ds => writeParse ry (parse t.cfg.width ds) t) = .next u ∧
      u.val ry = x ∧ u.flags.perr = .ok := by
  subst hlen
  obtain ⟨t, hformat, heffect⟩ := h
  rw [if_pos hr] at heffect
  obtain ⟨⟨hcount, -⟩, ⟨hbytes, -⟩, -, hcfg, -⟩ := heffect
  rw [← hcfg] at hr hparse hx
  refine ⟨t, _, hformat, hcount.trans hn, (withBytes_ok hr hn hbytes).trans (by rw [hparse]; rfl), ?_, rfl⟩
  rw [State.setPerr_val, State.setReg_val_self, Nat.mod_eq_of_lt hx]

/-- Settles O31: the text a format command wrote (O30) parses to the value it was made from. -/
theorem parseUndoesFormat : Obligations.ParseUndoesFormat := by
  intro s rl rx ry addr len radix o hlegal hradix
  have hx := s.val_lt rx
  obtain ⟨hb2, hb36⟩ := (radixOk_iff radix).1 hradix
  obtain ⟨⟨-, hdec⟩, ⟨-, hhex⟩, -, hany⟩ :=
    formatCommandsWriteTheDigitsAndTheirCount s rl rx addr radix _ o hlegal hradix rfl
  have hhexLength := length_hexText hx o
  rw [hexText_eq hx] at hhexLength
  exact ⟨parse_of_formatted (parseText · 10) hdec (length_digitText ..)
      (parseText_digitText (by decide) (by decide) _ false hx) hx,
    parse_of_formatted (fun w ds => parseText w 16 (stripHexPrefix ds)) hhex hhexLength (parseText_hexText hx o) hx,
    parse_of_formatted (parseText · radix) hany (length_digitText ..) (parseText_digitText hb2 hb36 _ false hx) hx⟩

end Sys2Proof.Machine

namespace Sys2Proof.Machine

/-! ### binary64 to integer (R310, R311) -/

/-- Scaling by `2^(e - 1075)` and rounding down is a shift: left from exponent 1075 on, right below it. -/
theorem floor_scaled (m e : Nat) :
    ⌊(m : ℚ) * (2 : ℚ) ^ ((e : ℤ) - 1075)⌋₊ = if 1075 ≤ e then m * 2 ^ (e - 1075) else m / 2 ^ (1075 - e) := by
  split
  · next hle =>
    have hexp : (e : ℤ) - 1075 = ((e - 1075 : ℕ) : ℤ) := by omega
    rw [hexp, zpow_natCast]
    exact_mod_cast Nat.floor_natCast (R := ℚ) (m * 2 ^ (e - 1075))
  · next hlt =>
    have hexp : (e : ℤ) - 1075 = -((1075 - e : ℕ) : ℤ) := by omega
    rw [hexp, zpow_neg, zpow_natCast, ← div_eq_mul_inv]
    exact_mod_cast Nat.floor_div_eq_div (K := ℚ) m (2 ^ (1075 - e))

/-- F2U of a pattern `p`, case by case as R311 gives it, with the value as a rational number. -/
theorem f64ToUint_eq (w : Nat) {p : Nat} (hp : p < 2 ^ 64) :
    f64ToUint w p =
      if p / 2 ^ 52 % 2 ^ 11 = 0x7FF ∧ p % 2 ^ 52 ≠ 0 then 0
      else if 2 ^ 63 ≤ p then 0
      else if p / 2 ^ 52 % 2 ^ 11 = 0x7FF then 2 ^ w - 1
      else if p / 2 ^ 52 % 2 ^ 11 = 0 then 0
      else min (2 ^ w - 1) ⌊((2 ^ 52 + p % 2 ^ 52 : ℕ) : ℚ) * (2 : ℚ) ^ (((p / 2 ^ 52 % 2 ^ 11 : ℕ) : ℤ) - 1075)⌋₊ := by
  have hsign : p / 2 ^ 63 % 2 = 1 ↔ 2 ^ 63 ≤ p := by omega
  have hclamp (t : Nat) : (if 2 ^ w - 1 < t then 2 ^ w - 1 else t) = min (2 ^ w - 1) t := by split <;> omega
  simp only [f64ToUint, hsign, hclamp, floor_scaled]

/-- F2U of a normal finite pattern with sign 0 rounds its value down and limits it to `MAX` (R311). -/
theorem f64ToUint_of_finite (w : Nat) {p : Nat} (hp : F64Finite p) :
    f64ToUint w p = min (2 ^ w - 1) ⌊f64Value p⌋₊ := by
  obtain ⟨hlow, hhigh⟩ := hp
  have hexp : p / 2 ^ 52 % 2 ^ 11 = p / 2 ^ 52 := by omega
  rw [f64ToUint_eq w (by omega), if_neg (by omega), if_neg (by omega), if_neg (by omega), if_neg (by omega), hexp,
    f64Value]

theorem f64ToUint_lt (w p : Nat) : f64ToUint w p < 2 ^ w := by
  have hmax := Nat.two_pow_pos w
  simp only [f64ToUint]
  split_ifs <;> omega

/-- F2U converts limb 0 of its source, and the result fits (R311). -/
theorem exec_f2u_spec (s : State) (rd rs1 : Reg) :
    ∃ t, exec (.f2u rd rs1) s = .next t ∧ WritesReg s t rd (f64ToUint s.cfg.width (s.val rs1 % 2 ^ 64)) := by
  have hlimb : limb (s.val rs1) 0 = s.val rs1 % 2 ^ 64 := by simp [limb]
  exact ⟨_, rfl, writesReg_setReg s rd (hlimb ▸ Nat.mod_eq_of_lt (f64ToUint_lt ..))⟩

/-- Settles O32: the cases are those of `f64ToUint_eq`. -/
theorem floatToIntegerFloorsAndClamps : Obligations.FloatToIntegerFloorsAndClamps := by
  rintro s rd rs1 _ _ _ rfl rfl rfl
  rw [← f64ToUint_eq _ (Nat.mod_lt _ (Nat.two_pow_pos 64))]
  exact ⟨commandWords_of_encode rfl rfl, exec_f2u_spec s rd rs1⟩

/-! ### Integer to binary64 (R310, R312, R313) -/

/-- The value of a pattern from its exponent field and its fraction. A fraction of `2^52`, which carries into the
exponent field, follows the same formula: it is the pattern after that of the fraction `2^52 - 1`. -/
theorem f64Value_eq {e k : Nat} (hk : k ≤ 2 ^ 52) :
    f64Value (e * 2 ^ 52 + k) = ((2 ^ 52 + k : ℕ) : ℚ) * (2 : ℚ) ^ ((e : ℤ) - 1075) := by
  obtain rfl | hlt := hk.eq_or_lt
  · have hexp : (e * 2 ^ 52 + 2 ^ 52) / 2 ^ 52 = e + 1 := by omega
    have hfrac : (e * 2 ^ 52 + 2 ^ 52) % 2 ^ 52 = 0 := by omega
    have hcarry : ((e + 1 : ℕ) : ℤ) - 1075 = 1 + ((e : ℤ) - 1075) := by push_cast; ring
    rw [f64Value, hexp, hfrac, hcarry, zpow_add₀ two_ne_zero, zpow_one, ← mul_assoc]
    norm_num
  · have hexp : (e * 2 ^ 52 + k) / 2 ^ 52 = e := by omega
    have hfrac : (e * 2 ^ 52 + k) % 2 ^ 52 = k := by omega
    rw [f64Value, hexp, hfrac]

/-- Every finite pattern has a value below `2^1024` (R310). -/
theorem f64Value_lt {p : Nat} (hp : F64Finite p) : f64Value p < 2 ^ 1024 := by
  obtain ⟨-, hhigh⟩ := hp
  have hsig : ((2 ^ 52 + p % 2 ^ 52 : ℕ) : ℚ) < 2 ^ 53 := by
    have : 2 ^ 52 + p % 2 ^ 52 < 2 ^ 53 := by omega
    exact_mod_cast this
  have hexp : ((p / 2 ^ 52 : ℕ) : ℤ) - 1075 ≤ (971 : ℕ) := by omega
  calc f64Value p
      < 2 ^ 53 * (2 : ℚ) ^ (((p / 2 ^ 52 : ℕ) : ℤ) - 1075) := mul_lt_mul_of_pos_right hsig (zpow_pos two_pos _)
    _ ≤ 2 ^ 53 * (2 : ℚ) ^ ((971 : ℕ) : ℤ) :=
        mul_le_mul_of_nonneg_left (zpow_le_zpow_right₀ one_le_two hexp) (by positivity)
    _ = 2 ^ 1024 := by rw [zpow_natCast, ← pow_add]

/-- A non-zero value has its leading bit just below its bit length (R244). -/
theorem two_pow_bitLen_bounds {x : Nat} (hx : 0 < x) : 0 < bitLen x ∧ 2 ^ (bitLen x - 1) ≤ x ∧ x < 2 ^ bitLen x := by
  have hpos : 0 < bitLen x := Nat.pos_of_ne_zero fun hzero => by
    have := (bitLen_le_iff x 0).1 hzero.le
    omega
  refine ⟨hpos, Nat.le_of_not_lt fun hlt => ?_, (bitLen_le_iff x _).1 le_rfl⟩
  have := (bitLen_le_iff x _).2 hlt
  omega

/-- The significand has 53 bits (R310). -/
theorem f64Significand_bounds {x : Nat} (hx : 0 < x) : 2 ^ 52 ≤ f64Significand x ∧ f64Significand x < 2 ^ 53 := by
  obtain ⟨hpos, hlow, hhigh⟩ := two_pow_bitLen_bounds hx
  rw [f64Significand]
  split
  · next hle =>
    have hscale := Nat.two_pow_pos (53 - bitLen x)
    have h52 : 2 ^ 52 = 2 ^ (bitLen x - 1) * 2 ^ (53 - bitLen x) := by rw [← Nat.pow_add]; congr 1; omega
    have h53 : 2 ^ 53 = 2 ^ bitLen x * 2 ^ (53 - bitLen x) := by rw [← Nat.pow_add]; congr 1; omega
    rw [h52, h53]
    exact ⟨Nat.mul_le_mul_right _ hlow, Nat.mul_lt_mul_of_pos_right hhigh hscale⟩
  · next hgt =>
    have hscale := Nat.two_pow_pos (bitLen x - 53)
    rw [Nat.le_div_iff_mul_le hscale, Nat.div_lt_iff_lt_mul hscale, ← Nat.pow_add, ← Nat.pow_add]
    have h52 : 52 + (bitLen x - 53) = bitLen x - 1 := by omega
    have h53 : 53 + (bitLen x - 53) = bitLen x := by omega
    rw [h52, h53]
    exact ⟨hlow, hhigh⟩

section Below
variable {x : Nat} (hx : 0 < x) (hlen : bitLen x ≤ 1024)
include hx hlen

theorem f64Below_eq : f64Below x = (bitLen x + 1022) * 2 ^ 52 + (f64Significand x - 2 ^ 52) := by
  rw [f64Below, if_neg hx.ne', if_neg (Nat.not_lt.2 hlen)]

theorem f64Finite_below : F64Finite (f64Below x) := by
  have hsig := f64Significand_bounds hx
  have hpos := two_pow_bitLen_bounds hx |>.1
  rw [f64Below_eq hx hlen, F64Finite]
  omega

/-- The values of the pattern of `x` and of the one after it: the significand, or one more, at the weight of its last
bit. -/
theorem f64Value_below_add {d : Nat} (hd : d ≤ 1) :
    f64Value (f64Below x + d) = ((f64Significand x + d : ℕ) : ℚ) * (2 : ℚ) ^ ((bitLen x : ℤ) - 53) := by
  obtain ⟨hlow, hhigh⟩ := f64Significand_bounds hx
  have hsig : 2 ^ 52 + (f64Significand x - 2 ^ 52 + d) = f64Significand x + d := by omega
  have hexp : ((bitLen x + 1022 : ℕ) : ℤ) - 1075 = (bitLen x : ℤ) - 53 := by omega
  rw [f64Below_eq hx hlen, Nat.add_assoc, f64Value_eq (by omega), hsig, hexp]

end Below

/-- Below `2^53` the pattern is exact (R312). -/
theorem f64Value_below_of_lt {x : Nat} (hx : 0 < x) (hlt : x < 2 ^ 53) :
    F64Finite (f64Below x) ∧ f64Value (f64Below x) = x := by
  have hlen : bitLen x ≤ 53 := bitLen_le_of_lt hlt
  have hlegal : bitLen x ≤ 1024 := hlen.trans (by decide)
  refine ⟨f64Finite_below hx hlegal, ?_⟩
  have hexp : (bitLen x : ℤ) - 53 = -((53 - bitLen x : ℕ) : ℤ) := by omega
  have hvalue := f64Value_below_add hx hlegal (Nat.zero_le 1)
  rw [Nat.add_zero, Nat.add_zero, hexp, f64Significand, if_pos hlen, Nat.cast_mul, Nat.cast_pow, Nat.cast_two, zpow_neg,
    zpow_natCast, mul_inv_cancel_right₀ (by positivity)] at hvalue
  exact hvalue

/-- From `2^53` on `f64Below` gives the greatest finite value at most `x`, which is less than `x` where binary64 has no
pattern for it (R313). -/
theorem f64Below_spec {x : Nat} (hx : 2 ^ 53 ≤ x) :
    F64Finite (f64Below x) ∧ f64Value (f64Below x) ≤ x ∧
      (F64Finite (f64Below x + 1) → (x : ℚ) < f64Value (f64Below x + 1)) ∧
      (f64Exact x = false → f64Value (f64Below x) < x) := by
  have hpos : 0 < x := Nat.lt_of_lt_of_le (by decide) hx
  obtain hlen | hlen := Nat.lt_or_ge 1024 (bitLen x)
  · have hmax : f64Below x = f64MaxFinite := by rw [f64Below, if_neg hpos.ne', if_pos hlen]
    have hfinite : F64Finite f64MaxFinite := ⟨by decide, by decide⟩
    have hlarge : (2 : ℚ) ^ 1024 ≤ x := by
      have := Nat.le_of_not_lt (mt (bitLen_le_iff x 1024).2 (Nat.not_le.2 hlen))
      exact_mod_cast this
    have hlt := (f64Value_lt hfinite).trans_le hlarge
    rw [hmax]
    exact ⟨hfinite, hlt.le, fun hnext => absurd hnext.2 (by decide), fun _ => hlt⟩
  · have hbits : 53 < bitLen x := Nat.lt_of_not_le fun hle => absurd ((bitLen_le_iff x 53).1 hle) (Nat.not_lt.2 hx)
    have hexp : (bitLen x : ℤ) - 53 = ((bitLen x - 53 : ℕ) : ℤ) := by omega
    have hvalue {d : Nat} (hd : d ≤ 1) :
        f64Value (f64Below x + d) = (((x / 2 ^ (bitLen x - 53) + d) * 2 ^ (bitLen x - 53) : ℕ) : ℚ) := by
      rw [f64Value_below_add hpos hlen hd, f64Significand, if_neg (Nat.not_le.2 hbits), hexp, zpow_natCast]
      push_cast
      rfl
    have hbelow := hvalue (Nat.zero_le 1)
    rw [Nat.add_zero, Nat.add_zero] at hbelow
    rw [hbelow, hvalue le_rfl, Nat.cast_le, Nat.cast_lt, Nat.cast_lt, Nat.succ_mul]
    have hdiv := Nat.div_add_mod' x (2 ^ (bitLen x - 53))
    refine ⟨f64Finite_below hpos hlen, Nat.div_mul_le_self _ _, fun _ => Nat.lt_div_mul_add (Nat.two_pow_pos _),
      fun hinexact => ?_⟩
    have hrest : x % 2 ^ (bitLen x - 53) ≠ 0 := by simpa [f64Exact, hlen] using hinexact
    omega

/-- U2F's pattern for a value of `2^53` or more, whichever way F64_ROUND goes (R313). -/
theorem f64Round_adjacent (c : Config) {x : Nat} (hx : 2 ^ 53 ≤ x) :
    F64Adjacent x (f64Round c x) ∧ f64Round c x < 2 ^ 64 := by
  obtain ⟨hfinite, hle, hnext, hstrict⟩ := f64Below_spec hx
  have hhigh := hfinite.2
  rw [f64Round]
  split
  · exact ⟨.inl ⟨hfinite, hle, hnext⟩, by omega⟩
  · next hinexact =>
    split
    · exact ⟨.inr ⟨hfinite, hstrict (Bool.eq_false_iff.2 hinexact), fun h => (hnext h).le⟩, by omega⟩
    · exact ⟨.inl ⟨hfinite, hle, hnext⟩, by omega⟩

/-- A pattern fits in 64 bits. -/
theorem f64Below_lt {x : Nat} (hlt : x < 2 ^ 53) : f64Below x < 2 ^ 64 := by
  obtain rfl | hpos := Nat.eq_zero_or_pos x
  · decide
  · exact (f64Value_below_of_lt hpos hlt).1.2.trans (by decide)

/-- U2F below `2^53` (R312). -/
theorem exec_u2f_of_lt {s : State} {rs1 : Reg} (hlegal : s.cfg.Legal) (rd : Reg) (hlt : s.val rs1 < 2 ^ 53) :
    ∃ t, exec (.u2f rd rs1) s = .next t ∧ WritesReg s t rd (f64Below (s.val rs1)) := by
  refine ⟨_, rfl, writesReg_setReg s rd ?_⟩
  rw [if_pos hlt, mod_two_pow_width_of_lt hlegal.1 (f64Below_lt hlt)]

/-- U2F from `2^53` on (R312). -/
theorem exec_u2f_of_ge {s : State} {rs1 : Reg} (hlegal : s.cfg.Legal) (rd : Reg) (hge : 2 ^ 53 ≤ s.val rs1) :
    ∃ t, exec (.u2f rd rs1) s = .next t ∧ WritesReg s t rd (f64Round s.cfg (s.val rs1)) := by
  refine ⟨_, rfl, writesReg_setReg s rd ?_⟩
  rw [if_neg (Nat.not_lt.2 hge), mod_two_pow_width_of_lt hlegal.1 (f64Round_adjacent s.cfg hge).2]

/-- Settles O33: below `2^53` the pattern is exact, from there on it is one of the two that `f64Round` may give. -/
theorem integerToFloatIsExactOrAdjacent : Obligations.IntegerToFloatIsExactOrAdjacent := by
  intro s rd rs1 hlegal
  refine ⟨commandWords_of_encode rfl rfl, ?_⟩
  obtain hlt | hge := Nat.lt_or_ge (s.val rs1) (2 ^ 53)
  · obtain ⟨t, hnext, hwrites⟩ := exec_u2f_of_lt hlegal rd hlt
    exact ⟨t, _, hnext, hwrites, f64Below_lt hlt, congrArg f64Below,
      fun hpos _ => f64Value_below_of_lt hpos hlt, fun hge => absurd hge (Nat.not_le.2 hlt)⟩
  · obtain ⟨t, hnext, hwrites⟩ := exec_u2f_of_ge hlegal rd hge
    obtain ⟨hadjacent, hp⟩ := f64Round_adjacent s.cfg hge
    exact ⟨t, _, hnext, hwrites, hp, fun hzero => absurd (hzero ▸ hge) (by decide),
      fun _ hlt => absurd hge (Nat.not_le.2 hlt), fun _ => hadjacent⟩

/-- F2U of the pattern of a value below `2^53` is the value (R314). -/
theorem f64ToUint_below {w x : Nat} (hx : x < 2 ^ w) (hlt : x < 2 ^ 53) : f64ToUint w (f64Below x) = x := by
  obtain rfl | hpos := Nat.eq_zero_or_pos x
  · rfl
  · obtain ⟨hfinite, hvalue⟩ := f64Value_below_of_lt hpos hlt
    rw [f64ToUint_of_finite w hfinite, hvalue, Nat.floor_natCast, Nat.min_eq_right (Nat.le_sub_one_of_lt hx)]

/-- Settles O34: F2U reads the whole pattern U2F wrote. -/
theorem floatRoundTripBelowTwoToThe53 : Obligations.FloatRoundTripBelowTwoToThe53 := by
  intro s rd rd2 rs1 hlegal hlt
  obtain ⟨t, hu2f, ⟨hpattern, -⟩, -, -, hcfg, -⟩ := exec_u2f_of_lt hlegal rd hlt
  obtain ⟨u, hf2u, ⟨hback, -⟩, -⟩ := exec_f2u_spec t rd2 rd
  refine ⟨t, u, hu2f, hf2u, ?_⟩
  rw [hback, hpattern, hcfg, Nat.mod_eq_of_lt (f64Below_lt hlt), f64ToUint_below (s.val_lt rs1) hlt]

end Sys2Proof.Machine

namespace Sys2Proof.Machine

/-! ### The square root (R350 to R352) -/

/-- The loop's steps cover two bits each, and so all of the bits of `x` together; hence the loop's invariant
holds at its start, with no part of the root found (R350, R351). -/
theorem isqrtRec_bounds (x : Nat) :
    isqrtRec x * isqrtRec x ≤ x ∧ x < (isqrtRec x + 1) * (isqrtRec x + 1) := by
  rw [isqrtRec]
  split
  · next hsmall =>
    obtain rfl | rfl := Nat.le_one_iff_eq_zero_or_eq_one.1 hsmall <;> decide
  · generalize hm : (bitLen x - 1) / 2 = m
    have hbit : 2 ^ (2 * (m + 1)) / 4 = 2 ^ (2 * m) := by
      rw [Nat.mul_succ, Nat.pow_add, Nat.mul_div_cancel _ (by decide)]
    have hcover : x < (0 + 2 ^ (m + 1)) * (0 + 2 ^ (m + 1)) := by
      rw [Nat.zero_add, ← Nat.pow_add, ← bitLen_le_iff]
      omega
    obtain ⟨_, rfl, hle, hlt⟩ := isqrtLoop_spec (m + 1) x 0 x (Nat.zero_add x).symm hcover
    rw [hbit, Nat.zero_mul] at hle hlt
    exact ⟨hle, hlt⟩

theorem isqrtRec_le (x : Nat) : isqrtRec x ≤ x := (Nat.le_mul_self _).trans (isqrtRec_bounds x).1

/-- Settles O35: what ISQRT writes is `isqrtRec` of the operand, and it is no greater than the operand, so it fits. -/
theorem squareRootIsTheFloorOfTheRoot : Obligations.SquareRootIsTheFloorOfTheRoot := by
  intro s rd rs1
  have hfits : isqrtRec (s.val rs1) < 2 ^ s.cfg.width := (isqrtRec_le _).trans_lt (s.val_lt rs1)
  exact ⟨commandWords_of_encode rfl rfl, _, _, rfl, writesReg_setReg s rd (Nat.mod_eq_of_lt hfits),
    isqrtRec_bounds _⟩

end Sys2Proof.Machine

namespace Sys2Proof.Machine

/-! ### What the issue of a command does (R401) -/

/-- In RUNNING, words that decode have the decoded command's outcome, with the reply. -/
theorem issue_of_decoded {s : State} {w : Word} {lit : Option Word} {i : Instr} (hrun : s.fault = none)
    (hdecode : decode w lit = .ok i) : issue w lit s = withIssueReply (exec i s) := by
  simp only [issue, State.stopped, hrun, execute, hdecode]
  rfl

/-- Settles O1: the step is the issue, and the reply it adds is the one `withIssueReply` gives. -/
theorem stepRunsTheDecodedCommand : Obligations.StepRunsTheDecodedCommand := by
  intro s w lit rest i hs hrun hdecode
  have hissue := issue_of_decoded (s := s.setHost rest) hrun hdecode
  rw [(step_of_host hs).trans hissue]
  cases exec i (s.setHost rest) <;> rfl

/-! ### The cause a command raises, and the byte it may stop on (R381, R390 to R393) -/

/-- The result of command `i` on `s` when the cause that holds is `o`: with a cause, fault entry alone; with none, a
next state with the fault register as it was, or a stop on a byte of the command's own access that holds no value. -/
inductive Raises (i : Instr) (s : State) : Option Cause → Result → Prop where
  | cause (c : Cause) : Raises i s (some c) (raise c i s)
  | next {t : State} (h : t.fault = s.fault) : Raises i s none (.next t)
  | stop {e a n : Nat} (haccess : bufferAccess i s = some (a, n)) (hr : a + n ≤ s.cfg.bufBytes) (h1 : a ≤ e)
    (h2 : e < a + n) (h3 : s.readByte e = none) : Raises i s none (.fault (.uninitRead e))

section Raises
variable {i : Instr} {s : State}

theorem raises_raise_or (p : Prop) [Decidable p] (c : Cause) {o : Option Cause} {r : Result} (h : Raises i s o r) :
    Raises i s (if p then some c else o) (if p then raise c i s else r) := by
  split
  · exact .cause c
  · exact h

/-- After a check of the command word that found no cause, the rest of the meaning decides. -/
theorem raises_of_check_passed {p : Prop} [Decidable p] {c : Cause} (hc : (if p then some c else none) = none)
    {o : Option Cause} {r : Result} (h : Raises i s o r) : Raises i s o (if p then raise c i s else r) := by
  have hp : ¬ p := by simpa using hc
  rwa [if_neg hp]

theorem raises_writeChecked (rd : Reg) (e : Nat) (ov : Bool) : Raises i s none (writeChecked rd e ov s) := by
  cases ov <;> exact .next rfl

theorem raises_writeParse (rd : Reg) (k : Except ParseStatus Nat) : Raises i s none (writeParse rd k s) := by
  cases k <;> exact .next rfl

/-- A read of the command's access raises `BUFFER_RANGE` outside the buffer, and may stop inside it. -/
theorem raises_withBytes {a n : Nat} {k : List Byte → Result} (haccess : bufferAccess i s = some (a, n))
    (hk : ∀ bs, Raises i s none (k bs)) :
    Raises i s (if s.cfg.bufBytes < a + n then some .bufferRange else none) (withBytes a n i s k) := by
  obtain ⟨hr, h⟩ | ⟨hr, hread⟩ := withBytes_cases a n i s k
  · rw [if_pos hr, h]
    exact .cause _
  · rw [if_neg (Nat.not_lt.2 hr)]
    obtain ⟨bs, -, -, h⟩ | ⟨e, h1, h2, h3, h⟩ := hread <;> rw [h]
    · exact hk bs
    · exact .stop haccess hr h1 h2 h3

/-- A write raises `BUFFER_RANGE` exactly outside the buffer: where it writes `n` bytes if the command is well formed,
that is the table's condition for `n` bytes. -/
theorem raises_storeBytes {a n : Nat} {bs : List Byte} {k : State → State} (hn : i.wellFormed = true → bs.length = n)
    (hk : ∀ t, (k t).fault = t.fault) :
    ∃ o, (i.wellFormed = true → (if s.cfg.bufBytes < a + n then some .bufferRange else none) = o) ∧
      Raises i s o (storeBytes a bs i s k) := by
  refine ⟨if s.cfg.bufBytes < a + bs.length then some .bufferRange else none, fun hi => by rw [hn hi], ?_⟩
  rcases Nat.lt_or_ge s.cfg.bufBytes (a + bs.length) with hr | hr
  · rw [if_pos hr, storeBytes_range hr]
    exact .cause _
  · rw [if_neg (Nat.not_lt.2 hr), storeBytes_ok hr]
    exact .next (hk _)

theorem raises_storeText {rd : Reg} {a n : Nat} {text : List Byte} (hn : i.wellFormed = true → text.length = n) :
    ∃ o, (i.wellFormed = true → (if s.cfg.bufBytes < a + n then some .bufferRange else none) = o) ∧
      Raises i s o (storeText rd a text i s) :=
  raises_storeBytes hn fun t => State.setReg_fault t rd _

end Raises

/-- Every command raises a cause, goes on, or stops on a byte; the cause of a well-formed one is the tabulated one.
(Of another radix than R74's, FMTR's text has another length than the number of digits.) -/
theorem exec_raises (i : Instr) (s : State) :
    ∃ o, (i.wellFormed = true → raisedCause i s = o) ∧ Raises i s o (exec i s) := by
  cases hc : operandCheck i s with
  | some c =>
    rw [exec_of_operandCheck hc]
    exact ⟨some c, fun _ => by simp only [raisedCause, hc], .cause c⟩
  | none =>
    simp only [raisedCause, hc]
    cases i with
    | nop | clrf | mov | ldi | ldmax | rdf | cmpEq | cmpNe | cmpLt | cmpLe | cmpGt | cmpGe | isz | addW | addS | subW
    | subS | mulW | mulS | powW | shl | shr | rol | ror | shli | shri | roli | rori | bitAnd | bitOr | bitXor | bitNot
    | clz | ctz | bits | f2u | u2f | isqrt | narrow | addO | subO | mulO | powO =>
      exact ⟨_, fun _ => rfl, .next rfl⟩
    | addC | subC | mulC => exact ⟨_, fun _ => rfl, raises_writeChecked ..⟩
    | ldl | getl | bit | mulWide => exact ⟨_, fun _ => rfl, raises_of_check_passed hc (.next rfl)⟩
    | div | rem => exact ⟨_, fun _ => rfl, raises_raise_or _ _ (.next rfl)⟩
    | divmod => exact ⟨_, fun _ => rfl, raises_of_check_passed hc (raises_raise_or _ _ (.next rfl))⟩
    | ldbe | ldle =>
      exact ⟨_, fun _ => rfl, raises_of_check_passed hc (raises_withBytes rfl fun _ => .next rfl)⟩
    | parsedec | parsehex | parser =>
      exact ⟨_, fun _ => rfl, raises_withBytes rfl fun _ => raises_writeParse ..⟩
    | stbe => exact raises_storeBytes (fun _ => length_bigEndianBytes ..) fun _ => rfl
    | stle => exact raises_storeBytes (fun _ => length_littleEndianBytes ..) fun _ => rfl
    | fmtdec _ rs1 => exact raises_storeText fun _ => length_digits (by decide) (s.val_lt rs1) _
    | fmthex _ rs1 _ o => exact raises_storeText fun _ => length_hexText (s.val_lt rs1) o
    | fmtr _ rs1 _ b =>
      refine raises_storeText fun hi => length_digits ?_ (s.val_lt rs1) _
      exact ((radixOk_iff b).1 hi).1

/-- Settles O46: the next state of a command that `Raises` a cause is fault entry, and of one that raises none has the
fault register as it was. -/
theorem commandsFaultExactlyAsTabulated : Obligations.CommandsFaultExactlyAsTabulated := by
  intro i s t hi hrun ht
  obtain ⟨o, ho, hraises⟩ := exec_raises i s
  rw [ho hi]
  rw [ht] at hraises
  cases hraises with
  | cause c =>
    refine ⟨rfl, fun d hd => ?_⟩
    cases hd
    exact faultEntered_takeFault s c (encode i)
  | next h => exact ⟨h.trans hrun, nofun⟩

/-- Settles O51: of the ways a result can be as `Raises` says, one is a stop and none a refusal. -/
theorem commandsStopOnlyOnUnwrittenBytes : Obligations.CommandsStopOnlyOnUnwrittenBytes := by
  intro i s
  obtain ⟨o, -, hraises⟩ := exec_raises i s
  refine ⟨fun r hr => ?_, fun f hf => ?_⟩
  · rw [hr] at hraises
    cases hraises
  · rw [hf] at hraises
    cases hraises with
    | stop haccess hr h1 h2 h3 => exact ⟨_, _, _, rfl, haccess, h1, h2, hr, h3⟩

end Sys2Proof.Machine
